-- ==== Sys2Proof/Word.lean ====
section
/-! DEFINITION. The word types of the engine: the byte it transfers (R8 `BYTE_BITS`, R10), the nibble that
brightness and counters use (R8 `BRT_BITS`, R22), and the 12-bit command word of the port (R92). -/

namespace Sys2Proof

/-- A byte, bits 7 down to 0, unsigned (R10). -/
abbrev Byte := BitVec 8

/-- A 4-bit quantity: `BRT` (R23), `BITCNT` (R22) and the operation code of a command word (R92). -/
abbrev Nibble := BitVec 4

/-- A command word `cw[11:0]` (R92). -/
abbrev CmdWord := BitVec 12

end Sys2Proof
end

