-- ==== Sys2Proof/Config.lean ====
section
/-! DEFINITION. What one implementation or one environment fixes and the spec leaves open: every constant here is
opaque, so that nothing can be proved about its value. The command-byte literals are NOT here (R9: they are
literals of the machine, `Machine/Operands.lean`). -/

namespace Sys2Proof

/-- The two bus lines (R50): there is no third. -/
inductive Line where
  | clk
  | dio
deriving DecidableEq, Repr

/-- The outcome of one line write, chosen by the environment and never by the engine (R53). -/
inductive WriteOutcome where
  | ok
  | fail
  | stall
deriving DecidableEq, Repr, Inhabited

/-- The 16 members of the segment encoder's closed set (R111). -/
inductive Glyph where
  | digit (d : Fin 10)
  | letterA
  | letterB
  | letterC
  | letterD
  | letterE
  | space
deriving DecidableEq, Repr

/-- The outcome of the write with this number, for a write the environment's script in `State` does not settle:
R53 puts no law on it. A FREE VALUE (log entry 1). -/
opaque Config.writeOutcome : Nat → WriteOutcome

/-- The default bit delay `T_BIT_NS` that `INIT` writes to `T_BIT`, in nanoseconds: the spec's open parameter,
"default 1000", approximate in the source (R8, R24). A FREE VALUE (log entry 3). -/
opaque Config.tBitNs : Nat

/-- The pin each line is bound to, "fixed at construction" (R35 d). No meaning reads it (log entry 4). -/
opaque Config.pin : Line → Nat

/-- `SR` after an abort, which the spec leaves unspecified (R194). A FREE VALUE (log entry 2). -/
opaque Config.abandonedSr : Nat → Byte

/-- `BITCNT` after an abort (R194). A FREE VALUE (log entry 2). -/
opaque Config.abandonedBitcnt : Nat → Nibble

/-- `SEG` (and with it `N`) when no `SETSEG` runs any more (R26, R194). A FREE VALUE (log entry 2). -/
opaque Config.abandonedSeg : Nat → List Byte

/-- `IDX` when no `SETSEG` runs any more (R26, R194). A FREE VALUE (log entry 2). -/
opaque Config.abandonedIdx : Nat → Nat

/-- The segment pattern of each member of the closed set: "a parameter", below 0x80, so 7 bits (R113, R35 f).
A FREE VALUE (log entry 5). -/
opaque Config.pattern : Glyph → BitVec 7

end Sys2Proof
end

