-- ==== Sys2Proof/Syntax.lean ====
section
/-! DEFINITION. The instructions: one constructor per row of `spec/opcode_table.json`. The first nine are the words of
the command port (R93, R94, R95); the last four are the bytes the command sequencer puts on the wire (R87 to R90). -/

namespace Sys2Proof

inductive Instr where
  /-- `new(clk, dio)` (R161). -/
  | init
  /-- Start condition (R131). -/
  | start
  /-- Stop condition (R132). -/
  | stop
  /-- Transfer of one byte (R134). -/
  | wrbyte (b : Byte)
  /-- One bit delay (R133). -/
  | delay
  /-- Brightness write (R170). The operand is the whole `arg` byte, so that an out-of-range operand can be written
  down and refused at execution too (R197: it can occur at the symbolic level). -/
  | setbrt (v : Byte)
  /-- Head of the three-frame command sequence; `n` data words follow (R94, R164). -/
  | setseg (n : Byte)
  /-- One data word of a `SETSEG` (R94). -/
  | segdata (s : Byte)
  /-- A word of the reserved operation codes 0x8 to 0xF (R95 a). -/
  | reserved (op : Nibble) (arg : Byte)
  /-- Wire byte COMM1 (R87). -/
  | comm1
  /-- Wire byte COMM2 with digit address 0 (R88). -/
  | comm2
  /-- Wire byte COMM3 carrying the brightness `v` (R89). -/
  | comm3 (v : Nibble)
  /-- Wire segment byte: bit 7 the colon flag, bits 6 to 0 the segments (R90). -/
  | segbyte (colon : BitVec 1) (segments : BitVec 7)
deriving DecidableEq, Repr

end Sys2Proof
end

