-- ==== Sys2Proof/Machine/State.lean ====
section
/-! DEFINITION. The state of the engine as plain data: the registers of R20 to R33, the sequencer position, the
ghost state, the port's partly received `SETSEG` (R94), and the plain-data forms of what the caller and the
environment supply (R35). -/

namespace Sys2Proof.Machine

/-- The level a line is driven to: 0, 1 or `X` (R10, R31). -/
inductive Level where
  | low
  | high
  | unknown
deriving DecidableEq, Repr

/-- The direction of a line as far as the engine has set it (R32). -/
inductive Dir where
  | unknown
  | out
deriving DecidableEq, Repr

/-- `TXN`, the transaction state of `SETSEG` (R28, R165). -/
inductive Txn where
  | idle
  | comm1Frame
  | comm2Frame
  | comm3Frame
deriving DecidableEq, Repr

/-- `FRAME`, the framing state (ghost, R30). -/
inductive Framing where
  | idle
  | opened
  | undef
deriving DecidableEq, Repr

/-- The events of the observation trace (R12). -/
inductive Event where
  /-- `CFG(L)`: a direction write that succeeded. -/
  | cfg (l : Line)
  /-- `W(L,v)`: a value write that succeeded. -/
  | w (l : Line) (v : Bool)
  /-- `D`: a bit delay that elapsed. -/
  | d
  /-- `FAIL(CFG,L)`. -/
  | failCfg (l : Line)
  /-- `FAIL(W,L,v)`. -/
  | failW (l : Line) (v : Bool)
deriving DecidableEq, Repr

/-- The kind of a failed write (R192). -/
inductive Kind where
  | cfg
  | w
deriving DecidableEq, Repr

/-- The cause record of a `HardwareIOError` (R192). -/
structure Cause where
  kind : Kind
  line : Line
  value : Bool
deriving DecidableEq, Repr

/-- The reasons of a refusal (R197). -/
inductive Reason where
  | notReady
  | illegalCmd
  | badOperand
deriving DecidableEq, Repr

/-- What an operation returns to the caller: `STATUS` (R29, R97). -/
inductive OpResult where
  | ok
  | hwerr (c : Cause)
  | refused (r : Reason)
deriving DecidableEq, Repr

/-- The operations that can occupy a sequencer position (R27); `SETBRT` never does. -/
inductive OpName where
  | init
  | start
  | stop
  | wrbyte
  | delay
  | setseg
deriving DecidableEq, Repr

/-- The primitive in which the position stands. R27 counts `phase` "within the bit cell, trailer, start, stop or
init sequence" without a component that says which; this is that component (log entry 9). -/
inductive Part where
  | init
  | start
  | byte
  | stop
  | delay
deriving DecidableEq, Repr

/-- A position of the sequencer (R27). `txn` is `idle` and `byte` is `none` where R27 says "absent". -/
structure Pos where
  op : OpName
  txn : Txn
  byte : Option Nat
  part : Part
  k : Nat
  phase : Nat
deriving DecidableEq, Repr

/-- The event a position produces: a direction write, a value write, the value write of `SR[0]` to DIO, or a bit
delay (R51, R52, R133, R134). -/
inductive Act where
  | config (l : Line)
  | write (l : Line) (v : Bool)
  | sendBit
  | delay
deriving DecidableEq, Repr

/-- The register transfers the pseudocode of R161, R134, R164 lists between events. -/
inductive Transfer where
  /-- `READY <- 0`. -/
  | clearReady
  /-- `BRT <- 15; T_BIT <- default; READY <- 1; FRAME <- IDLE`. -/
  | initialise
  /-- `SR <- b; BITCNT <- 0`. -/
  | loadByte (b : Byte)
  /-- The same with `b = SEG[IDX]`. -/
  | loadSegment
  /-- The same with `b = 0x80 + BRT`. -/
  | loadBrightness
  /-- `SR <- SR >> 1; BITCNT <- BITCNT + 1`. -/
  | shiftOut
  /-- `TXN <- t`. -/
  | setTxn (t : Txn)
  /-- `IDX <- 0`. -/
  | clearIdx
  /-- `IDX <- IDX + 1`. -/
  | nextIdx
  /-- The effect of a completed `START` on `FRAME` (R140). -/
  | startDone
  /-- The effect of a completed `WRBYTE` on `FRAME` (R140). -/
  | byteDone
  /-- The effect of a completed `STOP` on `FRAME` (R140). -/
  | stopDone
  /-- `SEG`, `N` and `IDX` "exist only while a `SETSEG` runs" (R26). -/
  | releaseList
  /-- `return OK`. -/
  | returnOk
deriving DecidableEq, Repr

/-- One step of the sequencer: a position, the transfers before its event, the event, the transfers after it. Which step
carries the transfers that the pseudocode lists between two events is DESIGN CHOICE (log entry 9). -/
structure Micro where
  pos : Pos
  before : List Transfer
  act : Act
  after : List Transfer
deriving DecidableEq, Repr

/-- `SEQ` (R27): at rest, or the steps still to be performed, the current one first ("a model may replace `SEQ` by
the list of events still to be produced"); after a stalled write the engine stands at that write for ever (R198). -/
inductive Seq where
  | rest
  | running (todo : List Micro)
  | stalled (todo : List Micro)
deriving DecidableEq, Repr

/-- A `SETSEG N` whose data words have not all been received (R94): how many it needs and those received. -/
structure Partial where
  need : Nat
  got : List Byte
deriving DecidableEq, Repr

structure State where
  /-- `SR`, the shift register (R21). -/
  sr : Byte
  /-- `BITCNT`, the bit counter (R22). -/
  bitcnt : Nibble
  /-- `BRT`, the brightness register (R23). -/
  brt : Nibble
  /-- `T_BIT`, the bit-delay duration in nanoseconds (R24). -/
  tBit : Nat
  /-- `READY` (R25). -/
  ready : Bool
  /-- `SEG[0..N-1]`; `N` is its length (R26). -/
  seg : List Byte
  /-- `IDX` (R26). -/
  idx : Nat
  /-- `SEQ` (R27). -/
  seq : Seq
  /-- `TXN` (R28). -/
  txn : Txn
  /-- `FRAME` (ghost, R30). -/
  frame : Framing
  /-- `lvl[CLK]` (R31). -/
  lvlClk : Level
  /-- `lvl[DIO]` (R31). -/
  lvlDio : Level
  /-- `dir[CLK]` (R32). -/
  dirClk : Dir
  /-- `dir[DIO]` (R32). -/
  dirDio : Dir
  /-- `TRACE` (ghost, R33). -/
  trace : List Event
  /-- The `SETSEG` being received at the port (R94). -/
  pending : Option Partial
  /-- The command words the caller has issued and the engine has not taken yet, first issued first (R35 a, R250). -/
  port : List CmdWord
  /-- The results returned to the caller so far, first returned first: an output, which no operation reads (R29,
  R250). -/
  results : List OpResult
  /-- The environment's outcomes for the writes numbered 0, 1, … as far as they are settled (R35 b, R53). -/
  script : List WriteOutcome
  /-- How many line writes have been issued: the number of the next one. The MODEL's own counter. -/
  writes : Nat
deriving DecidableEq, Repr

/-- Why a step stops. -/
inductive Fault where
  /-- The engine is stuck at a write that never returned: "no enabled step" (R198). Raised by `step` and by every
  meaning in a stalled state. Safe: the hardware does nothing there. -/
  | stalled
  /-- An operation is issued while another runs, which the caller is assumed never to do (R250). Raised by a
  meaning in a state in the middle of an operation, never by `step`. Safe: it gives no meaning. -/
  | busy
deriving DecidableEq, Repr

/-- Why an instruction has no meaning. -/
inductive Refusal where
  /-- The instruction is not modelled. Raised by no arm of `exec` (every instruction has its meaning). Safe. -/
  | notModelled (mnemonic : String)
deriving DecidableEq, Repr

/-- Power-on (R36, R230). `SR`, `BITCNT`, `BRT`, `T_BIT`, `SEG`, `IDX` are "unspecified" there; the values named
here are DESIGN CHOICE (log entry 6). Nothing has been issued, returned or settled yet. -/
def State.reset : State where
  sr := 0
  bitcnt := 0
  brt := 0
  tBit := 0
  ready := false
  seg := []
  idx := 0
  seq := .rest
  txn := .idle
  frame := .undef
  lvlClk := .unknown
  lvlDio := .unknown
  dirClk := .unknown
  dirDio := .unknown
  trace := []
  pending := none
  port := []
  results := []
  script := []
  writes := 0

end Sys2Proof.Machine
end

