-- ==== Sys2Proof/Machine/Flags.lean ====
section
/-! DEFINITION. The engine has no condition flags (R29). Its status is the framing state `FRAME` (R30, R140) and the
result each operation returns, with its binary form (R97, R192, R197). -/

namespace Sys2Proof.Machine

/-- `FRAME` after a `START` that completed (R30, R140). -/
def Framing.afterStart : Framing → Framing
  | .idle => .opened
  | .opened => .undef
  | .undef => .undef

/-- `FRAME` after a `WRBYTE` that completed (R30, R140). -/
def Framing.afterByte : Framing → Framing
  | .idle => .undef
  | .opened => .opened
  | .undef => .undef

/-- `FRAME` after a `STOP` that completed, from any value (R30, R140). -/
def Framing.afterStop : Framing → Framing
  | .idle => .idle
  | .opened => .idle
  | .undef => .idle

/-- `rw[2:0]` of a cause: kind, line, value (R192). -/
def Cause.code (c : Cause) : BitVec 3 :=
  (match c.kind with
    | .cfg => 0#1
    | .w => 1#1) ++
  (match c.line with
    | .clk => 0#1
    | .dio => 1#1) ++
  BitVec.ofBool c.value

/-- `rw[1:0]` of a refusal (R197). -/
def Reason.code : Reason → BitVec 2
  | .notReady => 0
  | .illegalCmd => 1
  | .badOperand => 2

/-- The result word `rw[7:0]`: class in bits 7:6 (R192, R197). -/
def OpResult.word : OpResult → Byte
  | .ok => 0
  | .hwerr c => 0b01#2 ++ 0#3 ++ c.code
  | .refused r => 0b10#2 ++ 0#4 ++ r.code

end Sys2Proof.Machine
end

