-- ==== Sys2Proof/Machine/Operands.lean ====
section
/-! DEFINITION. The operand forms: the three command bytes as literals of the machine (R9, R87 to R89), the segment
byte (R90), the level a bit drives (R10), and the range of a brightness operand (R95 c, R170). -/

namespace Sys2Proof.Machine

/-- The level of a written value (R10). -/
def Level.ofBit (v : Bool) : Level := if v then .high else .low

/-- COMM1 (R87). -/
def comm1Byte : Byte := 0x40

/-- The digit address added to COMM2: fixed at 0 (R8 `ADDR`, R88). -/
def digitAddress : Byte := 0

/-- COMM2 with its address (R88, R166). -/
def comm2Byte : Byte := 0xC0 + digitAddress

/-- COMM3 with the brightness (R89, R167). -/
def comm3Byte (v : Nibble) : Byte := 0x80 + v.setWidth 8

/-- A segment byte: bit 7 the colon flag, bits 6:0 the segments (R90). -/
def segmentByte (colon : BitVec 1) (segments : BitVec 7) : Byte := colon ++ segments

/-- The brightness a `SETBRT` operand gives, if its upper four bits are zero (R95 c, R170). -/
def brightnessOf (v : Byte) : Option Nibble := if v.toNat < 16 then some (v.setWidth 4) else none

end Sys2Proof.Machine
end

