-- ==== Sys2Proof/Machine/Ops.lean ====
section
/-! DEFINITION. The shared operations: access to the two lines, the environment's outcome of a write, `LineConfig`,
`LineWrite` and `BitDelay` (R51, R52, R133), the register transfers, the abort (R193) and the refusal (R197), and
the running of a fixed sequence of steps, whole (`run`) or one event at a time (`tick`, R13). -/

namespace Sys2Proof.Machine

/-! ## The lines -/

def State.lvl (s : State) : Line → Level
  | .clk => s.lvlClk
  | .dio => s.lvlDio

def State.setLvl (s : State) (l : Line) (v : Level) : State :=
  match l with
  | .clk => { s with lvlClk := v }
  | .dio => { s with lvlDio := v }

def State.dir (s : State) : Line → Dir
  | .clk => s.dirClk
  | .dio => s.dirDio

def State.setDir (s : State) (l : Line) (d : Dir) : State :=
  match l with
  | .clk => { s with dirClk := d }
  | .dio => { s with dirDio := d }

/-- `TRACE <- TRACE ++ [e]` (R11). -/
def State.record (s : State) (e : Event) : State := { s with trace := s.trace ++ [e] }

/-- The outcome is returned to the caller (R97); it is an output, kept in the order returned. -/
def State.answer (s : State) (r : OpResult) : State := { s with results := s.results ++ [r] }

/-- `N`, the length of the list (R26). -/
def State.n (s : State) : Nat := s.seg.length

/-- The position of the next event (R27), absent at rest. -/
def State.position (s : State) : Option Pos :=
  match s.seq with
  | .rest => none
  | .running todo => todo.head?.map Micro.pos
  | .stalled todo => todo.head?.map Micro.pos

/-! ## The environment -/

/-- The outcome of the write with number `i`: what the environment's script says, else a free value (R53). -/
def State.outcomeAt (s : State) (i : Nat) : WriteOutcome :=
  match s.script[i]? with
  | some o => o
  | none => Config.writeOutcome i

/-- A write is issued: the next one has the next number. -/
def State.countWrite (s : State) : State := { s with writes := s.writes + 1 }

/-! ## The steps -/

/-- How one event ends: it happened, its write failed, or its write never returns (R53). -/
inductive Effect where
  | done (s : State)
  | failed (c : Cause) (s : State)
  | stuck (s : State)
deriving DecidableEq, Repr

/-- `LineConfig(L)` (R51). -/
def lineConfig (l : Line) (s : State) : Effect :=
  match s.outcomeAt s.writes with
  | .ok => .done (((s.countWrite.setDir l .out).setLvl l .high).record (.cfg l))
  | .fail =>
    .failed ⟨.cfg, l, true⟩ (((s.countWrite.setDir l .unknown).setLvl l .unknown).record (.failCfg l))
  | .stall => .stuck (s.countWrite.setLvl l .unknown)

/-- `LineWrite(L, v)` (R52): it does not look at the level or the direction the line has (R56). -/
def lineWrite (l : Line) (v : Bool) (s : State) : Effect :=
  match s.outcomeAt s.writes with
  | .ok => .done ((s.countWrite.setLvl l (.ofBit v)).record (.w l v))
  | .fail => .failed ⟨.w, l, v⟩ ((s.countWrite.setLvl l .unknown).record (.failW l v))
  | .stall => .stuck (s.countWrite.setLvl l .unknown)

/-- `BitDelay()` (R133): the wait of at least `T_BIT` is the event; the model keeps no clock. -/
def bitDelay (s : State) : Effect := .done (s.record .d)

/-- The event of a position; a data bit is the low bit of `SR` (R134). -/
def event : Act → State → Effect
  | .config l, s => lineConfig l s
  | .write l v, s => lineWrite l v s
  | .sendBit, s => lineWrite .dio (s.sr.getLsbD 0) s
  | .delay, s => bitDelay s

/-- `SR <- b; BITCNT <- 0` (R134). -/
def State.load (s : State) (b : Byte) : State := { s with sr := b, bitcnt := 0 }

/-- `SR <- SR >> 1; BITCNT <- BITCNT + 1`, the shift logical (R10, R134). -/
def State.shiftOut (s : State) : State := { s with sr := s.sr >>> 1, bitcnt := s.bitcnt + 1 }

/-- `SEG[IDX]` (R164). The default is never used: the loop reads it only while `IDX < N`. -/
def State.segment (s : State) : Byte := s.seg.getD s.idx 0

/-- `SEG`, `N` and `IDX` hold no value the spec gives when no `SETSEG` runs (R26, R37): free values. -/
def State.releaseList (s : State) : State :=
  { s with seg := Config.abandonedSeg s.writes, idx := Config.abandonedIdx s.writes }

/-- Every scratch register is unspecified after an abort (R194): free values. -/
def State.abandonScratch (s : State) : State :=
  { s.releaseList with sr := Config.abandonedSr s.writes, bitcnt := Config.abandonedBitcnt s.writes }

/-- The registers a completed `INIT` sets after its two writes (R161). -/
def State.initialise (s : State) : State :=
  { s with brt := 15, tBit := Config.tBitNs, ready := true, frame := .idle }

def transfer : Transfer → State → State
  | .clearReady, s => { s with ready := false }
  | .initialise, s => s.initialise
  | .loadByte b, s => s.load b
  | .loadSegment, s => s.load s.segment
  | .loadBrightness, s => s.load (comm3Byte s.brt)
  | .shiftOut, s => s.shiftOut
  | .setTxn t, s => { s with txn := t }
  | .clearIdx, s => { s with idx := 0 }
  | .nextIdx, s => { s with idx := s.idx + 1 }
  | .startDone, s => { s with frame := s.frame.afterStart }
  | .byteDone, s => { s with frame := s.frame.afterByte }
  | .stopDone, s => { s with frame := s.frame.afterStop }
  | .releaseList, s => s.releaseList
  | .returnOk, s => s.answer .ok

/-- Transfers in the order listed. -/
def transfers : List Transfer → State → State
  | [], s => s
  | t :: ts, s => transfers ts (transfer t s)

/-- One step of the sequencer; the transfers after the event are performed only if it happened. -/
def perform (m : Micro) (s : State) : Effect :=
  match event m.act (transfers m.before s) with
  | .done s' => .done (transfers m.after s')
  | .failed c s' => .failed c s'
  | .stuck s' => .stuck s'

/-! ## Abort and refusal -/

/-- `raise HardwareIOError(kind, line, value)` (R193), the engine's only exception entry: it saves nothing and
transfers control nowhere. `BRT`, `T_BIT`, `READY` and the other line are left as they are (R194). There is no
return from it (R201): the engine is at rest and takes the next operation. -/
def abort (c : Cause) (s : State) : State :=
  { s.abandonScratch.answer (.hwerr c) with txn := .idle, frame := .undef, seq := .rest }

/-- `refuse <Reason>` (R197): the reason is returned and nothing else changes. -/
def refuse (r : Reason) (s : State) : State := s.answer (.refused r)

/-! ## Running a sequence -/

/-- The rest of a sequence run to its end, to an abort, or to a stall (R27, R193, R198). -/
def run : List Micro → State → State
  | [], s => { s with seq := .rest }
  | m :: ms, s =>
    match perform m s with
    | .done s' => run ms s'
    | .failed c s' => abort c s'
    | .stuck s' => { s' with seq := .stalled (m :: ms) }

/-- The sequencer is set to these steps; with none left it is at rest (R27). -/
def launch (todo : List Micro) (s : State) : State :=
  match todo with
  | [] => { s with seq := .rest }
  | m :: ms => { s with seq := .running (m :: ms) }

/-- One event (R13, R27): at rest or stalled nothing happens. -/
def tick (s : State) : State :=
  match s.seq with
  | .rest => s
  | .stalled _ => s
  | .running [] => { s with seq := .rest }
  | .running (m :: ms) =>
    match perform m s with
    | .done s' => launch ms s'
    | .failed c s' => abort c s'
    | .stuck s' => { s' with seq := .stalled (m :: ms) }

/-- Several events, one after the other. -/
def ticks : Nat → State → State
  | 0, s => s
  | k + 1, s => ticks k (tick s)

/-- The running sequence, if one runs, brought to its end, to an abort, or to a stall. -/
def complete (s : State) : State :=
  match s.seq with
  | .rest => s
  | .running todo => run todo s
  | .stalled _ => s

/-! ## Accepting an operation

What an operation does when it is taken is an `issue`: a refused operation, and one without an event, is answered; any
other sets the sequencer to its first event. `exec` brings an issued operation to its end; `eventStep` performs one
event of it. -/

/-- An operation is accepted only at rest, and performed whole (R2, R249, R250). -/
def accept (issued : State → State) (s : State) : Host.Outcome State Fault Refusal :=
  match s.seq with
  | .rest => .next (complete (issued s))
  | .running _ => .fault .busy
  | .stalled _ => .fault .stalled

/-- A word other than `SEGDATA` ends the reception of a `SETSEG`: that is refused, its data words are discarded, and
the word is then taken in its own right (R94). -/
def dropPartial (s : State) : State :=
  match s.pending with
  | none => s
  | some _ => refuse .badOperand { s with pending := none }

/-- An operation other than a data word is taken: a `SETSEG` half received is refused first (R94). -/
def taken (body : State → State) (s : State) : State := body (dropPartial s)

/-- Every operation but `INIT` is refused while `READY = 0` (R25, R197). -/
def whenReady (body : State → State) (s : State) : State :=
  if s.ready then body s else refuse .notReady s

end Sys2Proof.Machine
end

