-- ==== Sys2Proof/Machine/Bus.lean ====
section
/-! DEFINITION. The family BusProtocol: the step sequences of `START`, `STOP`, `BitDelay` and `WRBYTE` (R131 to R134),
each unconditional (R130), and the four operations, as issued and whole. -/

namespace Sys2Proof.Machine

/-- Where a primitive stands: the operation, the frame of `SETSEG` and the byte in it (R27). -/
structure Place where
  op : OpName
  txn : Txn
  byte : Option Nat
deriving DecidableEq, Repr

/-- An operation of its own, in no frame of `SETSEG`. -/
def Place.alone (op : OpName) : Place := ⟨op, .idle, none⟩

/-- A step of a primitive at a place. -/
def Place.step (p : Place) (part : Part) (k phase : Nat) (before : List Transfer) (act : Act)
    (after : List Transfer) : Micro :=
  ⟨⟨p.op, p.txn, p.byte, part, k, phase⟩, before, act, after⟩

/-- `START` (R131): one write, one delay. CLK is not written. -/
def startSteps (p : Place) (before after : List Transfer) : List Micro :=
  [p.step .start 0 0 before (.write .dio false) [],
   p.step .start 0 1 [] .delay (.startDone :: after)]

/-- `STOP` (R132): three writes, three delays. -/
def stopSteps (p : Place) (after : List Transfer) : List Micro :=
  [p.step .stop 0 0 [] (.write .dio false) [],
   p.step .stop 0 1 [] .delay [],
   p.step .stop 0 2 [] (.write .clk true) [],
   p.step .stop 0 3 [] .delay [],
   p.step .stop 0 4 [] (.write .dio true) [],
   p.step .stop 0 5 [] .delay (.stopDone :: after)]

/-- One bit cell of `WRBYTE` (R84, R134). -/
def bitCell (p : Place) (before : List Transfer) (k : Nat) : List Micro :=
  [p.step .byte k 0 before (.write .clk false) [],
   p.step .byte k 1 [] .delay [],
   p.step .byte k 2 [] .sendBit [],
   p.step .byte k 3 [] .delay [],
   p.step .byte k 4 [] (.write .clk true) [],
   p.step .byte k 5 [] .delay [.shiftOut]]

/-- The trailer (R85, R135): DIO is neither written nor read. -/
def trailer (p : Place) (after : List Transfer) : List Micro :=
  [p.step .byte 8 0 [] (.write .clk false) [],
   p.step .byte 8 1 [] .delay [],
   p.step .byte 8 2 [] (.write .clk true) [],
   p.step .byte 8 3 [] .delay [],
   p.step .byte 8 4 [] (.write .clk false) [],
   p.step .byte 8 5 [] .delay (.byteDone :: after)]

/-- `WRBYTE` (R134): the byte is loaded, eight bit cells, the trailer. The loop `while BITCNT < 8` is written out,
for its course depends on no data (R27). DESIGN CHOICE (log entry 9): the load `SR <- b; BITCNT <- 0` is performed with the
byte's first event and each shift with the last event of its cell, so at cell 0, phase 0 `BITCNT` is not yet loaded. -/
def byteSteps (p : Place) (load : Transfer) (after : List Transfer) : List Micro :=
  bitCell p [load] 0 ++
    (bitCell p [] 1 ++ (bitCell p [] 2 ++ (bitCell p [] 3 ++ (bitCell p [] 4 ++
      (bitCell p [] 5 ++ (bitCell p [] 6 ++ (bitCell p [] 7 ++ trailer p after)))))))

/-- `DELAY` (R133): one bit delay. -/
def delaySteps (p : Place) (after : List Transfer) : List Micro :=
  [p.step .delay 0 0 [] .delay after]

def issueStart (s : State) : State := taken (whenReady (launch (startSteps (.alone .start) [] [.returnOk]))) s

/-- `START` (R131). -/
def execStart (s : State) : Host.Outcome State Fault Refusal := accept issueStart s

def issueStop (s : State) : State := taken (whenReady (launch (stopSteps (.alone .stop) [.returnOk]))) s

/-- `STOP` (R132). -/
def execStop (s : State) : Host.Outcome State Fault Refusal := accept issueStop s

def issueWrbyte (b : Byte) (s : State) : State :=
  taken (whenReady (launch (byteSteps (.alone .wrbyte) (.loadByte b) [.returnOk]))) s

/-- `WRBYTE b` (R134). -/
def execWrbyte (b : Byte) (s : State) : Host.Outcome State Fault Refusal := accept (issueWrbyte b) s

def issueDelay (s : State) : State := taken (whenReady (launch (delaySteps (.alone .delay) [.returnOk]))) s

/-- `DELAY` (R133). -/
def execDelay (s : State) : Host.Outcome State Fault Refusal := accept issueDelay s

end Sys2Proof.Machine
end

