-- ==== Sys2Proof/WellFormed.lean ====
section
/-! DEFINITION. Which instructions have an encoding: the operand of `SETBRT` is 0 to 15 (R95 c, R170) and a reserved
word has an operation code 0x8 to 0xF (R95 a). Every other operand takes every value of its width (R93, R96). -/

namespace Sys2Proof

def Instr.wellFormed : Instr → Bool
  | .init => true
  | .start => true
  | .stop => true
  | .wrbyte _ => true
  | .delay => true
  | .setbrt v => v.toNat < 16
  | .setseg _ => true
  | .segdata _ => true
  | .reserved op _ => 8 ≤ op.toNat
  | .comm1 => true
  | .comm2 => true
  | .comm3 _ => true
  | .segbyte _ _ => true

end Sys2Proof
end

