-- ==== Sys2Proof/Decode.lean ====
section
/-! DEFINITION. Decoding and encoding. The command port's words are 12 bits, `op` in 11:8 and `arg` in 7:0 (R92,
R93); the wire's bytes are read at the place they have in a frame of `SETSEG` (R91). Both are total and reject by name. -/

namespace Sys2Proof

/-- The place of a wire byte in the frames of `SETSEG` (R91): the only byte of frame 1, the first byte of frame 2,
the only byte of frame 3, or a later byte of frame 2. -/
inductive WireSlot where
  | comm1
  | comm2
  | comm3
  | segment
deriving DecidableEq, Repr

/-- What is decoded: a word at the command port, or a byte at a place of a frame. -/
inductive Code where
  | command (w : CmdWord)
  | wire (slot : WireSlot) (b : Byte)
deriving DecidableEq, Repr

/-- Why a code is no instruction. -/
inductive DecodeError where
  /-- Operand bits that must be zero are not (R95 c). -/
  | badOperand
  /-- A byte `SETSEG` never emits as the command byte of that frame (R61, R96). -/
  | notCommandByte
deriving DecidableEq, Repr

/-- `op`, bits 11:8 of a command word (R92). -/
def opField (w : CmdWord) : Nibble := w.extractLsb' 8 4

/-- `arg`, bits 7:0 of a command word (R92). -/
def argField (w : CmdWord) : Byte := w.extractLsb' 0 8

/-- An operation whose `arg` must be 0x00 (R95 c). -/
def noOperand (w : CmdWord) (i : Instr) : Except DecodeError Instr :=
  if argField w = 0 then .ok i else .error .badOperand

/-- The decoder of the command port (R93, R95). -/
def decodeCommand (w : CmdWord) : Except DecodeError Instr :=
  match (opField w).toNat with
  | 0 => noOperand w .init
  | 1 => noOperand w .start
  | 2 => noOperand w .stop
  | 3 => .ok (.wrbyte (argField w))
  | 4 => noOperand w .delay
  | 5 => if (argField w).toNat < 16 then .ok (.setbrt (argField w)) else .error .badOperand
  | 6 => .ok (.setseg (argField w))
  | 7 => .ok (.segdata (argField w))
  | _ => .ok (.reserved (opField w) (argField w))

/-- The reading of a wire byte at its place (R87 to R91). -/
def decodeWire (slot : WireSlot) (b : Byte) : Except DecodeError Instr :=
  match slot with
  | .comm1 => if b = 0x40#8 then .ok .comm1 else .error .notCommandByte
  | .comm2 => if b = 0xC0#8 then .ok .comm2 else .error .notCommandByte
  | .comm3 =>
    if b.extractLsb' 4 4 = 0x8#4 then .ok (.comm3 (b.extractLsb' 0 4)) else .error .notCommandByte
  | .segment => .ok (.segbyte (b.extractLsb' 7 1) (b.extractLsb' 0 7))

def decode : Code → Except DecodeError Instr
  | .command w => decodeCommand w
  | .wire slot b => decodeWire slot b

/-- The command word with these two fields (R92). -/
def commandWord (op : Nibble) (arg : Byte) : CmdWord := op ++ arg

/-- The code of an instruction (R93, and R87 to R90 for the wire bytes). -/
def encode : Instr → Code
  | .init => .command (commandWord 0x0 0)
  | .start => .command (commandWord 0x1 0)
  | .stop => .command (commandWord 0x2 0)
  | .wrbyte b => .command (commandWord 0x3 b)
  | .delay => .command (commandWord 0x4 0)
  | .setbrt v => .command (commandWord 0x5 v)
  | .setseg n => .command (commandWord 0x6 n)
  | .segdata s => .command (commandWord 0x7 s)
  | .reserved op arg => .command (commandWord op arg)
  | .comm1 => .wire .comm1 0x40#8
  | .comm2 => .wire .comm2 0xC0#8
  | .comm3 v => .wire .comm3 (0x8#4 ++ v)
  | .segbyte colon segments => .wire .segment (colon ++ segments)

/-- The row of the opcode table a bare wire byte is counted under, its place not being given: the most particular
row that matches, for the segment byte's mask is empty and matches every byte (log entry 12). -/
def slotOfByte (b : Byte) : WireSlot :=
  if b = 0x40#8 then .comm1
  else if b = 0xC0#8 then .comm2
  else if b.extractLsb' 4 4 = 0x8#4 then .comm3
  else .segment

/-- The code whose bits are `w`, as the opcode table numbers them: rows of one byte are wire bytes, the others
command words of 12 bits. A number that does not fit its width is no code. -/
def tableCode (nbits w : Nat) : Option Code :=
  if nbits ≤ 8 then
    if w < 2 ^ 8 then some (.wire (slotOfByte (BitVec.ofNat 8 w)) (BitVec.ofNat 8 w)) else none
  else if w < 2 ^ 12 then some (.command (BitVec.ofNat 12 w)) else none

def decodeTableWord (nbits w : Nat) : Option Instr :=
  match tableCode nbits w with
  | none => none
  | some c =>
    match decode c with
    | .ok i => some i
    | .error _ => none

/-- The words that carry `SETSEG list` at the port: the head, then one data word per byte (R94, R98). The list has
at most 255 bytes there (R8 `MAX_SEGS`). -/
def setsegWords (segs : List Byte) : List CmdWord :=
  commandWord 0x6 (BitVec.ofNat 8 segs.length) :: segs.map (commandWord 0x7)

end Sys2Proof
end

