-- ==== Sys2Proof/Machine/Wire.lean ====
section
/-! DEFINITION. The wire bytes of `SETSEG` (R87 to R91): each is the transfer of one byte, with the events of `WRBYTE`,
at its place in a frame. They are what the command sequencer emits; no word of the command port is one of them, so
they return no result of their own (an abort inside one returns its `HWERR`, R193). See log entry 11. -/

namespace Sys2Proof.Machine

/-- The place of a wire byte in `SETSEG` (R27, R91): byte 0 is the command byte, byte 1 the first segment byte. -/
def wirePlace (slot : WireSlot) : Place :=
  match slot with
  | .comm1 => ⟨.setseg, .comm1Frame, some 0⟩
  | .comm2 => ⟨.setseg, .comm2Frame, some 0⟩
  | .comm3 => ⟨.setseg, .comm3Frame, some 0⟩
  | .segment => ⟨.setseg, .comm2Frame, some 1⟩

/-- The transfer of one wire byte. -/
def wireSteps (slot : WireSlot) (b : Byte) : List Micro := byteSteps (wirePlace slot) (.loadByte b) []

/-- The sequencer is set to the first step of this wire byte. -/
def issueWire (slot : WireSlot) (b : Byte) (s : State) : State := launch (wireSteps slot b) s

/-- A wire byte is sent when the sequencer stands at the first step of just that byte, or at rest. -/
def sendWire (slot : WireSlot) (b : Byte) (s : State) : Host.Outcome State Fault Refusal :=
  match s.seq with
  | .rest => .next (complete (issueWire slot b s))
  | .running todo => if todo = wireSteps slot b then .next (complete s) else .fault .busy
  | .stalled _ => .fault .stalled

/-- COMM1 (R87). -/
def execComm1 (s : State) : Host.Outcome State Fault Refusal := sendWire .comm1 comm1Byte s

/-- COMM2 (R88). -/
def execComm2 (s : State) : Host.Outcome State Fault Refusal := sendWire .comm2 comm2Byte s

/-- COMM3 with the brightness `v` (R89). -/
def execComm3 (v : Nibble) (s : State) : Host.Outcome State Fault Refusal := sendWire .comm3 (comm3Byte v) s

/-- A segment byte, sent unchanged (R90). -/
def execSegbyte (colon : BitVec 1) (segments : BitVec 7) (s : State) : Host.Outcome State Fault Refusal :=
  sendWire .segment (segmentByte colon segments) s

end Sys2Proof.Machine
end

