-- ==== Sys2Proof/Machine/Display.lean ====
section
/-! DEFINITION. The family DisplayController: `INIT` (R161), the three-frame command sequence `SETSEG` with its data
words (R94, R164), and `SETBRT` (R170). -/

namespace Sys2Proof.Machine

/-- `INIT` (R161): CLK first, DIO second, no bit delay. -/
def initSteps : List Micro :=
  [(Place.alone .init).step .init 0 0 [.clearReady] (.config .clk) [],
   (Place.alone .init).step .init 0 1 [] (.config .dio) [.initialise, .returnOk]]

/-- Issued whatever `READY` is (R163). -/
def issueInit (s : State) : State := taken (launch initSteps) s

/-- `INIT` (R161). -/
def execInit (s : State) : Host.Outcome State Fault Refusal := accept issueInit s

/-- Frame 1 of `SETSEG` (R164). -/
def comm1FrameSteps : List Micro :=
  startSteps ⟨.setseg, .comm1Frame, none⟩ [.setTxn .comm1Frame] [] ++
    (byteSteps (wirePlace .comm1) (.loadByte comm1Byte) [] ++
      stopSteps ⟨.setseg, .comm1Frame, none⟩ [.setTxn .idle])

/-- The loop `while IDX < N` of frame 2 from index `i` on, with `n` bytes left, written out (R164). -/
def segmentSteps (i : Nat) : Nat → List Micro
  | 0 => []
  | n + 1 =>
    byteSteps ⟨.setseg, .comm2Frame, some (1 + i)⟩ .loadSegment [.nextIdx] ++ segmentSteps (i + 1) n

/-- Frame 2 of `SETSEG` with `n` segment bytes (R164, R166). -/
def comm2FrameSteps (n : Nat) : List Micro :=
  startSteps ⟨.setseg, .comm2Frame, none⟩ [.setTxn .comm2Frame] [] ++
    (byteSteps (wirePlace .comm2) (.loadByte comm2Byte) [.clearIdx] ++
      (segmentSteps 0 n ++
        stopSteps ⟨.setseg, .comm2Frame, none⟩ [.setTxn .idle]))

/-- Frame 3 of `SETSEG`, the brightness read when it is reached (R164, R167). -/
def comm3FrameSteps : List Micro :=
  startSteps ⟨.setseg, .comm3Frame, none⟩ [.setTxn .comm3Frame] [] ++
    (byteSteps (wirePlace .comm3) .loadBrightness [] ++
      stopSteps ⟨.setseg, .comm3Frame, none⟩ [.setTxn .idle, .releaseList, .returnOk])

/-- `SETSEG` with `n` segment bytes (R164). -/
def setsegSteps (n : Nat) : List Micro :=
  comm1FrameSteps ++ (comm2FrameSteps n ++ comm3FrameSteps)

/-- `SETSEG list` is issued: the list is captured whole, its length is not checked (R26, R66, R94, R169). -/
def issueSegments (segs : List Byte) (s : State) : State :=
  whenReady (fun s => launch (setsegSteps segs.length) { s with seg := segs }) s

/-- `SETSEG list` at the symbolic level, brought to its end (R164). -/
def setSegments (segs : List Byte) (s : State) : State := complete (issueSegments segs s)

/-- The data words are all there and the `SETSEG` starts, or more are awaited (R94). -/
def receive (need : Nat) (got : List Byte) (s : State) : State :=
  if need ≤ got.length then issueSegments got { s with pending := none }
  else { s with pending := some ⟨need, got⟩ }

/-- The operation starts when its `N` data words have been received, so at once for `N = 0`. Whether the engine is ready
is looked at then (R94, R197). -/
def issueSetseg (n : Byte) (s : State) : State := taken (receive n.toNat []) s

/-- `SETSEG N` (R94, R164). -/
def execSetseg (n : Byte) (s : State) : Host.Outcome State Fault Refusal := accept (issueSetseg n) s

/-- The next data word of the `SETSEG` being received; outside one it is illegal (R94, R95 b). -/
def issueSegdata (b : Byte) (s : State) : State :=
  match s.pending with
  | none => refuse .illegalCmd s
  | some p => receive p.need (p.got ++ [b]) s

/-- `SEGDATA s` (R94). -/
def execSegdata (b : Byte) (s : State) : Host.Outcome State Fault Refusal := accept (issueSegdata b) s

/-- The brightness is written on a ready engine (R170). -/
def writeBrightness (b : Nibble) (s : State) : State := whenReady (fun s => { s with brt := b }.answer .ok) s

/-- An operand above 15 is refused, and before `READY` is looked at (R170, R197); no event (R27). -/
def issueSetbrt (v : Byte) (s : State) : State :=
  match brightnessOf v with
  | none => taken (refuse .badOperand) s
  | some b => taken (writeBrightness b) s

/-- `SETBRT v` (R170). -/
def execSetbrt (v : Byte) (s : State) : Host.Outcome State Fault Refusal := accept (issueSetbrt v) s

end Sys2Proof.Machine
end

