-- ==== Sys2Proof/Machine/Port.lean ====
section
/-! DEFINITION. The command port: the next word issued by the caller (R92, R250), the reserved words (R95 a) and the
words the decoder rejects (R95 c). A refused word is answered and changes nothing else (R197). -/

namespace Sys2Proof.Machine

/-- The next word the caller has issued, if there is one. -/
def fetch (s : State) : Option (CmdWord × State) :=
  match s.port with
  | [] => none
  | w :: ws => some (w, { s with port := ws })

def issueReserved (s : State) : State := taken (refuse .illegalCmd) s

/-- A word of the reserved operation codes (R95 a). -/
def execReserved (_op : Nibble) (_arg : Byte) (s : State) : Host.Outcome State Fault Refusal := accept issueReserved s

def issueRejected (s : State) : State := taken (refuse .badOperand) s

/-- A word that decodes to no operation, since operand bits that must be zero are not (R95 c). -/
def rejectWord (s : State) : Host.Outcome State Fault Refusal := accept issueRejected s

end Sys2Proof.Machine
end

