-- ==== Sys2Proof/Machine/Dispatch.lean ====
section
/-! DEFINITION. The dispatch: one arm per constructor of `Instr`, each one direct call of its meaning. -/

namespace Sys2Proof.Machine

def exec (i : Instr) (s : State) : Host.Outcome State Fault Refusal :=
  match i with
  | .init => Sys2Proof.Machine.execInit s
  | .start => Sys2Proof.Machine.execStart s
  | .stop => Sys2Proof.Machine.execStop s
  | .wrbyte b => Sys2Proof.Machine.execWrbyte b s
  | .delay => Sys2Proof.Machine.execDelay s
  | .setbrt v => Sys2Proof.Machine.execSetbrt v s
  | .setseg n => Sys2Proof.Machine.execSetseg n s
  | .segdata b => Sys2Proof.Machine.execSegdata b s
  | .reserved op arg => Sys2Proof.Machine.execReserved op arg s
  | .comm1 => Sys2Proof.Machine.execComm1 s
  | .comm2 => Sys2Proof.Machine.execComm2 s
  | .comm3 v => Sys2Proof.Machine.execComm3 v s
  | .segbyte colon segments => Sys2Proof.Machine.execSegbyte colon segments s

end Sys2Proof.Machine
end

