-- ==== Sys2Proof/Machine/Step.lean ====
section
/-! DEFINITION. The step: at rest it takes the next word of the command port, decodes it and executes the operation to
its end; in the middle of an operation it runs the rest of it; stuck at a stalled write there is no step (R198). One
event at a time is `tick` (R13). -/

namespace Sys2Proof.Machine

def step (s : State) : Host.Outcome State Fault Refusal :=
  match s.seq with
  | .stalled _ => .fault .stalled
  | .running todo => .next (run todo s)
  | .rest =>
    match fetch s with
    | none => .next s
    | some (w, s') =>
      match decodeCommand w with
      | .ok i => exec i s'
      | .error _ => rejectWord s'

/-- The state `s` with this instruction next: a command word first at the port of an engine at rest, or the
sequencer at the first step of this wire byte in its frame (log entry 11). -/
def State.withFetchWord (s : State) (nbits w : Nat) : State :=
  if nbits ≤ 8 then
    { s with seq := .running (wireSteps (slotOfByte (BitVec.ofNat 8 w)) (BitVec.ofNat 8 w)) }
  else
    { s with seq := .rest, port := BitVec.ofNat 12 w :: s.port }

end Sys2Proof.Machine
end

