-- ==== Sys2Proof/Machine/Event.lean ====
section
/-! DEFINITION. The engine's own step: one event (R13). At rest it takes the next operation of the caller's list (R35 a)
and performs its first event; in the middle of an operation it performs the next one; stuck at a stalled write there is
no step (R198). An operation without an event (a refusal, `SETBRT`, a word of a `SETSEG` that awaits more, R27, R94,
R197) is answered in one step. -/

namespace Sys2Proof.Machine

/-- What an instruction does when it is taken at rest, before its first event. -/
def issue (i : Instr) (s : State) : State :=
  match i with
  | .init => issueInit s
  | .start => issueStart s
  | .stop => issueStop s
  | .wrbyte b => issueWrbyte b s
  | .delay => issueDelay s
  | .setbrt v => issueSetbrt v s
  | .setseg n => issueSetseg n s
  | .segdata b => issueSegdata b s
  | .reserved _ _ => issueReserved s
  | .comm1 => issueWire .comm1 comm1Byte s
  | .comm2 => issueWire .comm2 comm2Byte s
  | .comm3 v => issueWire .comm3 (comm3Byte v) s
  | .segbyte colon segments => issueWire .segment (segmentByte colon segments) s

/-- What the next word of the caller's list does when it is taken (R93, R95). -/
def issueWord (w : CmdWord) (s : State) : State :=
  match decodeCommand w with
  | .ok i => issue i s
  | .error _ => issueRejected s

/-- One event (R13). -/
def eventStep (s : State) : Host.Outcome State Fault Refusal :=
  match s.seq with
  | .stalled _ => .fault .stalled
  | .running _ => .next (tick s)
  | .rest =>
    match fetch s with
    | none => .next s
    | some (w, s') => .next (tick (issueWord w s'))

/-- The machine whose step is one event. `step` performs in one step what this machine performs in several (log
entry 7). -/
abbrev eventCore : Host.Core :=
  { State := State, Fault := Fault, Refusal := Refusal, step := eventStep, reset := State.reset }

end Sys2Proof.Machine
end

