-- ==== Sys2Proof/Machine/Software.lean ====
section
/-! DEFINITION. The surrounding software the spec records (R5, R110 to R118): the segment encoder, the two string
wrappers, and the pseudo-operations the software expands (R99). It drives no line itself. -/

namespace Sys2Proof.Machine

/-! ## The segment encoder -/

/-- The member of the closed set with this single-byte encoding (R111; the ASCII codes are general knowledge, log
entry 5). Every other byte has none: no case folding, and the colon is no member. -/
def glyphOfByte (b : Byte) : Option Glyph :=
  if h : 0x30 ≤ b.toNat ∧ b.toNat ≤ 0x39 then some (.digit ⟨b.toNat - 0x30, by omega⟩)
  else if b = 0x41#8 then some .letterA
  else if b = 0x62#8 then some .letterB
  else if b = 0x43#8 then some .letterC
  else if b = 0x64#8 then some .letterD
  else if b = 0x45#8 then some .letterE
  else if b = 0x20#8 then some .space
  else none

/-- The member of the closed set this character is (R111, R112). -/
def glyphOfChar (c : Char) : Option Glyph :=
  if c = '0' then some (.digit 0)
  else if c = '1' then some (.digit 1)
  else if c = '2' then some (.digit 2)
  else if c = '3' then some (.digit 3)
  else if c = '4' then some (.digit 4)
  else if c = '5' then some (.digit 5)
  else if c = '6' then some (.digit 6)
  else if c = '7' then some (.digit 7)
  else if c = '8' then some (.digit 8)
  else if c = '9' then some (.digit 9)
  else if c = 'A' then some .letterA
  else if c = 'b' then some .letterB
  else if c = 'C' then some .letterC
  else if c = 'd' then some .letterD
  else if c = 'E' then some .letterE
  else if c = ' ' then some .space
  else none

/-- A pattern as a byte with bit 7 clear (R111, R113). -/
def patternByte (pattern : Glyph → BitVec 7) (g : Glyph) : Byte := (pattern g).setWidth 8

/-- `byte_to_segments` (R111). -/
def byteToSegments (pattern : Glyph → BitVec 7) (b : Byte) : Option Byte :=
  (glyphOfByte b).map (patternByte pattern)

/-- `char_to_segments` (R112). -/
def charToSegments (pattern : Glyph → BitVec 7) (c : Char) : Option Byte :=
  (glyphOfChar c).map (patternByte pattern)

/-- The scan of R114 over characters or bytes: a colon right after a recognised element sets bit 7 of its segment
byte; the first unrecognised element ends the scan and is reported (R115, R116). -/
def encodeElements {α : Type} (segmentsOf : α → Option Byte) (isColon : α → Bool) :
    List α → Except α (List Byte)
  | [] => .ok []
  | [e] =>
    match segmentsOf e with
    | none => .error e
    | some p => .ok [p]
  | e :: c :: rest =>
    match segmentsOf e with
    | none => .error e
    | some p =>
      if isColon c then
        match encodeElements segmentsOf isColon rest with
        | .ok out => .ok ((p ||| 0x80#8) :: out)
        | .error x => .error x
      else
        match encodeElements segmentsOf isColon (c :: rest) with
        | .ok out => .ok (p :: out)
        | .error x => .error x

/-- `string_to_segments` (R114). -/
def stringToSegments (pattern : Glyph → BitVec 7) (text : List Char) : Except Char (List Byte) :=
  encodeElements (charToSegments pattern) (fun c => c == ':') text

/-- `bytestring_to_segments` (R114); the colon's byte is 0x3A in ASCII. -/
def bytestringToSegments (pattern : Glyph → BitVec 7) (bytes : List Byte) : Except Byte (List Byte) :=
  encodeElements (byteToSegments pattern) (fun b => b == 0x3A#8) bytes

/-- The pattern table of R119, from general knowledge and in no source: used for concrete vectors only. -/
def commonPattern : Glyph → BitVec 7
  | .digit d => [0x3F, 0x06, 0x5B, 0x4F, 0x66, 0x6D, 0x7D, 0x07, 0x7F, 0x6F].getD d.val 0
  | .letterA => 0x77
  | .letterB => 0x7C
  | .letterC => 0x39
  | .letterD => 0x5E
  | .letterE => 0x79
  | .space => 0x00

/-! ## The wrappers -/

/-- `set_segments(list)` called at the symbolic level (R94, R164). DESIGN CHOICE (log entry 21): a call while a `SETSEG`
is half received at the port ends that reception with `BAD_OPERAND`, as a word other than `SEGDATA` would; R94 speaks of
an arriving word only. -/
def callSetSegments (segs : List Byte) (s : State) : Host.Outcome State Fault Refusal :=
  accept (taken (issueSegments segs)) s

/-- `set_string(text)` (R117): an encoding failure is returned to the caller and the engine is not touched. -/
def setString (text : List Char) (s : State) : Except Char (Host.Outcome State Fault Refusal) :=
  match stringToSegments Config.pattern text with
  | .error c => .error c
  | .ok segs => .ok (callSetSegments segs s)

/-- `set_bytestring(bytes)` (R118). -/
def setBytestring (bytes : List Byte) (s : State) : Except Byte (Host.Outcome State Fault Refusal) :=
  match bytestringToSegments Config.pattern bytes with
  | .error b => .error b
  | .ok segs => .ok (callSetSegments segs s)

/-! ## Pseudo-operations and their execution -/

/-- `FRAME [b_0, …]` (R99). -/
def frameCommands (bytes : List Byte) : List Instr := .start :: bytes.map Instr.wrbyte ++ [.stop]

/-- `SETSEG list` as the words that carry it (R98, R99); at most 255 bytes fit. -/
def setsegCommands (segs : List Byte) : List Instr :=
  .setseg (BitVec.ofNat 8 segs.length) :: segs.map Instr.segdata

/-- `SETSTR "text"` (R99): no operation at all when the encoding fails. -/
def setstrCommands (text : List Char) : List Instr :=
  match stringToSegments Config.pattern text with
  | .error _ => []
  | .ok segs => setsegCommands segs

/-- `SETBYTES bytes` (R99). -/
def setbytesCommands (bytes : List Byte) : List Instr :=
  match bytestringToSegments Config.pattern bytes with
  | .error _ => []
  | .ok segs => setsegCommands segs

/-- Instructions issued one after the other, each when the one before has returned (R62, R250). -/
def execAll : List Instr → State → Host.Outcome State Fault Refusal
  | [], s => .next s
  | i :: is, s =>
    match exec i s with
    | .next s' => execAll is s'
    | .fault r => .fault r
    | .refused r => .refused r

/-- The mnemonic of an instruction (R98), and the wire bytes' names (R87 to R90). -/
def mnemonic : Instr → String
  | .init => "INIT"
  | .start => "START"
  | .stop => "STOP"
  | .wrbyte _ => "WRBYTE"
  | .delay => "DELAY"
  | .setbrt _ => "SETBRT"
  | .setseg _ => "SETSEG"
  | .segdata _ => "SEGDATA"
  | .reserved _ _ => "(reserved)"
  | .comm1 => "COMM1"
  | .comm2 => "COMM2"
  | .comm3 _ => "COMM3"
  | .segbyte _ _ => "SEGBYTE"

end Sys2Proof.Machine
end

