-- ==== Sys2Proof/Safety.lean ====
section
/-! DEFINITION. The terms claims are stated in: the launch premises (R251), the event sequences of R82 to R91, the
waveform of a trace and an observer of the bus, where a trace is cut by a write that does not succeed, and the
invariants of the machine. -/

namespace Sys2Proof

/-! ## Kinds of instructions -/

/-- The wire bytes, which the command sequencer emits (R87 to R90). -/
def Instr.isWire : Instr → Bool
  | .init => false
  | .start => false
  | .stop => false
  | .wrbyte _ => false
  | .delay => false
  | .setbrt _ => false
  | .setseg _ => false
  | .segdata _ => false
  | .reserved _ _ => false
  | .comm1 => true
  | .comm2 => true
  | .comm3 _ => true
  | .segbyte _ _ => true

/-- A data word of a `SETSEG` (R94). -/
def Instr.isData : Instr → Bool
  | .init => false
  | .start => false
  | .stop => false
  | .wrbyte _ => false
  | .delay => false
  | .setbrt _ => false
  | .setseg _ => false
  | .segdata _ => true
  | .reserved _ _ => false
  | .comm1 => false
  | .comm2 => false
  | .comm3 _ => false
  | .segbyte _ _ => false

/-- The bus primitives as operations of the caller (R130). -/
def Instr.isPrimitive : Instr → Bool
  | .init => false
  | .start => true
  | .stop => true
  | .wrbyte _ => true
  | .delay => true
  | .setbrt _ => false
  | .setseg _ => false
  | .segdata _ => false
  | .reserved _ _ => false
  | .comm1 => false
  | .comm2 => false
  | .comm3 _ => false
  | .segbyte _ _ => false

end Sys2Proof

namespace Sys2Proof.Machine

/-! ## Premises -/

/-- The next `n` writes succeed (R251: "all ok for a claim about the full trace"). -/
def State.WritesOk (s : State) (n : Nat) : Prop := ∀ i, i < n → s.outcomeAt (s.writes + i) = .ok

/-- The next `j` writes succeed and the one after them has the outcome `o`. -/
def State.FirstNotOk (s : State) (j : Nat) (o : WriteOutcome) : Prop :=
  s.WritesOk j ∧ s.outcomeAt (s.writes + j) = o

/-- The engine takes an operation now: at rest, initialised, no `SETSEG` half received. -/
structure State.Accepts (s : State) : Prop where
  rest : s.seq = .rest
  ready : s.ready = true
  whole : s.pending = none

/-! ## Event sequences of the wire (R81 to R91) -/

def startEvents : List Event := [.w .dio false, .d]

def stopEvents : List Event := [.w .dio false, .d, .w .clk true, .d, .w .dio true, .d]

def cellEvents (v : Bool) : List Event := [.w .clk false, .d, .w .dio v, .d, .w .clk true, .d]

def trailerEvents : List Event := [.w .clk false, .d, .w .clk true, .d, .w .clk false, .d]

/-- The eight bit cells, bit 0 first, and the trailer (R85). -/
def byteEvents (b : Byte) : List Event :=
  (List.range 8).flatMap (fun k => cellEvents (b.getLsbD k)) ++ trailerEvents

def frameEvents (bytes : List Byte) : List Event :=
  startEvents ++ bytes.flatMap byteEvents ++ stopEvents

/-- The three frames of `SETSEG` (R91). -/
def setsegFrames (segs : List Byte) (brt : Nibble) : List (List Byte) :=
  [[0x40], 0xC0 :: segs, [0x80 ||| brt.setWidth 8]]

def setsegEvents (segs : List Byte) (brt : Nibble) : List Event :=
  (setsegFrames segs brt).flatMap frameEvents

/-- The events of an instruction whose writes all succeed, in a state that takes it. -/
def fullEvents (i : Instr) (s : State) : List Event :=
  match i with
  | .init => [.cfg .clk, .cfg .dio]
  | .start => startEvents
  | .stop => stopEvents
  | .wrbyte b => byteEvents b
  | .delay => [.d]
  | .setbrt _ => []
  | .setseg n => if n = 0 then setsegEvents [] s.brt else []
  | .segdata b =>
    match s.pending with
    | none => []
    | some p => if p.need ≤ p.got.length + 1 then setsegEvents (p.got ++ [b]) s.brt else []
  | .reserved _ _ => []
  | .comm1 => byteEvents 0x40
  | .comm2 => byteEvents 0xC0
  | .comm3 v => byteEvents (0x80 ||| v.setWidth 8)
  | .segbyte colon segments => byteEvents (colon ++ segments)

/-! ## Counting -/

def Event.isWriteTo (l : Line) : Event → Bool
  | .cfg _ => false
  | .w l' _ => l' = l
  | .d => false
  | .failCfg _ => false
  | .failW _ _ => false

def Event.isDelay : Event → Bool
  | .cfg _ => false
  | .w _ _ => false
  | .d => true
  | .failCfg _ => false
  | .failW _ _ => false

/-- A line write, of direction or value, that succeeded. -/
def Event.isWrite : Event → Bool
  | .cfg _ => true
  | .w _ _ => true
  | .d => false
  | .failCfg _ => false
  | .failW _ _ => false

def Event.isFailure : Event → Bool
  | .cfg _ => false
  | .w _ _ => false
  | .d => false
  | .failCfg _ => true
  | .failW _ _ => true

/-- Writes of one line in a trace (R137). -/
def writesTo (l : Line) (tr : List Event) : Nat := tr.countP (Event.isWriteTo l)

def delays (tr : List Event) : Nat := tr.countP Event.isDelay

def writes (tr : List Event) : Nat := tr.countP Event.isWrite

def failures (tr : List Event) : Nat := tr.countP Event.isFailure

/-- The least time a trace can take, in nanoseconds: each delay lasts at least `T_BIT`, and nothing else has a lower
bound (R247, R248). -/
def State.timeFloor (s : State) (tr : List Event) : Nat := s.tBit * delays tr

/-- Writes and delays alternate, beginning with a write and ending with a delay (R137). -/
def alternates : List Event → Bool
  | [] => true
  | [_] => false
  | a :: b :: rest => a.isWrite && b.isDelay && alternates rest

/-! ## The waveform (R12, R138) -/

/-- The levels of the two lines. -/
structure Wave where
  clk : Level
  dio : Level
deriving DecidableEq, Repr

def State.wave (s : State) : Wave := ⟨s.lvlClk, s.lvlDio⟩

def Wave.lvl (w : Wave) : Line → Level
  | .clk => w.clk
  | .dio => w.dio

def Wave.set (w : Wave) (l : Line) (v : Level) : Wave :=
  match l with
  | .clk => { w with clk := v }
  | .dio => { w with dio := v }

/-- The levels after one event (R51, R52, R54). -/
def Wave.next (w : Wave) : Event → Wave
  | .cfg l => w.set l .high
  | .w l v => w.set l (if v then .high else .low)
  | .d => w
  | .failCfg l => w.set l .unknown
  | .failW l _ => w.set l .unknown

def Wave.after (w : Wave) (tr : List Event) : Wave := tr.foldl Wave.next w

/-- How often a line goes from one level to another in a trace: its level changes from `a` to `b`. -/
def edges (l : Line) (a b : Level) (w : Wave) : List Event → Nat
  | [] => 0
  | e :: tr => (if w.lvl l = a ∧ (w.next e).lvl l = b then 1 else 0) + edges l a b (w.next e) tr

def risingEdges (l : Line) (w : Wave) (tr : List Event) : Nat := edges l .low .high w tr

def fallingEdges (l : Line) (w : Wave) (tr : List Event) : Nat := edges l .high .low w tr

/-- The directions after a trace, from those before it (R32, R51). -/
def dirAfter (l : Line) (d : Dir) : List Event → Dir
  | [] => d
  | .cfg l' :: tr => dirAfter l (if l' = l then .out else d) tr
  | .failCfg l' :: tr => dirAfter l (if l' = l then .unknown else d) tr
  | .w _ _ :: tr => dirAfter l d tr
  | .d :: tr => dirAfter l d tr
  | .failW _ _ :: tr => dirAfter l d tr

/-! ## An observer of the bus

A listener that takes the wire format of R82 to R86 literally: DIO falling while CLK is high opens a frame, DIO rising
while CLK is high closes it, the first eight rising edges of CLK of a byte carry its bits, least significant first, and
the ninth ends it. It is no part of the engine and no model of the chip (R6): the source does not say which edge the
chip samples on. -/

structure Observer where
  wave : Wave
  /-- The bits of the byte in progress, first received first. -/
  bits : List Bool
  /-- The bytes of the open frame, if one is open. -/
  current : Option (List Byte)
  /-- The frames closed so far. -/
  closed : List (List Byte)
deriving DecidableEq, Repr

/-- The byte whose bits these are, bit 0 first (R59). -/
def byteOfBits : List Bool → Byte
  | [] => 0
  | v :: vs => (byteOfBits vs <<< 1) ||| (if v then 1 else 0)

/-- A rising edge of CLK inside a frame. DESIGN CHOICE (log entry 18): while DIO is at `X`, which R54 lets be either level,
this listener takes the bit 0. -/
def Observer.clock (o : Observer) (w : Wave) : Observer :=
  match o.current with
  | none => { o with wave := w }
  | some bytes =>
    if o.bits.length = 8 then
      { o with wave := w, bits := [], current := some (bytes ++ [byteOfBits o.bits]) }
    else { o with wave := w, bits := o.bits ++ [decide (w.dio = .high)] }

def Observer.next (o : Observer) (e : Event) : Observer :=
  let w := o.wave.next e
  if o.wave.clk = .low ∧ w.clk = .high then o.clock w
  else if w.clk = .high ∧ o.wave.dio = .high ∧ w.dio = .low then
    { o with wave := w, bits := [], current := some [] }
  else if w.clk = .high ∧ o.wave.dio = .low ∧ w.dio = .high then
    match o.current with
    | none => { o with wave := w, bits := [] }
    | some bytes => { wave := w, bits := [], current := none, closed := o.closed ++ [bytes] }
  else { o with wave := w }

def Observer.after (o : Observer) (tr : List Event) : Observer := tr.foldl Observer.next o

/-- An observer of the idle bus (R81) that has seen nothing. -/
def Observer.idle : Observer := ⟨⟨.high, .high⟩, [], none, []⟩

/-! ## Where a trace is cut -/

/-- The part of a trace before its write number `j` (counted from 0), and that write. -/
def splitAtWrite : Nat → List Event → Option (List Event × Event)
  | _, [] => none
  | j, e :: tr =>
    if e.isWrite then
      match j with
      | 0 => some ([], e)
      | j + 1 => (splitAtWrite j tr).map (fun p => (e :: p.1, p.2))
    else (splitAtWrite j tr).map (fun p => (e :: p.1, p.2))

/-- The cause record of this write, had it failed (R192). -/
def Event.cause : Event → Option Cause
  | .cfg l => some ⟨.cfg, l, true⟩
  | .w l v => some ⟨.w, l, v⟩
  | .d => none
  | .failCfg _ => none
  | .failW _ _ => none

/-- The event recorded for this write when it fails (R12). -/
def Event.failed : Event → Event
  | .cfg l => .failCfg l
  | .w l v => .failW l v
  | .d => .d
  | .failCfg l => .failCfg l
  | .failW l v => .failW l v

/-- The state after an operation issued in `s` was aborted: the events `done` happened and the write `e` failed (R193,
R194). `READY` and the port's reception are said where the operation is known. -/
structure AbortedAt (s t : State) (done : List Event) (e : Event) : Prop where
  /-- Every event before the failed write, the failure, and nothing after it. -/
  trace : t.trace = s.trace ++ done ++ [e.failed]
  /-- The cause is returned, once. -/
  result : ∃ c, e.cause = some c ∧ t.results = s.results ++ [.hwerr c]
  /-- The line of the failed write is at `X`, the other one as last written. -/
  levels : t.wave = s.wave.after (done ++ [e.failed])
  dirs : ∀ l, t.dir l = dirAfter l (s.dir l) (done ++ [e.failed])
  frame : t.frame = .undef
  txn : t.txn = .idle
  seq : t.seq = .rest
  brt : t.brt = s.brt
  tBit : t.tBit = s.tBit
  port : t.port = s.port
  script : t.script = s.script

/-- The state in which an operation issued in `s` is stuck: the events `done` happened and the write `e` never returns
(R198). -/
structure StuckAt (s t : State) (done : List Event) (e : Event) : Prop where
  /-- No event after those before the write. -/
  trace : t.trace = s.trace ++ done
  /-- No result. -/
  results : t.results = s.results
  /-- The line of the write is at `X`, as after a failure. -/
  levels : t.wave = s.wave.after (done ++ [e.failed])
  seq : ∃ todo, t.seq = .stalled todo
  brt : t.brt = s.brt
  tBit : t.tBit = s.tBit
  port : t.port = s.port
  script : t.script = s.script

/-- The instruction is aborted: it returns `HWERR` (R193). -/
def Aborts (i : Instr) (s : State) : Prop := ∃ t c, exec i s = .next t ∧ t.results = s.results ++ [.hwerr c]

/-! ## When an instruction does what it says -/

/-- The state takes the instruction and does what it says: at rest, `READY` for an operation that needs it (R95 d), and
no `SETSEG` half received for a word that would end its reception (R94). -/
structure Takes (i : Instr) (s : State) : Prop where
  rest : s.seq = .rest
  ready : i ≠ .init → i.isWire = false → s.ready = true
  whole : i.isData = false → i.isWire = false → s.pending = none

/-! ## Invariants -/

/-- What every step keeps. -/
structure Consistent (s : State) : Prop where
  /-- Operations are run to their end, so a step finds the engine at rest or stuck (R249). -/
  settled : ∀ todo, s.seq ≠ .running todo
  /-- `TXN` is IDLE whenever no `SETSEG` is running (R28). -/
  txnIdle : s.seq = .rest → s.txn = .idle
  /-- `FRAME = IDLE`: both lines are high (R30). -/
  idleHigh : s.seq = .rest → s.frame = .idle → s.lvlClk = .high ∧ s.lvlDio = .high
  /-- In an open frame either the clock is low, after a byte, or the data line is low under a high clock, after the
  `START` (R141). -/
  openFrame : s.seq = .rest → s.frame = .opened →
    s.lvlClk = .low ∨ (s.lvlClk = .high ∧ s.lvlDio = .low)
  /-- An initialised engine drives both lines (R32, R231). -/
  readyOut : s.ready = true → s.dirClk = .out ∧ s.dirDio = .out
  /-- `T_BIT` is fixed at construction (R24). -/
  readyDelay : s.ready = true → s.tBit = Config.tBitNs
  /-- A half received `SETSEG` still needs a data word (R94). -/
  partialShort : ∀ p, s.pending = some p → p.got.length < p.need ∧ p.need ≤ 255

/-- The levels and directions are those of the trace, from power-on, also in the middle of an operation (R31, R32). The
levels are not while a write is stuck: its line is at `X` with no event (R198). -/
structure FollowsTrace (s : State) : Prop where
  levels : (∀ todo, s.seq ≠ .stalled todo) → s.wave = (Wave.mk .unknown .unknown).after s.trace
  dirClk : s.dirClk = dirAfter .clk .unknown s.trace
  dirDio : s.dirDio = dirAfter .dio .unknown s.trace

/-- The results that a failed write returned (R190 b). -/
def OpResult.isAbort : OpResult → Bool
  | .ok => false
  | .hwerr _ => true
  | .refused _ => false

/-- The result words the spec lists (R192, R197). -/
def legalWords : List Byte := [0x00, 0x41, 0x43, 0x44, 0x45, 0x46, 0x47, 0x80, 0x81, 0x82]

/-- The abort record: as many FAIL events as `HWERR` results (R194), each result word one of the listed (R192). -/
structure RecordsAborts (s : State) : Prop where
  counted : failures s.trace = s.results.countP OpResult.isAbort
  legal : ∀ r, r ∈ s.results → r.word ∈ legalWords

/-- The end of a run (R249): the caller has issued nothing more, every operation issued has returned, a `SETSEG` whose data
words have not all arrived among them, and nothing runs. -/
structure State.Ended (s : State) : Prop where
  rest : s.seq = .rest
  issued : s.port = []
  returned : s.pending = none

end Sys2Proof.Machine
end

