-- ==== Sys2Proof/Certificates/Slice0/Obligations.lean ====
section
/-! DEFINITION. The statements about the model, for the provers. Each docstring names the rule it formalises; where a
statement rests on a choice of the model it says so. -/

open Sys2Proof Sys2Proof.Machine

/-! ## Power-on, the step, the encodings -/

/-- R230 and R36: the power-on values the spec gives. The other registers are "unspecified" there. -/
def Obligations.PowerOnState : Prop :=
  State.reset.ready = false ∧ State.reset.seq = .rest ∧ State.reset.txn = .idle ∧
  State.reset.frame = .undef ∧ State.reset.trace = [] ∧
  (∀ l, State.reset.lvl l = .unknown) ∧ (∀ l, State.reset.dir l = .unknown)

/-- R92, R93: at rest the step takes the next word of the port and executes the operation it decodes to. That a step with
no word issued leaves the state as it is, and that a step runs an operation, or the rest of one, to its end, is the
model's choice (log entry 7): the spec's step is one event (R13), which `eventStep` is, see `EachStepIsOneEvent`. -/
def Obligations.StepRunsDecodedInstruction : Prop :=
  (∀ s w ws i, s.seq = .rest → s.port = w :: ws → decode (.command w) = .ok i →
    step s = exec i { s with port := ws }) ∧
  (∀ s, s.seq = .rest → s.port = [] → step s = .next s) ∧
  (∀ s todo, s.seq = .running todo → step s = .next (run todo s))

/-- The same through the table's numbering: the step after `withFetchWord` is `exec` of the instruction the decoder
reads from the word, for command words and for wire bytes (the place of a bare wire byte is the model's choice, log
entry 12; how it is fetched is log entry 11). -/
def Obligations.StepRunsPlacedWord : Prop :=
  (∀ (s : State) w i, decodeTableWord 16 w = some i → step (s.withFetchWord 16 w) = exec i { s with seq := .rest }) ∧
  (∀ (s : State) w i, decodeTableWord 8 w = some i → step (s.withFetchWord 8 w) = exec i (s.withFetchWord 8 w))

/-- Words written out from R93's table and the vectors of `95_test_vectors.md`, and the wire bytes of R87 to R90. -/
def Obligations.SampleWordsDecode : Prop :=
  decode (.command 0b000000000000#12) = .ok .init ∧
  decode (.command 0b000100000000#12) = .ok .start ∧
  decode (.command 0b001000000000#12) = .ok .stop ∧
  decode (.command 0b001100000101#12) = .ok (.wrbyte 0x05) ∧
  decode (.command 0b010000000000#12) = .ok .delay ∧
  decode (.command 0b010100000111#12) = .ok (.setbrt 7) ∧
  decode (.command 0b011000000010#12) = .ok (.setseg 2) ∧
  decode (.command 0b011110101010#12) = .ok (.segdata 0xAA) ∧
  decode (.command 0b111100000000#12) = .ok (.reserved 0xF 0) ∧
  decode (.command 0b000000000001#12) = .error .badOperand ∧
  decode (.command 0b010100010000#12) = .error .badOperand ∧
  decode (.wire .comm1 0b01000000#8) = .ok .comm1 ∧
  decode (.wire .comm2 0b11000000#8) = .ok .comm2 ∧
  decode (.wire .comm3 0b10000111#8) = .ok (.comm3 7) ∧
  decode (.wire .segment 0b11011011#8) = .ok (.segbyte 1 0x5B)

/-- Decoding the code of a well-formed instruction gives it back, with every operand. -/
def Obligations.DecodeOfEncode : Prop :=
  ∀ i : Instr, i.wellFormed = true → decode (encode i) = .ok i

/-- A code that decodes is the code of the well-formed instruction it decodes to, and of no other well-formed one. -/
def Obligations.EncodeOfDecode : Prop :=
  ∀ (c : Code) (i : Instr), decode c = .ok i →
    encode i = c ∧ i.wellFormed = true ∧ ∀ j : Instr, j.wellFormed = true → encode j = c → j = i

/-- R93: "a word w selects the row when `w & mask = match`", row by row, with the operands it assembles. -/
def Obligations.CommandRowsSelect : Prop :=
  ∀ w : CmdWord,
    (w &&& 0xFFF#12 = 0x000#12 ↔ decode (.command w) = .ok .init) ∧
    (w &&& 0xFFF#12 = 0x100#12 ↔ decode (.command w) = .ok .start) ∧
    (w &&& 0xFFF#12 = 0x200#12 ↔ decode (.command w) = .ok .stop) ∧
    (w &&& 0xF00#12 = 0x300#12 ↔ decode (.command w) = .ok (.wrbyte (w.extractLsb' 0 8))) ∧
    (w &&& 0xFFF#12 = 0x400#12 ↔ decode (.command w) = .ok .delay) ∧
    (w &&& 0xFF0#12 = 0x500#12 ↔ decode (.command w) = .ok (.setbrt ((w.extractLsb' 0 4).setWidth 8))) ∧
    (w &&& 0xF00#12 = 0x600#12 ↔ decode (.command w) = .ok (.setseg (w.extractLsb' 0 8))) ∧
    (w &&& 0xF00#12 = 0x700#12 ↔ decode (.command w) = .ok (.segdata (w.extractLsb' 0 8))) ∧
    (w &&& 0x800#12 = 0x800#12 ↔
      decode (.command w) = .ok (.reserved (w.extractLsb' 8 4) (w.extractLsb' 0 8)))

/-! ## The command port -/

/-- R95: (a) reserved words, (b) an orphan `SEGDATA`, (c) bad operands, (d) operations while `READY = 0`, `SETSEG`
with its data words among them. Nothing changes but that the word is taken and the reason returned. -/
def Obligations.PortRefusals : Prop :=
  ∀ (s : State) (w : CmdWord) (ws : List CmdWord), s.seq = .rest → s.port = w :: ws →
    (s.pending = none →
      (8 ≤ (w.extractLsb' 8 4).toNat →
        step s = .next { s with port := ws, results := s.results ++ [.refused .illegalCmd] }) ∧
      (w.extractLsb' 8 4 = 0x7#4 →
        step s = .next { s with port := ws, results := s.results ++ [.refused .illegalCmd] }) ∧
      (w.extractLsb' 8 4 ∈ [0x0#4, 0x1#4, 0x2#4, 0x4#4] → w.extractLsb' 0 8 ≠ 0#8 →
        step s = .next { s with port := ws, results := s.results ++ [.refused .badOperand] }) ∧
      (w.extractLsb' 8 4 = 0x5#4 → w.extractLsb' 4 4 ≠ 0#4 →
        step s = .next { s with port := ws, results := s.results ++ [.refused .badOperand] }) ∧
      (s.ready = false →
        (w.extractLsb' 8 4 ∈ [0x1#4, 0x2#4, 0x4#4, 0x6#4] ∧ w.extractLsb' 0 8 = 0#8) ∨
          w.extractLsb' 8 4 = 0x3#4 ∨ (w.extractLsb' 8 4 = 0x5#4 ∧ w.extractLsb' 4 4 = 0#4) →
        step s = .next { s with port := ws, results := s.results ++ [.refused .notReady] })) ∧
    (∀ p, s.pending = some p → p.need = p.got.length + 1 → s.ready = false → w.extractLsb' 8 4 = 0x7#4 →
      step s = .next { s with port := ws, pending := none, results := s.results ++ [.refused .notReady] })

/-- R94: a word other than `SEGDATA` that arrives before the data words are all there makes the `SETSEG` refused with
`BAD_OPERAND`; the data words are discarded and the word is taken in its own right, also when it is refused itself. -/
def Obligations.BrokenSetsegIsRefused : Prop :=
  ∀ (s : State) (p : Partial), s.seq = .rest → s.pending = some p →
    (∀ i : Instr, i.isData = false → i.isWire = false →
      exec i s = exec i { s with pending := none, results := s.results ++ [.refused .badOperand] }) ∧
    (∀ w ws e, s.port = w :: ws → decode (.command w) = .error e →
      step s = .next { s with
        port := ws, pending := none, results := s.results ++ [.refused .badOperand, .refused .badOperand] })

/-- R94: `SETSEG N` and its `N` data words, taken word by word, are the operation `SETSEG` with that list. -/
def Obligations.SetsegWordsAreOneOperation : Prop :=
  ∀ (segs : List Byte) (s : State) (ws : List CmdWord), segs.length ≤ 255 → s.seq = .rest →
    s.pending = none → s.port = setsegWords segs ++ ws →
    Sys2Proof.core.run (1 + segs.length) s = .next (setSegments segs { s with port := ws })

/-- R93, R94: a `SETSEG N` with `N` not 0, and a data word that is not the last, only wait for more, with nothing driven
and no result returned; the last data word starts the operation with the list received. -/
def Obligations.SetsegCollectsItsData : Prop :=
  (∀ (n : Byte) (s : State), s.seq = .rest → s.pending = none → n ≠ 0 →
    exec (.setseg n) s = .next { s with pending := some ⟨n.toNat, []⟩ }) ∧
  (∀ (b : Byte) (p : Partial) (s : State), s.seq = .rest → s.pending = some p → p.got.length + 1 < p.need →
    exec (.segdata b) s = .next { s with pending := some ⟨p.need, p.got ++ [b]⟩ }) ∧
  (∀ (b : Byte) (p : Partial) (s : State), s.seq = .rest → s.pending = some p → p.need ≤ p.got.length + 1 →
    exec (.segdata b) s = .next (setSegments (p.got ++ [b]) { s with pending := none }))

/-- At rest every instruction completes with a next state, whatever the registers, the port and the environment; in
the middle of an operation none is accepted, and stuck at a stalled write none ever is (R2, R198, R250). -/
def Obligations.InstructionsAnswerAtRest : Prop :=
  ∀ (i : Instr) (s : State),
    (s.seq = .rest → ∃ t, exec i s = .next t) ∧
    (∀ todo, s.seq = .running todo → i.isWire = false → exec i s = .fault .busy) ∧
    (∀ todo, s.seq = .stalled todo → exec i s = .fault .stalled)

/-! ## What each operation does when its writes succeed -/

/-- R161, R163: `INIT`, whatever `READY`, `FRAME` and the levels are. -/
def Obligations.InitResult : Prop :=
  ∀ s : State, s.seq = .rest → s.pending = none → s.WritesOk 2 →
    exec .init s = .next { s with
      brt := 15, tBit := Config.tBitNs, ready := true, frame := .idle,
      lvlClk := .high, lvlDio := .high, dirClk := .out, dirDio := .out,
      trace := s.trace ++ [.cfg .clk, .cfg .dio], results := s.results ++ [.ok], writes := s.writes + 2 }

/-- R131: `START` writes DIO low and waits one delay; CLK is not written. -/
def Obligations.StartResult : Prop :=
  ∀ s : State, s.Accepts → s.WritesOk 1 →
    exec .start s = .next { s with
      lvlDio := .low, frame := (if s.frame = .idle then .opened else .undef),
      trace := s.trace ++ [.w .dio false, .d], results := s.results ++ [.ok], writes := s.writes + 1 }

/-- R132: `STOP` ends with both lines high from any levels, `X` included. -/
def Obligations.StopResult : Prop :=
  ∀ s : State, s.Accepts → s.WritesOk 3 →
    exec .stop s = .next { s with
      lvlClk := .high, lvlDio := .high, frame := .idle,
      trace := s.trace ++ [.w .dio false, .d, .w .clk true, .d, .w .dio true, .d],
      results := s.results ++ [.ok], writes := s.writes + 3 }

/-- R133: `DELAY` produces one delay event and changes nothing else; it cannot fail or stall. -/
def Obligations.DelayResult : Prop :=
  ∀ s : State, s.Accepts →
    exec .delay s = .next { s with trace := s.trace ++ [.d], results := s.results ++ [.ok] }

/-- R134: `WRBYTE b`, with `SR = 0` and `BITCNT = 8` at its end. -/
def Obligations.WrbyteResult : Prop :=
  ∀ (b : Byte) (s : State), s.Accepts → s.WritesOk 27 →
    exec (.wrbyte b) s = .next { s with
      sr := 0, bitcnt := 8, lvlClk := .low, lvlDio := (if b.getLsbD 7 then .high else .low),
      frame := (if s.frame = .opened then .opened else .undef),
      trace := s.trace ++ byteEvents b, results := s.results ++ [.ok], writes := s.writes + 27 }

/-- R170, R197: `SETBRT v` writes the brightness register and drives nothing; an operand above 15 is refused, ready or
not, and a legal one is refused while the engine is not ready. -/
def Obligations.SetbrtResult : Prop :=
  ∀ (v : Byte) (s : State), s.seq = .rest → s.pending = none →
    (s.ready = true → v.toNat ≤ 15 →
      exec (.setbrt v) s = .next { s with brt := v.setWidth 4, results := s.results ++ [.ok] }) ∧
    (15 < v.toNat → exec (.setbrt v) s = .next { s with results := s.results ++ [.refused .badOperand] }) ∧
    (s.ready = false → v.toNat ≤ 15 →
      exec (.setbrt v) s = .next { s with results := s.results ++ [.refused .notReady] })

/-- R164: `SETSEG` of any list, on a ready engine at rest, whatever `FRAME` and the levels are. `SEG`, `N` and `IDX`
end with no value the spec gives (log entry 2: free values). That `SR = 0` and `BITCNT = 8` stay when it has ended is the
model's choice (log entry 16, DEDUCED from the last `WRBYTE`; R36 calls both unspecified between operations). -/
def Obligations.SetsegResult : Prop :=
  ∀ (segs : List Byte) (s : State), s.Accepts → s.WritesOk (93 + 27 * segs.length) →
    setSegments segs s = { s with
      sr := 0, bitcnt := 8, seg := Config.abandonedSeg (s.writes + (93 + 27 * segs.length)),
      idx := Config.abandonedIdx (s.writes + (93 + 27 * segs.length)), txn := .idle, frame := .idle,
      lvlClk := .high, lvlDio := .high, trace := s.trace ++ setsegEvents segs s.brt,
      results := s.results ++ [.ok], writes := s.writes + (93 + 27 * segs.length) }

/-- R94, R164: the instruction at which the operation runs: `SETSEG 0`, or the last data word. -/
def Obligations.SetsegCompletes : Prop :=
  (∀ s : State, s.Accepts → s.WritesOk 93 →
    ∃ t, exec (.setseg 0) s = .next t ∧ t.trace = s.trace ++ setsegEvents [] s.brt ∧
      t.results = s.results ++ [.ok] ∧ t.wave = ⟨.high, .high⟩ ∧ t.frame = .idle ∧ t.txn = .idle ∧
      t.seq = .rest ∧ t.brt = s.brt ∧ t.pending = none) ∧
  (∀ (b : Byte) (p : Partial) (s : State), s.seq = .rest → s.ready = true → s.pending = some p →
    p.need = p.got.length + 1 → s.WritesOk (93 + 27 * p.need) →
    ∃ t, exec (.segdata b) s = .next t ∧ t.trace = s.trace ++ setsegEvents (p.got ++ [b]) s.brt ∧
      t.results = s.results ++ [.ok] ∧ t.wave = ⟨.high, .high⟩ ∧ t.frame = .idle ∧ t.txn = .idle ∧
      t.seq = .rest ∧ t.brt = s.brt ∧ t.pending = none)

/-- R95 (a): a reserved word is answered with `ILLEGAL_CMD` whatever its operand bits are and whether or not the
engine is ready; nothing else changes. -/
def Obligations.ReservedResult : Prop :=
  ∀ (op : Nibble) (arg : Byte) (s : State), s.seq = .rest → s.pending = none →
    exec (.reserved op arg) s = .next { s with results := s.results ++ [.refused .illegalCmd] }

/-- R87 to R91: a wire byte is the transfer of its byte with the events of `WRBYTE`, when the sequencer stands at it or
at rest (log entry 11: taken alone it returns no result of its own). -/
def Obligations.WireByteResult : Prop :=
  ∀ (i : Instr) (slot : WireSlot) (b : Byte) (s : State), encode i = .wire slot b →
    s.seq = .rest ∨ s.seq = .running (wireSteps slot b) → s.WritesOk 27 →
    exec i s = .next { s with
      sr := 0, bitcnt := 8, seq := .rest, lvlClk := .low, lvlDio := (if b.getLsbD 7 then .high else .low),
      frame := (if s.frame = .opened then .opened else .undef),
      trace := s.trace ++ byteEvents b, writes := s.writes + 27 }

/-- R87, R88, R89, R90: the byte each wire row sends. -/
def Obligations.WireByteValues : Prop :=
  encode .comm1 = .wire .comm1 0x40 ∧ encode .comm2 = .wire .comm2 (0xC0 + 0) ∧
  (∀ v : Nibble, encode (.comm3 v) = .wire .comm3 (0x80#8 + v.setWidth 8)) ∧
  (∀ colon segments, ∃ b : Byte, encode (.segbyte colon segments) = .wire .segment b ∧
    b.extractLsb' 7 1 = colon ∧ b.extractLsb' 0 7 = segments)

/-- R167: the third frame's byte is `0x80 + BRT`, which equals `0x80 | BRT` and lies in 0x80 to 0x8F: the addition never
carries; the byte `SETSEG` sends there is this one. -/
def Obligations.BrightnessByte : Prop :=
  ∀ v : Nibble, comm3Byte v = 0x80#8 ||| v.setWidth 8 ∧ (comm3Byte v).toNat = 0x80 + v.toNat ∧
    0x80 ≤ (comm3Byte v).toNat ∧ (comm3Byte v).toNat ≤ 0x8F ∧
    (∀ (segs : List Byte) (s : State), s.Accepts → s.brt = v → s.WritesOk (93 + 27 * segs.length) →
      frameEvents [comm3Byte v] <:+ (setSegments segs s).trace)

/-! ## Writes that do not succeed -/

/-- R193, R194, R199: at the first write that fails, in event order, the operation is aborted: every event before it has
happened, its failure is recorded, nothing after it happens, and its cause is the one returned. For every
instruction, in every state that takes it, at each of its writes. (That a wire byte taken alone is an operation that
returns the cause is log entry 11; that it leaves a `SETSEG` being received at the port alone is log entry 19.) -/
def Obligations.FirstFailingWriteAborts : Prop :=
  ∀ (i : Instr) (s : State) (j : Nat) (done : List Event) (e : Event), Takes i s →
    splitAtWrite j (fullEvents i s) = some (done, e) → s.FirstNotOk j .fail →
    ∃ t, exec i s = .next t ∧ AbortedAt s t done e ∧
      t.ready = (if i = .init then false else s.ready) ∧
      t.pending = (if i.isData then none else s.pending)

/-- R198: at the first write that stalls the engine is stuck for ever: no event, no result, no next step, and no later
operation is accepted. (The form of it, a stuck next state once and the fault `stalled` from then on, is the model's
choice, log entry 10; a wire byte taken alone is log entry 11.) -/
def Obligations.FirstStalledWriteBlocksForEver : Prop :=
  ∀ (i : Instr) (s : State) (j : Nat) (done : List Event) (e : Event), Takes i s →
    splitAtWrite j (fullEvents i s) = some (done, e) → s.FirstNotOk j .stall →
    ∃ t, exec i s = .next t ∧ StuckAt s t done e ∧ step t = .fault .stalled ∧ tick t = t ∧
      ∀ i', exec i' t = .fault .stalled

/-- R139, R162, R168, R191: the writes at which each operation can fail. With the first failure at write `j` (counted from
0) the operation returns `HWERR` exactly when it has a write with that number: one in `START`, three in `STOP`, 27 in
`WRBYTE`, two in `INIT`, `93 + 27 N` in `SETSEG`, none in `DELAY` and `SETBRT`. (The 27 of a wire byte taken alone: log
entry 11.) -/
def Obligations.PlacesOfFailure : Prop :=
  ∀ (s : State) (j : Nat), s.seq = .rest → s.FirstNotOk j .fail →
    (s.pending = none → (Aborts .init s ↔ j < 2)) ∧
    (s.Accepts →
      (Aborts .start s ↔ j < 1) ∧ (Aborts .stop s ↔ j < 3) ∧ (∀ b, Aborts (.wrbyte b) s ↔ j < 27) ∧
      ¬ Aborts .delay s ∧ (∀ v, ¬ Aborts (.setbrt v) s) ∧ (Aborts (.setseg 0) s ↔ j < 93) ∧
      (∀ segs, (∃ c, (setSegments segs s).results = s.results ++ [.hwerr c]) ↔ j < 93 + 27 * segs.length)) ∧
    (∀ b p, s.ready = true → s.pending = some p → p.need = p.got.length + 1 →
      (Aborts (.segdata b) s ↔ j < 93 + 27 * p.need)) ∧
    (∀ i : Instr, i.isWire = true → (Aborts i s ↔ j < 27))

/-- R162: `INIT` failing. If the CLK configuration fails DIO's is not attempted; if DIO's fails CLK stays configured and
high; `READY` stays 0, `BRT` and `T_BIT` are not written. -/
def Obligations.InitFails : Prop :=
  ∀ s : State, s.seq = .rest → s.pending = none →
    (s.outcomeAt s.writes = .fail →
      ∃ t, exec .init s = .next t ∧ t.trace = s.trace ++ [.failCfg .clk] ∧
        t.results = s.results ++ [.hwerr ⟨.cfg, .clk, true⟩] ∧ t.ready = false ∧ t.frame = .undef ∧
        t.brt = s.brt ∧ t.tBit = s.tBit ∧ t.lvlClk = .unknown ∧ t.dirClk = .unknown ∧
        t.lvlDio = s.lvlDio ∧ t.dirDio = s.dirDio ∧ t.seq = .rest) ∧
    (s.outcomeAt s.writes = .ok → s.outcomeAt (s.writes + 1) = .fail →
      ∃ t, exec .init s = .next t ∧ t.trace = s.trace ++ [.cfg .clk, .failCfg .dio] ∧
        t.results = s.results ++ [.hwerr ⟨.cfg, .dio, true⟩] ∧ t.ready = false ∧ t.frame = .undef ∧
        t.brt = s.brt ∧ t.tBit = s.tBit ∧ t.lvlClk = .high ∧ t.dirClk = .out ∧
        t.lvlDio = .unknown ∧ t.dirDio = .unknown ∧ t.seq = .rest)

/-- R210: after any abort, an `INIT` whose writes succeed, and on an engine that is still ready a `STOP`, brings both
lines to 1 and `FRAME` to IDLE, and the record of the failure stays in the trace. After an aborted `INIT` a `STOP` is
refused (R162). -/
def Obligations.RecoveryAfterAbort : Prop :=
  ∀ (i : Instr) (s t : State) (c : Cause), i.isWire = false → Takes i s → exec i s = .next t →
    t.results = s.results ++ [.hwerr c] →
    (i ≠ .init → t.WritesOk 3 → ∃ u, exec .stop t = .next u ∧ u.wave = ⟨.high, .high⟩ ∧ u.frame = .idle ∧
      failures u.trace = failures s.trace + 1) ∧
    (i = .init → exec .stop t = .next { t with results := t.results ++ [.refused .notReady] }) ∧
    (t.WritesOk 2 → ∃ u, exec .init t = .next u ∧ u.wave = ⟨.high, .high⟩ ∧ u.frame = .idle ∧
      failures u.trace = failures s.trace + 1)

/-- R192, R197: the result words. -/
def Obligations.ResultWords : Prop :=
  OpResult.word .ok = 0x00 ∧
  OpResult.word (.hwerr ⟨.cfg, .clk, true⟩) = 0x41 ∧ OpResult.word (.hwerr ⟨.cfg, .dio, true⟩) = 0x43 ∧
  OpResult.word (.hwerr ⟨.w, .clk, false⟩) = 0x44 ∧ OpResult.word (.hwerr ⟨.w, .clk, true⟩) = 0x45 ∧
  OpResult.word (.hwerr ⟨.w, .dio, false⟩) = 0x46 ∧ OpResult.word (.hwerr ⟨.w, .dio, true⟩) = 0x47 ∧
  OpResult.word (.refused .notReady) = 0x80 ∧ OpResult.word (.refused .illegalCmd) = 0x81 ∧
  OpResult.word (.refused .badOperand) = 0x82

/-! ## Frames -/

/-- What the bus primitives (R131 to R134) and the wire bytes leave unchanged, whatever the outcomes of their writes: the
control registers, the directions, the port; `SEG`, `IDX` and `TXN` unless the operation is aborted (R194: the scratch
registers are then unspecified); `SR` and `BITCNT` too for those that transfer no byte; `lvl[CLK]` for `START`, both
levels for `DELAY`. (That scratch registers keep their values between operations is log entry 16, DEDUCED; that they
and `TXN` keep them at a stall, R198, is log entry 10, DEDUCED; a wire byte taken alone is log entry 11.) -/
def Obligations.FrameOfPrimitivesAndWireBytes : Prop :=
  ∀ (i : Instr) (s t : State), (i.isPrimitive = true ∨ i.isWire = true) → Takes i s → exec i s = .next t →
    t.brt = s.brt ∧ t.tBit = s.tBit ∧ t.ready = s.ready ∧ t.dirClk = s.dirClk ∧ t.dirDio = s.dirDio ∧
    t.pending = s.pending ∧ t.port = s.port ∧ t.script = s.script ∧
    ((∀ c, t.results ≠ s.results ++ [.hwerr c]) →
      t.seg = s.seg ∧ t.idx = s.idx ∧ t.txn = s.txn ∧
      (i = .start ∨ i = .stop ∨ i = .delay → t.sr = s.sr ∧ t.bitcnt = s.bitcnt)) ∧
    (i = .start → t.lvlClk = s.lvlClk) ∧
    (i = .delay → t.lvlClk = s.lvlClk ∧ t.lvlDio = s.lvlDio)

/-- What `INIT` leaves unchanged whatever the outcomes of its two writes (R161, R162): `BRT` and `T_BIT` unless it
completes, `SEG`, `IDX`, `TXN`, `SR` and `BITCNT` unless it is aborted, the port always. (That the scratch registers keep
their values over a completed `INIT`, where R36 calls them unspecified, is log entry 16, DEDUCED; that they keep them at a
stall, R198, is log entry 10, DEDUCED.) -/
def Obligations.FrameOfInit : Prop :=
  ∀ (s t : State), s.seq = .rest → s.pending = none → exec .init s = .next t →
    t.pending = none ∧ t.port = s.port ∧ t.script = s.script ∧
    (t.results ≠ s.results ++ [.ok] → t.brt = s.brt ∧ t.tBit = s.tBit ∧ t.ready = false) ∧
    ((∀ c, t.results ≠ s.results ++ [.hwerr c]) →
      t.seg = s.seg ∧ t.idx = s.idx ∧ t.txn = s.txn ∧ t.sr = s.sr ∧ t.bitcnt = s.bitcnt)

/-- What a `SETSEG` that starts leaves unchanged whatever the outcomes of its writes (R164, R168): the control registers,
the directions, the port. -/
def Obligations.FrameOfSetseg : Prop :=
  ∀ (segs : List Byte) (s : State), s.Accepts →
    (setSegments segs s).brt = s.brt ∧ (setSegments segs s).tBit = s.tBit ∧
    (setSegments segs s).ready = true ∧ (setSegments segs s).dirClk = s.dirClk ∧
    (setSegments segs s).dirDio = s.dirDio ∧ (setSegments segs s).pending = none ∧
    (setSegments segs s).port = s.port ∧ (setSegments segs s).script = s.script ∧
    exec (.setseg 0) s = .next (setSegments [] s)

/-- R23, R24, R25, R32: over all instructions and all states, `BRT` is written by `INIT` and `SETBRT` alone, `T_BIT`,
`READY` and the directions by `INIT` alone; none touches the words still to be taken or the environment. -/
def Obligations.WritersOfTheControlRegisters : Prop :=
  ∀ (i : Instr) (s t : State), exec i s = .next t →
    t.port = s.port ∧ t.script = s.script ∧
    (i ≠ .init → t.tBit = s.tBit ∧ t.ready = s.ready ∧ t.dirClk = s.dirClk ∧ t.dirDio = s.dirDio) ∧
    (i ≠ .init → (∀ v, i ≠ .setbrt v) → t.brt = s.brt)

/-- R33, R62, R197: the trace and the results only grow, and what they grew by is final: no later step takes an event or
a result back. -/
def Obligations.TraceAndResultsOnlyGrow : Prop :=
  ∀ (s t : State), step s = .next t → s.trace <+: t.trace ∧ s.results <+: t.results

/-- R12, R193: in what one instruction adds to the trace a FAIL event stands nowhere but at the end. -/
def Obligations.FailureIsTheLastEvent : Prop :=
  ∀ (i : Instr) (s t : State) (evs : List Event) (e : Event), exec i s = .next t →
    t.trace = s.trace ++ evs → e ∈ evs.dropLast → e.isFailure = false

/-- R140: the effect of the primitives on `FRAME`, when they return `OK` and when they are aborted. -/
def Obligations.FrameTransitions : Prop :=
  ∀ (i : Instr) (s t : State), i.isPrimitive = true → Takes i s → exec i s = .next t →
    (t.results = s.results ++ [.ok] →
      (i = .start → t.frame = (if s.frame = .idle then .opened else .undef)) ∧
      (∀ b, i = .wrbyte b → t.frame = (if s.frame = .opened then .opened else .undef)) ∧
      (i = .stop → t.frame = .idle) ∧
      (i = .delay → t.frame = s.frame)) ∧
    (∀ c, t.results = s.results ++ [.hwerr c] → t.frame = .undef)

/-- R30, R37, R55, R130: what an instruction drives and returns depends on `READY`, `BRT`, the words of a half received
`SETSEG` and the environment's outcomes alone: not on the levels or directions of the lines, not on `FRAME`, not on the
trace, and not on what any scratch register was left at. -/
def Obligations.NothingElseIsRead : Prop :=
  ∀ (i : Instr) (s s' t t' : State), s.seq = .rest → s'.seq = .rest → s'.ready = s.ready → s'.brt = s.brt →
    s'.pending = s.pending → s'.script = s.script → s'.writes = s.writes →
    exec i s = .next t → exec i s' = .next t' →
    ∃ evs rs, t.trace = s.trace ++ evs ∧ t'.trace = s'.trace ++ evs ∧
      t.results = s.results ++ rs ∧ t'.results = s'.results ++ rs ∧ t'.writes = t.writes

/-! ## The levels and the waveform -/

/-- R59, R136: bit cell `k` of `WRBYTE b` carries `b[k]`, least significant bit first, whatever kind of right shift is
used; the example of the source. -/
def Obligations.BitCellsCarryTheByteLsbFirst : Prop :=
  (∀ (b : Byte) (s : State), s.Accepts → s.WritesOk 27 →
    ∃ t evs, exec (.wrbyte b) s = .next t ∧ t.trace = s.trace ++ evs ∧ writesTo .dio evs = 8 ∧
      ∀ k, k < 8 → evs[6 * k + 2]? = some (.w .dio (b.getLsbD k)) ∧
        (b >>> k).getLsbD 0 = b.getLsbD k ∧ (b.sshiftRight k).getLsbD 0 = b.getLsbD k) ∧
  (byteEvents 0b00000101).filter (Event.isWriteTo .dio) =
    [.w .dio true, .w .dio false, .w .dio true, .w .dio false, .w .dio false, .w .dio false, .w .dio false,
     .w .dio false]

/-- R137: the counts of each primitive and of a frame of `m` bytes when no write fails. -/
def Obligations.PrimitiveEventCounts : Prop :=
  ∀ (s : State), s.Accepts →
    (s.WritesOk 1 → ∃ t evs, exec .start s = .next t ∧ t.trace = s.trace ++ evs ∧ writesTo .clk evs = 0 ∧
      writesTo .dio evs = 1 ∧ delays evs = 1 ∧ evs.length = 2 ∧ alternates evs = true) ∧
    (s.WritesOk 3 → ∃ t evs, exec .stop s = .next t ∧ t.trace = s.trace ++ evs ∧ writesTo .clk evs = 1 ∧
      writesTo .dio evs = 2 ∧ delays evs = 3 ∧ evs.length = 6 ∧ alternates evs = true) ∧
    (∃ t evs, exec .delay s = .next t ∧ t.trace = s.trace ++ evs ∧ writesTo .clk evs = 0 ∧
      writesTo .dio evs = 0 ∧ delays evs = 1 ∧ evs.length = 1) ∧
    (∀ b, s.WritesOk 27 → ∃ t evs, exec (.wrbyte b) s = .next t ∧ t.trace = s.trace ++ evs ∧
      writesTo .clk evs = 19 ∧ writesTo .dio evs = 8 ∧ delays evs = 27 ∧ evs.length = 54 ∧
      alternates evs = true) ∧
    (∀ bytes : List Byte, s.WritesOk (4 + 27 * bytes.length) →
      ∃ t evs, execAll (frameCommands bytes) s = .next t ∧ t.trace = s.trace ++ evs ∧
        writesTo .clk evs = 1 + 19 * bytes.length ∧ writesTo .dio evs = 3 + 8 * bytes.length ∧
        delays evs = 4 + 27 * bytes.length ∧ evs.length = 8 + 54 * bytes.length ∧ alternates evs = true)

/-- R138: the waveform of `WRBYTE b`, entered with CLK at 1 or at 0: nine rising edges of CLK, ten or nine falling ones,
CLK at 0 in the end; DIO is written in bit cell `k` alone, while CLK is 0, from the level before it to `b[k]`. -/
def Obligations.WaveformOfWrbyte : Prop :=
  ∀ (b : Byte) (s : State), s.Accepts → s.WritesOk 27 →
    ∃ t evs, exec (.wrbyte b) s = .next t ∧ t.trace = s.trace ++ evs ∧
      (s.lvlClk = .high → risingEdges .clk s.wave evs = 9 ∧ fallingEdges .clk s.wave evs = 10) ∧
      (s.lvlClk = .low → risingEdges .clk s.wave evs = 9 ∧ fallingEdges .clk s.wave evs = 9) ∧
      t.lvlClk = .low ∧ writesTo .dio evs = 8 ∧
      ∀ k, k < 8 →
        evs[6 * k + 2]? = some (.w .dio (b.getLsbD k)) ∧
        (s.wave.after (evs.take (6 * k + 2))).clk = .low ∧
        (s.wave.after (evs.take (6 * k + 2))).dio =
          (if k = 0 then s.lvlDio else if b.getLsbD (k - 1) then .high else .low)

/-- R172: the counts of `SETSEG` with `N` segment bytes when no write fails, whatever the levels are; the frames and the
bytes as a listener counts them that begins at the idle bus (it is the model's own, see `Observer`, log entry 18). -/
def Obligations.SetsegEventCounts : Prop :=
  ∀ (segs : List Byte) (s : State), s.Accepts → s.WritesOk (93 + 27 * segs.length) →
    ∃ evs, (setSegments segs s).trace = s.trace ++ evs ∧
      (Observer.idle.after evs).closed.length = 3 ∧
      ((Observer.idle.after evs).closed.map List.length).sum = 3 + segs.length ∧
      writesTo .clk evs = 60 + 19 * segs.length ∧ writesTo .dio evs = 33 + 8 * segs.length ∧
      writes evs = 93 + 27 * segs.length ∧ delays evs = 93 + 27 * segs.length ∧
      evs.length = 186 + 54 * segs.length ∧ risingEdges .clk s.wave evs = 30 + 9 * segs.length

/-- R247: the lower bounds on duration, in delays of at least `T_BIT` each; the model keeps no clock. -/
def Obligations.DelayFloors : Prop :=
  ∀ (s : State), s.Accepts →
    (s.WritesOk 2 → ∃ t evs, exec .init s = .next t ∧ t.trace = s.trace ++ evs ∧ s.timeFloor evs = 0) ∧
    (∀ v : Byte, v.toNat < 16 →
      ∃ t evs, exec (.setbrt v) s = .next t ∧ t.trace = s.trace ++ evs ∧ s.timeFloor evs = 0) ∧
    (∃ t evs, exec .delay s = .next t ∧ t.trace = s.trace ++ evs ∧ s.timeFloor evs = s.tBit) ∧
    (s.WritesOk 1 → ∃ t evs, exec .start s = .next t ∧ t.trace = s.trace ++ evs ∧ s.timeFloor evs = s.tBit) ∧
    (s.WritesOk 3 → ∃ t evs, exec .stop s = .next t ∧ t.trace = s.trace ++ evs ∧ s.timeFloor evs = s.tBit * 3) ∧
    (∀ b, s.WritesOk 27 →
      ∃ t evs, exec (.wrbyte b) s = .next t ∧ t.trace = s.trace ++ evs ∧ s.timeFloor evs = s.tBit * 27) ∧
    (∀ segs, s.WritesOk (93 + 27 * segs.length) →
      ∃ evs, (setSegments segs s).trace = s.trace ++ evs ∧ s.timeFloor evs = s.tBit * (93 + 27 * segs.length))

/-! ## What a listener on the bus sees -/

/-- R60, R61, R91: a listener on the idle bus takes from a `SETSEG` three frames with the bytes 0x40; 0xC0 and every
segment byte in order; 0x80 + brightness. (The listener is the model's own, see `Observer`, log entry 18.) -/
def Obligations.ListenerSeesTheThreeFrames : Prop :=
  ∀ (segs : List Byte) (s : State), s.Accepts → s.wave = ⟨.high, .high⟩ →
    s.WritesOk (93 + 27 * segs.length) →
    ∃ evs, (setSegments segs s).trace = s.trace ++ evs ∧
      Observer.idle.after evs = ⟨⟨.high, .high⟩, [], none, [[0x40], 0xC0 :: segs, [0x80 + s.brt.setWidth 8]]⟩

/-- R86, R99, R141: a frame composed by hand from `START`, one or more `WRBYTE` and `STOP` is seen by a listener as that
frame, begun and ended at the idle bus. (The listener is the model's own, log entry 18.) -/
def Obligations.ListenerSeesAFrame : Prop :=
  ∀ (bytes : List Byte) (s : State), s.Accepts → s.wave = ⟨.high, .high⟩ → s.frame = .idle →
    s.WritesOk (4 + 27 * bytes.length) →
    ∃ t evs, execAll (frameCommands bytes) s = .next t ∧ t.trace = s.trace ++ evs ∧
      t.frame = .idle ∧ t.wave = ⟨.high, .high⟩ ∧
      t.results = s.results ++ List.replicate (2 + bytes.length) .ok ∧
      Observer.idle.after evs = ⟨⟨.high, .high⟩, [], none, [bytes]⟩

/-- R99: `SETSEG list` equals `FRAME [0x40]`, `FRAME [0xC0] ++ list`, `FRAME [0x80 + BRT]` in its events when no write
fails, and leaves the lines and the control registers (`BRT`, `T_BIT`, `READY`, the directions) alike; it returns one
result where the frames return one for each primitive. -/
def Obligations.SetsegEqualsItsFrames : Prop :=
  ∀ (segs : List Byte) (s : State), s.Accepts → s.WritesOk (93 + 27 * segs.length) →
    ∃ t, execAll (frameCommands [0x40] ++ frameCommands (0xC0 :: segs) ++
        frameCommands [0x80 + s.brt.setWidth 8]) s = .next t ∧
      t.trace = (setSegments segs s).trace ∧ t.wave = (setSegments segs s).wave ∧
      t.frame = (setSegments segs s).frame ∧ t.brt = (setSegments segs s).brt ∧
      t.tBit = (setSegments segs s).tBit ∧ t.ready = (setSegments segs s).ready ∧
      t.dirClk = (setSegments segs s).dirClk ∧ t.dirDio = (setSegments segs s).dirDio ∧
      t.writes = (setSegments segs s).writes ∧
      t.results = s.results ++ List.replicate (9 + segs.length) .ok ∧
      (setSegments segs s).results = s.results ++ [.ok]

/-! ## One event at a time -/

/-- R13, R27: a sequence performed one event at a time ends where its whole run ends, whatever the outcomes of its
writes, once there have been as many steps as it has events. So every `step` of the model (log entry 7: a whole
operation) is some number of steps of the machine that steps event by event, from every state: the word it takes, every
event, and where it stops. -/
def Obligations.EventsOneByOneGiveTheOperation : Prop :=
  (∀ (todo : List Micro) (s : State) (n : Nat), todo.length ≤ n → ticks n (launch todo s) = run todo s) ∧
  (∀ s : State, ∃ n, eventCore.run (n + 1) s = step s)

/-- R12, R13, R35, R57: one step of the running engine produces one event at most, and none only when its write stalls; it
issues one write at most. At rest the same step takes the next operation of the caller's list and performs its first
event, if it has one; it waits when the run has ended (R249; that waiting leaves the state as it is is log entry 7). -/
def Obligations.EachStepIsOneEvent : Prop :=
  (∀ (m : Micro) (ms : List Micro) (s : State), s.seq = .running (m :: ms) →
    eventStep s = .next (tick s) ∧
    ((∃ e, (tick s).trace = s.trace ++ [e]) ∨
      ((tick s).trace = s.trace ∧ (tick s).seq = .stalled (m :: ms))) ∧
    s.writes ≤ (tick s).writes ∧ (tick s).writes ≤ s.writes + 1) ∧
  (∀ (s : State) (w : CmdWord) (ws : List CmdWord) (i : Instr), s.seq = .rest → s.port = w :: ws →
    decode (.command w) = .ok i → eventStep s = .next (tick (issue i { s with port := ws }))) ∧
  (∀ s t : State, eventStep s = .next t → s.trace <+: t.trace ∧ t.trace.length ≤ s.trace.length + 1 ∧
    s.writes ≤ t.writes ∧ t.writes ≤ s.writes + 1) ∧
  (∀ s : State, s.Ended → eventStep s = .next s)

/-- R21, R22, R27: in the middle of a `WRBYTE b`, before its event number `j`, the position is bit cell `j / 6` (8 is the
trailer) and event `j % 6` in it; once the byte is loaded `BITCNT` is that cell and `SR` the byte shifted so often. (The
position's part component, and that the byte is loaded with its first event, are the model's own, log entry 9.) -/
def Obligations.PositionInAByte : Prop :=
  ∀ (b : Byte) (s : State) (j : Nat), s.WritesOk 27 → j < 54 →
    ∃ t, ticks j (launch (byteSteps (.alone .wrbyte) (.loadByte b) [.returnOk]) s) = t ∧
      t.position = some ⟨.wrbyte, .idle, none, .byte, j / 6, j % 6⟩ ∧ t.trace = s.trace ++ (byteEvents b).take j ∧
      (0 < j → t.bitcnt.toNat = j / 6 ∧ t.sr = b >>> (j / 6))

/-- R28, R165: `TXN` leaves IDLE at the `START` of a frame of `SETSEG` and is IDLE again when the frame's `STOP` has
completed; `k` counts the events so far: the frames have 62, `62 + 54 N` and 62. (That it leaves IDLE with the first
event of the `START`, and is IDLE with the last event of the `STOP`, is log entry 9.) -/
def Obligations.TxnFollowsTheFrames : Prop :=
  ∀ (segs : List Byte) (s : State) (k : Nat), s.txn = .idle → s.WritesOk (93 + 27 * segs.length) →
    ∃ t, ticks k (launch (setsegSteps segs.length) { s with seg := segs }) = t ∧
      (k = 0 → t.txn = .idle) ∧
      (0 < k → k < 62 → t.txn = .comm1Frame) ∧
      (k = 62 → t.txn = .idle) ∧
      (62 < k → k < 124 + 54 * segs.length → t.txn = .comm2Frame) ∧
      (k = 124 + 54 * segs.length → t.txn = .idle) ∧
      (124 + 54 * segs.length < k → k < 186 + 54 * segs.length → t.txn = .comm3Frame) ∧
      (186 + 54 * segs.length ≤ k → t.txn = .idle)

/-! ## Invariants of every step -/

/-- R28, R30, R32, R94, R141: what `Consistent` says is kept by every step. -/
def Obligations.StepKeepsConsistency : Prop :=
  ∀ (s t : State), Consistent s → step s = .next t → Consistent t

/-- `Consistent` holds at power-on. -/
def Obligations.PowerOnConsistency : Prop := Consistent State.reset

/-- R12, R13, R31, R32: the levels and directions are a function of the trace, after every event, and so after every
operation (the `step` of log entry 7). -/
def Obligations.StepKeepsFollowsTrace : Prop :=
  (∀ (s t : State), FollowsTrace s → eventStep s = .next t → FollowsTrace t) ∧
  (∀ (s t : State), FollowsTrace s → step s = .next t → FollowsTrace t)

/-- R192, R194: there are as many FAIL events as `HWERR` results, and each result word is one of the listed, after every
event, and so after every operation (the `step` of log entry 7). -/
def Obligations.StepKeepsRecordsAborts : Prop :=
  (∀ (s t : State), RecordsAborts s → eventStep s = .next t → RecordsAborts t) ∧
  (∀ (s t : State), RecordsAborts s → step s = .next t → RecordsAborts t)

/-- The two invariants above hold at power-on. -/
def Obligations.PowerOnFollowsTraceAndRecordsAborts : Prop :=
  FollowsTrace State.reset ∧ RecordsAborts State.reset

/-! ## The surrounding software -/

/-- R112: for every supported character, `char_to_segments` equals `byte_to_segments` of its single-byte encoding; any
other character fails (the ASCII codes are general knowledge, log entry 5). -/
def Obligations.CharactersEncodeAsTheirBytes : Prop :=
  ∀ (pattern : Glyph → BitVec 7) (c : Char),
    (c.toNat < 256 → charToSegments pattern c = byteToSegments pattern (BitVec.ofNat 8 c.toNat)) ∧
    (256 ≤ c.toNat → charToSegments pattern c = none)

/-- R111, R113: the closed set has 16 members, all with patterns below 0x80, and every other byte fails. -/
def Obligations.ClosedSetOfTheEncoder : Prop :=
  ∀ (pattern : Glyph → BitVec 7) (b : Byte),
    ((byteToSegments pattern b).isSome = true ↔
      b ∈ [0x30#8, 0x31#8, 0x32#8, 0x33#8, 0x34#8, 0x35#8, 0x36#8, 0x37#8, 0x38#8, 0x39#8,
           0x41#8, 0x62#8, 0x43#8, 0x64#8, 0x45#8, 0x20#8]) ∧
    (∀ p, byteToSegments pattern b = some p → p.toNat < 0x80)

/-- R115: the colon's corner cases. -/
def Obligations.ColonCornerCases : Prop :=
  ∀ (pattern : Glyph → BitVec 7) (rest : List Char) (c : Char) (p : Byte), charToSegments pattern c = some p →
    stringToSegments pattern (':' :: rest) = .error ':' ∧
    stringToSegments pattern (c :: ':' :: ':' :: rest) = .error ':' ∧
    stringToSegments pattern [c, ':'] = .ok [p ||| 0x80#8] ∧
    stringToSegments pattern [] = .ok [] ∧
    (∀ c' p', charToSegments pattern c' = some p' →
      stringToSegments pattern [c, ':', c'] = .ok [p ||| 0x80#8, p'])

/-- R114, R116: the length of an encoded list is the number of elements that are not colons; a failure reports the first
element in scan order that does not encode: it is not in the closed set, the elements before it encode by themselves, and
with it they fail. -/
def Obligations.EncodingLengthAndError : Prop :=
  ∀ (pattern : Glyph → BitVec 7) (text : List Char),
    (∀ out, stringToSegments pattern text = .ok out → out.length = text.countP (fun c => c != ':')) ∧
    (∀ c, stringToSegments pattern text = .error c →
      charToSegments pattern c = none ∧ ∃ before after, text = before ++ c :: after ∧
        (∃ out, stringToSegments pattern before = .ok out) ∧ stringToSegments pattern (before ++ [c]) = .error c)

/-- R117, R118, R121: `set_string("12:34")` on a ready, idle engine is seen by a listener as the frames of the source's
end-to-end property; a text that does not encode is returned with its first bad element and the engine is not
touched. (The listener is the model's own, log entry 18.) -/
def Obligations.SetStringEndToEnd : Prop :=
  (∀ s : State, s.Accepts → s.wave = ⟨.high, .high⟩ → s.WritesOk 201 →
    ∃ t evs, setString ['1', '2', ':', '3', '4'] s = .ok (.next t) ∧ t.trace = s.trace ++ evs ∧
      t.results = s.results ++ [.ok] ∧
      (Observer.idle.after evs).closed =
        [[0x40],
         [0xC0, patternByte Config.pattern (.digit 1), patternByte Config.pattern (.digit 2) ||| 0x80#8,
          patternByte Config.pattern (.digit 3), patternByte Config.pattern (.digit 4)],
         [0x80 + s.brt.setWidth 8]]) ∧
  (∀ (s : State) (text : List Char) (c : Char), stringToSegments Config.pattern text = .error c →
    setString text s = .error c) ∧
  (∀ (s : State) (bytes segs : List Byte), bytestringToSegments Config.pattern bytes = .ok segs →
    s.seq = .rest → s.pending = none → setBytestring bytes s = .ok (.next (setSegments segs s)))
end

