-- ==== Sys2Proof/Laws/Decode.lean ====
section
/-! SUPPORT. The two fields of a command word and how they come back, and the wire bytes. Argue about a command word
from these and never bit by bit. -/

namespace Sys2Proof

theorem opField_commandWord (op : Nibble) (arg : Byte) : opField (commandWord op arg) = op := by
  apply BitVec.eq_of_getLsbD_eq
  intro i hi
  simp only [opField, commandWord, BitVec.getLsbD_extractLsb', hi, decide_true, Bool.true_and]
  refine (BitVec.getLsbD_append (x := op) (y := arg)).trans ?_
  simp

theorem argField_commandWord (op : Nibble) (arg : Byte) : argField (commandWord op arg) = arg := by
  apply BitVec.eq_of_getLsbD_eq
  intro i hi
  simp only [argField, commandWord, BitVec.getLsbD_extractLsb', hi, decide_true, Bool.true_and]
  refine (BitVec.getLsbD_append (x := op) (y := arg)).trans ?_
  simp [hi]

theorem commandWord_fields (w : CmdWord) : commandWord (opField w) (argField w) = w := by
  apply BitVec.eq_of_getLsbD_eq
  intro i hi
  refine (BitVec.getLsbD_append (x := opField w) (y := argField w)).trans ?_
  simp only [argField, opField, BitVec.getLsbD_extractLsb']
  by_cases h : i < 8
  · simp [h]
  · simp only [h, if_false, show 8 + (i - 8) = i by omega]
    rw [decide_eq_true (by omega), Bool.true_and]

/-- A statement about every operation code follows from its sixteen numerals. -/
theorem forall_nibble (P : Nibble → Prop) (h : ∀ n, n < 16 → P (BitVec.ofNat 4 n)) (op : Nibble) : P op := by
  have := h op.toNat op.isLt
  rwa [BitVec.ofNat_toNat, BitVec.setWidth_eq] at this

/-- A masked comparison of a command word is one of its fields each. -/
theorem and_commandWord_eq_iff (w : CmdWord) (m₁ v₁ : Nibble) (m₂ v₂ : Byte) :
    w &&& commandWord m₁ m₂ = commandWord v₁ v₂ ↔ opField w &&& m₁ = v₁ ∧ argField w &&& m₂ = v₂ := by
  have hand : w &&& commandWord m₁ m₂ = commandWord (opField w &&& m₁) (argField w &&& m₂) := by
    conv => lhs; rw [← commandWord_fields w]
    exact BitVec.and_append
  rw [hand]
  constructor
  · intro h
    have h₁ := congrArg opField h
    have h₂ := congrArg argField h
    simpa [opField_commandWord, argField_commandWord] using And.intro h₁ h₂
  · rintro ⟨rfl, rfl⟩; rfl

/-- A byte read at the place `slotOfByte` gives it is the byte of the instruction read. -/
theorem encode_of_decodeWire_slotOfByte {b : Byte} {i : Instr} (h : decodeWire (slotOfByte b) b = .ok i) :
    encode i = .wire (slotOfByte b) b := by
  revert h
  unfold slotOfByte
  split
  · subst b
    rintro ⟨rfl⟩; rfl
  split
  · subst b
    rintro ⟨rfl⟩; rfl
  split
  · rename_i h
    simp only [decodeWire, h, if_true]
    rintro ⟨rfl⟩
    simp only [encode, ← h]
    congr 1
    clear * -
    revert b
    decide
  · rintro ⟨rfl⟩
    simp only [encode]
    congr 1
    clear * -
    revert b
    decide

end Sys2Proof
end

