-- ==== Sys2Proof/Laws/State.lean ====
section
/-! SUPPORT. One lemma per field per update of the state, so that no proof unfolds a record update. -/

namespace Sys2Proof.Machine

variable (s : State)

/-! ## `setLvl` -/

@[simp] theorem State.setLvl_sr (l : Line) (v : Level) : (s.setLvl l v).sr = s.sr := by cases l <;> rfl
@[simp] theorem State.setLvl_bitcnt (l : Line) (v : Level) : (s.setLvl l v).bitcnt = s.bitcnt := by cases l <;> rfl
@[simp] theorem State.setLvl_brt (l : Line) (v : Level) : (s.setLvl l v).brt = s.brt := by cases l <;> rfl
@[simp] theorem State.setLvl_tBit (l : Line) (v : Level) : (s.setLvl l v).tBit = s.tBit := by cases l <;> rfl
@[simp] theorem State.setLvl_ready (l : Line) (v : Level) : (s.setLvl l v).ready = s.ready := by cases l <;> rfl
@[simp] theorem State.setLvl_seg (l : Line) (v : Level) : (s.setLvl l v).seg = s.seg := by cases l <;> rfl
@[simp] theorem State.setLvl_idx (l : Line) (v : Level) : (s.setLvl l v).idx = s.idx := by cases l <;> rfl
@[simp] theorem State.setLvl_seq (l : Line) (v : Level) : (s.setLvl l v).seq = s.seq := by cases l <;> rfl
@[simp] theorem State.setLvl_txn (l : Line) (v : Level) : (s.setLvl l v).txn = s.txn := by cases l <;> rfl
@[simp] theorem State.setLvl_frame (l : Line) (v : Level) : (s.setLvl l v).frame = s.frame := by cases l <;> rfl
@[simp] theorem State.setLvl_dirClk (l : Line) (v : Level) : (s.setLvl l v).dirClk = s.dirClk := by cases l <;> rfl
@[simp] theorem State.setLvl_dirDio (l : Line) (v : Level) : (s.setLvl l v).dirDio = s.dirDio := by cases l <;> rfl
@[simp] theorem State.setLvl_trace (l : Line) (v : Level) : (s.setLvl l v).trace = s.trace := by cases l <;> rfl
@[simp] theorem State.setLvl_pending (l : Line) (v : Level) : (s.setLvl l v).pending = s.pending := by cases l <;> rfl
@[simp] theorem State.setLvl_port (l : Line) (v : Level) : (s.setLvl l v).port = s.port := by cases l <;> rfl
@[simp] theorem State.setLvl_results (l : Line) (v : Level) : (s.setLvl l v).results = s.results := by cases l <;> rfl
@[simp] theorem State.setLvl_script (l : Line) (v : Level) : (s.setLvl l v).script = s.script := by cases l <;> rfl
@[simp] theorem State.setLvl_writes (l : Line) (v : Level) : (s.setLvl l v).writes = s.writes := by cases l <;> rfl

/-! ## `setDir` -/

@[simp] theorem State.setDir_sr (l : Line) (d : Dir) : (s.setDir l d).sr = s.sr := by cases l <;> rfl
@[simp] theorem State.setDir_bitcnt (l : Line) (d : Dir) : (s.setDir l d).bitcnt = s.bitcnt := by cases l <;> rfl
@[simp] theorem State.setDir_brt (l : Line) (d : Dir) : (s.setDir l d).brt = s.brt := by cases l <;> rfl
@[simp] theorem State.setDir_tBit (l : Line) (d : Dir) : (s.setDir l d).tBit = s.tBit := by cases l <;> rfl
@[simp] theorem State.setDir_ready (l : Line) (d : Dir) : (s.setDir l d).ready = s.ready := by cases l <;> rfl
@[simp] theorem State.setDir_seg (l : Line) (d : Dir) : (s.setDir l d).seg = s.seg := by cases l <;> rfl
@[simp] theorem State.setDir_idx (l : Line) (d : Dir) : (s.setDir l d).idx = s.idx := by cases l <;> rfl
@[simp] theorem State.setDir_seq (l : Line) (d : Dir) : (s.setDir l d).seq = s.seq := by cases l <;> rfl
@[simp] theorem State.setDir_txn (l : Line) (d : Dir) : (s.setDir l d).txn = s.txn := by cases l <;> rfl
@[simp] theorem State.setDir_frame (l : Line) (d : Dir) : (s.setDir l d).frame = s.frame := by cases l <;> rfl
@[simp] theorem State.setDir_lvlClk (l : Line) (d : Dir) : (s.setDir l d).lvlClk = s.lvlClk := by cases l <;> rfl
@[simp] theorem State.setDir_lvlDio (l : Line) (d : Dir) : (s.setDir l d).lvlDio = s.lvlDio := by cases l <;> rfl
@[simp] theorem State.setDir_trace (l : Line) (d : Dir) : (s.setDir l d).trace = s.trace := by cases l <;> rfl
@[simp] theorem State.setDir_pending (l : Line) (d : Dir) : (s.setDir l d).pending = s.pending := by cases l <;> rfl
@[simp] theorem State.setDir_port (l : Line) (d : Dir) : (s.setDir l d).port = s.port := by cases l <;> rfl
@[simp] theorem State.setDir_results (l : Line) (d : Dir) : (s.setDir l d).results = s.results := by cases l <;> rfl
@[simp] theorem State.setDir_script (l : Line) (d : Dir) : (s.setDir l d).script = s.script := by cases l <;> rfl
@[simp] theorem State.setDir_writes (l : Line) (d : Dir) : (s.setDir l d).writes = s.writes := by cases l <;> rfl

/-! ## `record` -/

@[simp] theorem State.record_sr (e : Event) : (s.record e).sr = s.sr := rfl
@[simp] theorem State.record_bitcnt (e : Event) : (s.record e).bitcnt = s.bitcnt := rfl
@[simp] theorem State.record_brt (e : Event) : (s.record e).brt = s.brt := rfl
@[simp] theorem State.record_tBit (e : Event) : (s.record e).tBit = s.tBit := rfl
@[simp] theorem State.record_ready (e : Event) : (s.record e).ready = s.ready := rfl
@[simp] theorem State.record_seg (e : Event) : (s.record e).seg = s.seg := rfl
@[simp] theorem State.record_idx (e : Event) : (s.record e).idx = s.idx := rfl
@[simp] theorem State.record_seq (e : Event) : (s.record e).seq = s.seq := rfl
@[simp] theorem State.record_txn (e : Event) : (s.record e).txn = s.txn := rfl
@[simp] theorem State.record_frame (e : Event) : (s.record e).frame = s.frame := rfl
@[simp] theorem State.record_lvlClk (e : Event) : (s.record e).lvlClk = s.lvlClk := rfl
@[simp] theorem State.record_lvlDio (e : Event) : (s.record e).lvlDio = s.lvlDio := rfl
@[simp] theorem State.record_dirClk (e : Event) : (s.record e).dirClk = s.dirClk := rfl
@[simp] theorem State.record_dirDio (e : Event) : (s.record e).dirDio = s.dirDio := rfl
@[simp] theorem State.record_trace (e : Event) : (s.record e).trace = s.trace ++ [e] := rfl
@[simp] theorem State.record_pending (e : Event) : (s.record e).pending = s.pending := rfl
@[simp] theorem State.record_port (e : Event) : (s.record e).port = s.port := rfl
@[simp] theorem State.record_results (e : Event) : (s.record e).results = s.results := rfl
@[simp] theorem State.record_script (e : Event) : (s.record e).script = s.script := rfl
@[simp] theorem State.record_writes (e : Event) : (s.record e).writes = s.writes := rfl

/-! ## `answer` -/

@[simp] theorem State.answer_sr (r : OpResult) : (s.answer r).sr = s.sr := rfl
@[simp] theorem State.answer_bitcnt (r : OpResult) : (s.answer r).bitcnt = s.bitcnt := rfl
@[simp] theorem State.answer_brt (r : OpResult) : (s.answer r).brt = s.brt := rfl
@[simp] theorem State.answer_tBit (r : OpResult) : (s.answer r).tBit = s.tBit := rfl
@[simp] theorem State.answer_ready (r : OpResult) : (s.answer r).ready = s.ready := rfl
@[simp] theorem State.answer_seg (r : OpResult) : (s.answer r).seg = s.seg := rfl
@[simp] theorem State.answer_idx (r : OpResult) : (s.answer r).idx = s.idx := rfl
@[simp] theorem State.answer_seq (r : OpResult) : (s.answer r).seq = s.seq := rfl
@[simp] theorem State.answer_txn (r : OpResult) : (s.answer r).txn = s.txn := rfl
@[simp] theorem State.answer_frame (r : OpResult) : (s.answer r).frame = s.frame := rfl
@[simp] theorem State.answer_lvlClk (r : OpResult) : (s.answer r).lvlClk = s.lvlClk := rfl
@[simp] theorem State.answer_lvlDio (r : OpResult) : (s.answer r).lvlDio = s.lvlDio := rfl
@[simp] theorem State.answer_dirClk (r : OpResult) : (s.answer r).dirClk = s.dirClk := rfl
@[simp] theorem State.answer_dirDio (r : OpResult) : (s.answer r).dirDio = s.dirDio := rfl
@[simp] theorem State.answer_trace (r : OpResult) : (s.answer r).trace = s.trace := rfl
@[simp] theorem State.answer_pending (r : OpResult) : (s.answer r).pending = s.pending := rfl
@[simp] theorem State.answer_port (r : OpResult) : (s.answer r).port = s.port := rfl
@[simp] theorem State.answer_results (r : OpResult) : (s.answer r).results = s.results ++ [r] := rfl
@[simp] theorem State.answer_script (r : OpResult) : (s.answer r).script = s.script := rfl
@[simp] theorem State.answer_writes (r : OpResult) : (s.answer r).writes = s.writes := rfl

/-! ## `countWrite` -/

@[simp] theorem State.countWrite_sr : (s.countWrite).sr = s.sr := rfl
@[simp] theorem State.countWrite_bitcnt : (s.countWrite).bitcnt = s.bitcnt := rfl
@[simp] theorem State.countWrite_brt : (s.countWrite).brt = s.brt := rfl
@[simp] theorem State.countWrite_tBit : (s.countWrite).tBit = s.tBit := rfl
@[simp] theorem State.countWrite_ready : (s.countWrite).ready = s.ready := rfl
@[simp] theorem State.countWrite_seg : (s.countWrite).seg = s.seg := rfl
@[simp] theorem State.countWrite_idx : (s.countWrite).idx = s.idx := rfl
@[simp] theorem State.countWrite_seq : (s.countWrite).seq = s.seq := rfl
@[simp] theorem State.countWrite_txn : (s.countWrite).txn = s.txn := rfl
@[simp] theorem State.countWrite_frame : (s.countWrite).frame = s.frame := rfl
@[simp] theorem State.countWrite_lvlClk : (s.countWrite).lvlClk = s.lvlClk := rfl
@[simp] theorem State.countWrite_lvlDio : (s.countWrite).lvlDio = s.lvlDio := rfl
@[simp] theorem State.countWrite_dirClk : (s.countWrite).dirClk = s.dirClk := rfl
@[simp] theorem State.countWrite_dirDio : (s.countWrite).dirDio = s.dirDio := rfl
@[simp] theorem State.countWrite_trace : (s.countWrite).trace = s.trace := rfl
@[simp] theorem State.countWrite_pending : (s.countWrite).pending = s.pending := rfl
@[simp] theorem State.countWrite_port : (s.countWrite).port = s.port := rfl
@[simp] theorem State.countWrite_results : (s.countWrite).results = s.results := rfl
@[simp] theorem State.countWrite_script : (s.countWrite).script = s.script := rfl
@[simp] theorem State.countWrite_writes : (s.countWrite).writes = s.writes + 1 := rfl

/-! ## `load` -/

@[simp] theorem State.load_sr (b : Byte) : (s.load b).sr = b := rfl
@[simp] theorem State.load_bitcnt (b : Byte) : (s.load b).bitcnt = 0 := rfl
@[simp] theorem State.load_brt (b : Byte) : (s.load b).brt = s.brt := rfl
@[simp] theorem State.load_tBit (b : Byte) : (s.load b).tBit = s.tBit := rfl
@[simp] theorem State.load_ready (b : Byte) : (s.load b).ready = s.ready := rfl
@[simp] theorem State.load_seg (b : Byte) : (s.load b).seg = s.seg := rfl
@[simp] theorem State.load_idx (b : Byte) : (s.load b).idx = s.idx := rfl
@[simp] theorem State.load_seq (b : Byte) : (s.load b).seq = s.seq := rfl
@[simp] theorem State.load_txn (b : Byte) : (s.load b).txn = s.txn := rfl
@[simp] theorem State.load_frame (b : Byte) : (s.load b).frame = s.frame := rfl
@[simp] theorem State.load_lvlClk (b : Byte) : (s.load b).lvlClk = s.lvlClk := rfl
@[simp] theorem State.load_lvlDio (b : Byte) : (s.load b).lvlDio = s.lvlDio := rfl
@[simp] theorem State.load_dirClk (b : Byte) : (s.load b).dirClk = s.dirClk := rfl
@[simp] theorem State.load_dirDio (b : Byte) : (s.load b).dirDio = s.dirDio := rfl
@[simp] theorem State.load_trace (b : Byte) : (s.load b).trace = s.trace := rfl
@[simp] theorem State.load_pending (b : Byte) : (s.load b).pending = s.pending := rfl
@[simp] theorem State.load_port (b : Byte) : (s.load b).port = s.port := rfl
@[simp] theorem State.load_results (b : Byte) : (s.load b).results = s.results := rfl
@[simp] theorem State.load_script (b : Byte) : (s.load b).script = s.script := rfl
@[simp] theorem State.load_writes (b : Byte) : (s.load b).writes = s.writes := rfl

/-! ## `shiftOut` -/

@[simp] theorem State.shiftOut_sr : (s.shiftOut).sr = s.sr >>> 1 := rfl
@[simp] theorem State.shiftOut_bitcnt : (s.shiftOut).bitcnt = s.bitcnt + 1 := rfl
@[simp] theorem State.shiftOut_brt : (s.shiftOut).brt = s.brt := rfl
@[simp] theorem State.shiftOut_tBit : (s.shiftOut).tBit = s.tBit := rfl
@[simp] theorem State.shiftOut_ready : (s.shiftOut).ready = s.ready := rfl
@[simp] theorem State.shiftOut_seg : (s.shiftOut).seg = s.seg := rfl
@[simp] theorem State.shiftOut_idx : (s.shiftOut).idx = s.idx := rfl
@[simp] theorem State.shiftOut_seq : (s.shiftOut).seq = s.seq := rfl
@[simp] theorem State.shiftOut_txn : (s.shiftOut).txn = s.txn := rfl
@[simp] theorem State.shiftOut_frame : (s.shiftOut).frame = s.frame := rfl
@[simp] theorem State.shiftOut_lvlClk : (s.shiftOut).lvlClk = s.lvlClk := rfl
@[simp] theorem State.shiftOut_lvlDio : (s.shiftOut).lvlDio = s.lvlDio := rfl
@[simp] theorem State.shiftOut_dirClk : (s.shiftOut).dirClk = s.dirClk := rfl
@[simp] theorem State.shiftOut_dirDio : (s.shiftOut).dirDio = s.dirDio := rfl
@[simp] theorem State.shiftOut_trace : (s.shiftOut).trace = s.trace := rfl
@[simp] theorem State.shiftOut_pending : (s.shiftOut).pending = s.pending := rfl
@[simp] theorem State.shiftOut_port : (s.shiftOut).port = s.port := rfl
@[simp] theorem State.shiftOut_results : (s.shiftOut).results = s.results := rfl
@[simp] theorem State.shiftOut_script : (s.shiftOut).script = s.script := rfl
@[simp] theorem State.shiftOut_writes : (s.shiftOut).writes = s.writes := rfl

/-! ## `releaseList` -/

@[simp] theorem State.releaseList_sr : (s.releaseList).sr = s.sr := rfl
@[simp] theorem State.releaseList_bitcnt : (s.releaseList).bitcnt = s.bitcnt := rfl
@[simp] theorem State.releaseList_brt : (s.releaseList).brt = s.brt := rfl
@[simp] theorem State.releaseList_tBit : (s.releaseList).tBit = s.tBit := rfl
@[simp] theorem State.releaseList_ready : (s.releaseList).ready = s.ready := rfl
@[simp] theorem State.releaseList_seg : (s.releaseList).seg = Config.abandonedSeg s.writes := rfl
@[simp] theorem State.releaseList_idx : (s.releaseList).idx = Config.abandonedIdx s.writes := rfl
@[simp] theorem State.releaseList_seq : (s.releaseList).seq = s.seq := rfl
@[simp] theorem State.releaseList_txn : (s.releaseList).txn = s.txn := rfl
@[simp] theorem State.releaseList_frame : (s.releaseList).frame = s.frame := rfl
@[simp] theorem State.releaseList_lvlClk : (s.releaseList).lvlClk = s.lvlClk := rfl
@[simp] theorem State.releaseList_lvlDio : (s.releaseList).lvlDio = s.lvlDio := rfl
@[simp] theorem State.releaseList_dirClk : (s.releaseList).dirClk = s.dirClk := rfl
@[simp] theorem State.releaseList_dirDio : (s.releaseList).dirDio = s.dirDio := rfl
@[simp] theorem State.releaseList_trace : (s.releaseList).trace = s.trace := rfl
@[simp] theorem State.releaseList_pending : (s.releaseList).pending = s.pending := rfl
@[simp] theorem State.releaseList_port : (s.releaseList).port = s.port := rfl
@[simp] theorem State.releaseList_results : (s.releaseList).results = s.results := rfl
@[simp] theorem State.releaseList_script : (s.releaseList).script = s.script := rfl
@[simp] theorem State.releaseList_writes : (s.releaseList).writes = s.writes := rfl

/-! ## `abandonScratch` -/

@[simp] theorem State.abandonScratch_sr : (s.abandonScratch).sr = Config.abandonedSr s.writes := rfl
@[simp] theorem State.abandonScratch_bitcnt : (s.abandonScratch).bitcnt = Config.abandonedBitcnt s.writes := rfl
@[simp] theorem State.abandonScratch_brt : (s.abandonScratch).brt = s.brt := rfl
@[simp] theorem State.abandonScratch_tBit : (s.abandonScratch).tBit = s.tBit := rfl
@[simp] theorem State.abandonScratch_ready : (s.abandonScratch).ready = s.ready := rfl
@[simp] theorem State.abandonScratch_seg : (s.abandonScratch).seg = Config.abandonedSeg s.writes := rfl
@[simp] theorem State.abandonScratch_idx : (s.abandonScratch).idx = Config.abandonedIdx s.writes := rfl
@[simp] theorem State.abandonScratch_seq : (s.abandonScratch).seq = s.seq := rfl
@[simp] theorem State.abandonScratch_txn : (s.abandonScratch).txn = s.txn := rfl
@[simp] theorem State.abandonScratch_frame : (s.abandonScratch).frame = s.frame := rfl
@[simp] theorem State.abandonScratch_lvlClk : (s.abandonScratch).lvlClk = s.lvlClk := rfl
@[simp] theorem State.abandonScratch_lvlDio : (s.abandonScratch).lvlDio = s.lvlDio := rfl
@[simp] theorem State.abandonScratch_dirClk : (s.abandonScratch).dirClk = s.dirClk := rfl
@[simp] theorem State.abandonScratch_dirDio : (s.abandonScratch).dirDio = s.dirDio := rfl
@[simp] theorem State.abandonScratch_trace : (s.abandonScratch).trace = s.trace := rfl
@[simp] theorem State.abandonScratch_pending : (s.abandonScratch).pending = s.pending := rfl
@[simp] theorem State.abandonScratch_port : (s.abandonScratch).port = s.port := rfl
@[simp] theorem State.abandonScratch_results : (s.abandonScratch).results = s.results := rfl
@[simp] theorem State.abandonScratch_script : (s.abandonScratch).script = s.script := rfl
@[simp] theorem State.abandonScratch_writes : (s.abandonScratch).writes = s.writes := rfl

/-! ## `initialise` -/

@[simp] theorem State.initialise_sr : (s.initialise).sr = s.sr := rfl
@[simp] theorem State.initialise_bitcnt : (s.initialise).bitcnt = s.bitcnt := rfl
@[simp] theorem State.initialise_brt : (s.initialise).brt = 15 := rfl
@[simp] theorem State.initialise_tBit : (s.initialise).tBit = Config.tBitNs := rfl
@[simp] theorem State.initialise_ready : (s.initialise).ready = true := rfl
@[simp] theorem State.initialise_seg : (s.initialise).seg = s.seg := rfl
@[simp] theorem State.initialise_idx : (s.initialise).idx = s.idx := rfl
@[simp] theorem State.initialise_seq : (s.initialise).seq = s.seq := rfl
@[simp] theorem State.initialise_txn : (s.initialise).txn = s.txn := rfl
@[simp] theorem State.initialise_frame : (s.initialise).frame = .idle := rfl
@[simp] theorem State.initialise_lvlClk : (s.initialise).lvlClk = s.lvlClk := rfl
@[simp] theorem State.initialise_lvlDio : (s.initialise).lvlDio = s.lvlDio := rfl
@[simp] theorem State.initialise_dirClk : (s.initialise).dirClk = s.dirClk := rfl
@[simp] theorem State.initialise_dirDio : (s.initialise).dirDio = s.dirDio := rfl
@[simp] theorem State.initialise_trace : (s.initialise).trace = s.trace := rfl
@[simp] theorem State.initialise_pending : (s.initialise).pending = s.pending := rfl
@[simp] theorem State.initialise_port : (s.initialise).port = s.port := rfl
@[simp] theorem State.initialise_results : (s.initialise).results = s.results := rfl
@[simp] theorem State.initialise_script : (s.initialise).script = s.script := rfl
@[simp] theorem State.initialise_writes : (s.initialise).writes = s.writes := rfl

/-! ## The two lines -/

@[simp] theorem State.setLvl_clk (v : Level) : s.setLvl .clk v = { s with lvlClk := v } := rfl
@[simp] theorem State.setLvl_dio (v : Level) : s.setLvl .dio v = { s with lvlDio := v } := rfl
@[simp] theorem State.setDir_clk (d : Dir) : s.setDir .clk d = { s with dirClk := d } := rfl
@[simp] theorem State.setDir_dio (d : Dir) : s.setDir .dio d = { s with dirDio := d } := rfl

@[simp] theorem State.lvl_setLvl_self (l : Line) (v : Level) : (s.setLvl l v).lvl l = v := by
  cases l <;> rfl

theorem State.lvl_setLvl_other {l l' : Line} (h : l' ≠ l) (v : Level) : (s.setLvl l v).lvl l' = s.lvl l' := by
  cases l <;> cases l' <;> first | rfl | exact absurd rfl h

@[simp] theorem State.dir_setDir_self (l : Line) (d : Dir) : (s.setDir l d).dir l = d := by
  cases l <;> rfl

theorem State.dir_setDir_other {l l' : Line} (h : l' ≠ l) (d : Dir) : (s.setDir l d).dir l' = s.dir l' := by
  cases l <;> cases l' <;> first | rfl | exact absurd rfl h

/-- The environment's outcomes depend on its script alone. -/
theorem State.outcomeAt_congr {s s' : State} (h : s'.script = s.script) (i : Nat) :
    s'.outcomeAt i = s.outcomeAt i := by
  simp only [State.outcomeAt, h]

end Sys2Proof.Machine
end

