-- ==== Sys2Proof/Laws/Ops.lean ====
section
/-! SUPPORT. What the shared operations can do, said once: one event, one step of the sequencer, the abort, and a
whole sequence run under successful writes or cut by one that does not succeed. -/

namespace Sys2Proof.Machine

/-! ## One event -/

/-- The event an action produces when it succeeds. -/
def actEvent : Act → State → Event
  | .config l, _ => .cfg l
  | .write l v, _ => .w l v
  | .sendBit, s => .w .dio (s.sr.getLsbD 0)
  | .delay, _ => .d

/-- The number of line writes in an action: one, or none for a delay. -/
def actWrites : Act → Nat
  | .config _ => 1
  | .write _ _ => 1
  | .sendBit => 1
  | .delay => 0

/-- The state after an action that succeeds. -/
def okEvent : Act → State → State
  | .config l, s => ((s.countWrite.setDir l .out).setLvl l .high).record (.cfg l)
  | .write l v, s => (s.countWrite.setLvl l (.ofBit v)).record (.w l v)
  | .sendBit, s => (s.countWrite.setLvl .dio (.ofBit (s.sr.getLsbD 0))).record (.w .dio (s.sr.getLsbD 0))
  | .delay, s => s.record .d

/-- The state at an action whose write fails, before the abort. -/
def failEvent : Act → State → State
  | .config l, s => ((s.countWrite.setDir l .unknown).setLvl l .unknown).record (.failCfg l)
  | .write l v, s => (s.countWrite.setLvl l .unknown).record (.failW l v)
  | .sendBit, s => (s.countWrite.setLvl .dio .unknown).record (.failW .dio (s.sr.getLsbD 0))
  | .delay, s => s

/-- The state at an action whose write stalls. -/
def stallEvent : Act → State → State
  | .config l, s => s.countWrite.setLvl l .unknown
  | .write l _, s => s.countWrite.setLvl l .unknown
  | .sendBit, s => s.countWrite.setLvl .dio .unknown
  | .delay, s => s

/-- The cause of an action whose write fails. -/
def actCause : Act → State → Cause
  | .config l, _ => ⟨.cfg, l, true⟩
  | .write l v, _ => ⟨.w, l, v⟩
  | .sendBit, s => ⟨.w, .dio, s.sr.getLsbD 0⟩
  | .delay, _ => ⟨.w, .clk, false⟩

theorem event_delay (s : State) : event .delay s = .done (okEvent .delay s) := rfl

theorem event_ok {a : Act} {s : State} (h : actWrites a = 1 → s.outcomeAt s.writes = .ok) :
    event a s = .done (okEvent a s) := by
  cases a <;> simp_all [event, lineConfig, lineWrite, bitDelay, okEvent, actWrites]

theorem event_fail {a : Act} {s : State} (ha : actWrites a = 1) (h : s.outcomeAt s.writes = .fail) :
    event a s = .failed (actCause a s) (failEvent a s) := by
  cases a <;> simp_all [event, lineConfig, lineWrite, actCause, failEvent, actWrites]

theorem event_stall {a : Act} {s : State} (ha : actWrites a = 1) (h : s.outcomeAt s.writes = .stall) :
    event a s = .stuck (stallEvent a s) := by
  cases a <;> simp_all [event, lineConfig, lineWrite, stallEvent, actWrites]

/-- Everything one event can do. -/
theorem event_cases (a : Act) (s : State) :
    ((actWrites a = 1 → s.outcomeAt s.writes = .ok) ∧ event a s = .done (okEvent a s)) ∨
    (actWrites a = 1 ∧ s.outcomeAt s.writes = .fail ∧ event a s = .failed (actCause a s) (failEvent a s)) ∨
    (actWrites a = 1 ∧ s.outcomeAt s.writes = .stall ∧ event a s = .stuck (stallEvent a s)) := by
  by_cases hw : actWrites a = 1
  · cases h : s.outcomeAt s.writes
    · exact .inl ⟨fun _ => rfl, event_ok fun _ => h⟩
    · exact .inr (.inl ⟨hw, rfl, event_fail hw h⟩)
    · exact .inr (.inr ⟨hw, rfl, event_stall hw h⟩)
  · exact .inl ⟨fun h => absurd h hw, event_ok fun h => absurd h hw⟩

@[simp] theorem okEvent_trace (a : Act) (s : State) : (okEvent a s).trace = s.trace ++ [actEvent a s] := by
  cases a <;> simp [okEvent, actEvent]

@[simp] theorem okEvent_writes (a : Act) (s : State) : (okEvent a s).writes = s.writes + actWrites a := by
  cases a <;> simp [okEvent, actWrites]

@[simp] theorem okEvent_script (a : Act) (s : State) : (okEvent a s).script = s.script := by
  cases a <;> simp [okEvent]

/-! ## Transfers -/

@[simp] theorem transfer_script (t : Transfer) (s : State) : (transfer t s).script = s.script := by
  cases t <;> rfl

@[simp] theorem transfer_writes (t : Transfer) (s : State) : (transfer t s).writes = s.writes := by
  cases t <;> rfl

@[simp] theorem transfer_trace (t : Transfer) (s : State) : (transfer t s).trace = s.trace := by
  cases t <;> rfl

/-- What every transfer of a list keeps, the list keeps. -/
theorem transfers_keep {α : Type} (f : State → α) (ts : List Transfer)
    (h : ∀ t, t ∈ ts → ∀ s, f (transfer t s) = f s) (s : State) : f (transfers ts s) = f s := by
  induction ts generalizing s with
  | nil => rfl
  | cons t ts ih =>
    rw [transfers, ih (fun u hu => h u (List.mem_cons_of_mem _ hu)), h t (List.mem_cons_self ..)]

@[simp] theorem transfers_script (ts : List Transfer) (s : State) : (transfers ts s).script = s.script :=
  transfers_keep State.script ts (fun t _ s => transfer_script t s) s

@[simp] theorem transfers_writes (ts : List Transfer) (s : State) : (transfers ts s).writes = s.writes :=
  transfers_keep State.writes ts (fun t _ s => transfer_writes t s) s

@[simp] theorem transfers_trace (ts : List Transfer) (s : State) : (transfers ts s).trace = s.trace :=
  transfers_keep State.trace ts (fun t _ s => transfer_trace t s) s

/-! ## One step -/

/-- The state after a step whose write succeeds. -/
def okStep (m : Micro) (s : State) : State := transfers m.after (okEvent m.act (transfers m.before s))

theorem perform_ok {m : Micro} {s : State} (h : actWrites m.act = 1 → s.outcomeAt s.writes = .ok) :
    perform m s = .done (okStep m s) := by
  have : event m.act (transfers m.before s) = .done (okEvent m.act (transfers m.before s)) := by
    apply event_ok
    intro hw
    simpa [State.outcomeAt] using h hw
  rw [perform, this, okStep]

/-- Everything one step can do. -/
theorem perform_cases (m : Micro) (s : State) :
    ((actWrites m.act = 1 → s.outcomeAt s.writes = .ok) ∧ perform m s = .done (okStep m s)) ∨
    (actWrites m.act = 1 ∧ s.outcomeAt s.writes = .fail ∧
      perform m s = .failed (actCause m.act (transfers m.before s)) (failEvent m.act (transfers m.before s))) ∨
    (actWrites m.act = 1 ∧ s.outcomeAt s.writes = .stall ∧
      perform m s = .stuck (stallEvent m.act (transfers m.before s))) := by
  have hout : (transfers m.before s).outcomeAt (transfers m.before s).writes = s.outcomeAt s.writes := by
    simp [State.outcomeAt]
  obtain ⟨h, he⟩ | ⟨hw, h, he⟩ | ⟨hw, h, he⟩ := event_cases m.act (transfers m.before s)
  · exact .inl ⟨fun hw => hout ▸ h hw, by rw [perform, he, okStep]⟩
  · exact .inr (.inl ⟨hw, hout ▸ h, by rw [perform, he]⟩)
  · exact .inr (.inr ⟨hw, hout ▸ h, by rw [perform, he]⟩)

/-! ## A whole sequence -/

/-- The state after a sequence whose writes all succeed. -/
def okRun : List Micro → State → State
  | [], s => s
  | m :: ms, s => okRun ms (okStep m s)

/-- The events of a sequence whose writes all succeed. -/
def okEvents : List Micro → State → List Event
  | [], _ => []
  | m :: ms, s => actEvent m.act (transfers m.before s) :: okEvents ms (okStep m s)

/-- The number of line writes of a sequence. -/
def stepWrites : List Micro → Nat
  | [] => 0
  | m :: ms => actWrites m.act + stepWrites ms

theorem okRun_append (p q : List Micro) (s : State) : okRun (p ++ q) s = okRun q (okRun p s) := by
  induction p generalizing s with
  | nil => rfl
  | cons m ms ih => simp [okRun, ih]

theorem okEvents_append (p q : List Micro) (s : State) :
    okEvents (p ++ q) s = okEvents p s ++ okEvents q (okRun p s) := by
  induction p generalizing s with
  | nil => rfl
  | cons m ms ih => simp [okRun, okEvents, ih]

theorem stepWrites_append (p q : List Micro) : stepWrites (p ++ q) = stepWrites p + stepWrites q := by
  induction p with
  | nil => simp [stepWrites]
  | cons m ms ih => simp [stepWrites, ih]; omega

@[simp] theorem okStep_trace (m : Micro) (s : State) :
    (okStep m s).trace = s.trace ++ [actEvent m.act (transfers m.before s)] := by
  simp [okStep]

@[simp] theorem okStep_script (m : Micro) (s : State) : (okStep m s).script = s.script := by
  simp [okStep]

@[simp] theorem okStep_writes (m : Micro) (s : State) : (okStep m s).writes = s.writes + actWrites m.act := by
  simp [okStep]

theorem okRun_trace (p : List Micro) (s : State) : (okRun p s).trace = s.trace ++ okEvents p s := by
  induction p generalizing s with
  | nil => simp [okRun, okEvents]
  | cons m ms ih => simp [okRun, okEvents, ih]

theorem okRun_writes (p : List Micro) (s : State) : (okRun p s).writes = s.writes + stepWrites p := by
  induction p generalizing s with
  | nil => simp [okRun, stepWrites]
  | cons m ms ih => simp [okRun, stepWrites, ih]; omega

theorem okRun_script (p : List Micro) (s : State) : (okRun p s).script = s.script := by
  induction p generalizing s with
  | nil => rfl
  | cons m ms ih => simp [okRun, ih]

/-- While the writes of its first part succeed, a sequence goes on to its second part. -/
theorem run_append_ok (p q : List Micro) (s : State)
    (h : ∀ i, i < stepWrites p → s.outcomeAt (s.writes + i) = .ok) :
    run (p ++ q) s = run q (okRun p s) := by
  induction p generalizing s with
  | nil => rfl
  | cons m ms ih =>
    have hm : perform m s = .done (okStep m s) :=
      perform_ok fun hw => by simpa using h 0 (by simp [stepWrites, hw])
    rw [List.cons_append, run, hm, okRun]
    apply ih
    intro i hi
    have := h (actWrites m.act + i) (by simp [stepWrites]; omega)
    rw [State.outcomeAt_congr (okStep_script m s), okStep_writes, Nat.add_assoc]
    exact this

/-- A sequence whose writes all succeed is run to its end. -/
theorem run_ok (p : List Micro) (s : State)
    (h : ∀ i, i < stepWrites p → s.outcomeAt (s.writes + i) = .ok) :
    run p s = { okRun p s with seq := .rest } := by
  have := run_append_ok p [] s h
  rwa [List.append_nil] at this

/-- A failed write aborts; nothing after it is performed. -/
theorem run_fail (m : Micro) (ms : List Micro) (s : State) (hw : actWrites m.act = 1)
    (h : s.outcomeAt s.writes = .fail) :
    run (m :: ms) s =
      abort (actCause m.act (transfers m.before s)) (failEvent m.act (transfers m.before s)) := by
  obtain ⟨hc, _⟩ | ⟨_, _, he⟩ | ⟨_, hc, _⟩ := perform_cases m s
  · simp [hc hw] at h
  · rw [run, he]
  · simp [hc] at h

/-- A stalled write leaves the engine stuck at it. -/
theorem run_stall (m : Micro) (ms : List Micro) (s : State) (hw : actWrites m.act = 1)
    (h : s.outcomeAt s.writes = .stall) :
    run (m :: ms) s =
      { stallEvent m.act (transfers m.before s) with seq := .stalled (m :: ms) } := by
  obtain ⟨hc, _⟩ | ⟨_, hc, _⟩ | ⟨_, _, he⟩ := perform_cases m s
  · simp [hc hw] at h
  · simp [hc] at h
  · rw [run, he]

/-- Whatever the outcomes of its writes, a sequence is run to its end, aborted at its first write that fails, or stuck
at its first write that stalls. -/
theorem run_cases (p : List Micro) (s : State) :
    ((∀ i, i < stepWrites p → s.outcomeAt (s.writes + i) = .ok) ∧
      run p s = { okRun p s with seq := .rest }) ∨
    (∃ p₁ m p₂, p = p₁ ++ m :: p₂ ∧ actWrites m.act = 1 ∧
      (∀ i, i < stepWrites p₁ → s.outcomeAt (s.writes + i) = .ok) ∧
      ((s.outcomeAt (s.writes + stepWrites p₁) = .fail ∧
          run p s = abort (actCause m.act (transfers m.before (okRun p₁ s)))
            (failEvent m.act (transfers m.before (okRun p₁ s)))) ∨
        (s.outcomeAt (s.writes + stepWrites p₁) = .stall ∧
          run p s = { stallEvent m.act (transfers m.before (okRun p₁ s)) with
            seq := .stalled (m :: p₂) }))) := by
  induction p generalizing s with
  | nil => exact .inl ⟨fun i hi => absurd hi (Nat.not_lt_zero i), rfl⟩
  | cons m ms ih =>
    obtain ⟨h, he⟩ | ⟨hw, h, he⟩ | ⟨hw, h, he⟩ := perform_cases m s
    · have hshift : ∀ i, (okStep m s).outcomeAt ((okStep m s).writes + i) =
          s.outcomeAt (s.writes + (actWrites m.act + i)) := by
        intro i
        rw [State.outcomeAt_congr (okStep_script m s), okStep_writes, Nat.add_assoc]
      have hhead : ∀ i, i < actWrites m.act → s.outcomeAt (s.writes + i) = .ok := by
        intro i hi
        have hone : actWrites m.act = 1 := by cases hm : m.act <;> simp_all [actWrites]
        have : i = 0 := by omega
        simpa [this] using h hone
      have hrun : run (m :: ms) s = run ms (okStep m s) := by rw [run, he]
      have hjoin : ∀ n, (∀ i, i < n → (okStep m s).outcomeAt ((okStep m s).writes + i) = .ok) →
          ∀ i, i < actWrites m.act + n → s.outcomeAt (s.writes + i) = .ok := by
        intro n hn i hi
        by_cases hlt : i < actWrites m.act
        · exact hhead i hlt
        · have := hn (i - actWrites m.act) (by omega)
          rw [hshift] at this
          rwa [show actWrites m.act + (i - actWrites m.act) = i by omega] at this
      obtain ⟨hall, hr⟩ | ⟨p₁, m', p₂, rfl, hw, hpre, hcut⟩ := ih (okStep m s)
      · exact .inl ⟨fun i hi => hjoin _ hall i (by simpa [stepWrites] using hi), by rw [hrun, hr, okRun]⟩
      · refine .inr ⟨m :: p₁, m', p₂, rfl, hw, fun i hi => hjoin _ hpre i (by simpa [stepWrites] using hi), ?_⟩
        rw [hshift] at hcut
        simpa [hrun, okRun, stepWrites] using hcut
    · refine .inr ⟨[], m, ms, rfl, hw, by simp [stepWrites], .inl ⟨by simpa [stepWrites] using h, ?_⟩⟩
      rw [run_fail m ms s hw h]; rfl
    · refine .inr ⟨[], m, ms, rfl, hw, by simp [stepWrites], .inr ⟨by simpa [stepWrites] using h, ?_⟩⟩
      rw [run_stall m ms s hw h]; rfl

/-! ## No step reads `SEQ` -/

def Effect.withSeq (q : Seq) : Effect → Effect
  | .done s => .done { s with seq := q }
  | .failed c s => .failed c { s with seq := q }
  | .stuck s => .stuck { s with seq := q }

theorem transfers_withSeq (ts : List Transfer) (q : Seq) (s : State) :
    transfers ts { s with seq := q } = { transfers ts s with seq := q } := by
  induction ts generalizing s with
  | nil => rfl
  | cons t ts ih =>
    have : transfer t { s with seq := q } = { transfer t s with seq := q } := by cases t <;> rfl
    rw [transfers, this, ih]; rfl

theorem event_withSeq (a : Act) (q : Seq) (s : State) :
    event a { s with seq := q } = Effect.withSeq q (event a s) := by
  have ho : ∀ i, State.outcomeAt { s with seq := q } i = s.outcomeAt i := fun _ => rfl
  cases a with
  | config l => simp only [event, lineConfig, ho]; cases s.outcomeAt s.writes <;> cases l <;> rfl
  | write l v => simp only [event, lineWrite, ho]; cases s.outcomeAt s.writes <;> cases l <;> rfl
  | sendBit => simp only [event, lineWrite, ho]; cases s.outcomeAt s.writes <;> rfl
  | delay => rfl

theorem perform_withSeq (m : Micro) (q : Seq) (s : State) :
    perform m { s with seq := q } = Effect.withSeq q (perform m s) := by
  rw [perform, transfers_withSeq, event_withSeq, perform]
  cases event m.act (transfers m.before s) <;> simp [Effect.withSeq, transfers_withSeq]

theorem run_withSeq (p : List Micro) (q : Seq) (s : State) : run p { s with seq := q } = run p s := by
  induction p generalizing s with
  | nil => rfl
  | cons m ms ih =>
    rw [run, perform_withSeq, run]
    cases perform m s with
    | done s' => exact ih s'
    | failed c s' => rfl
    | stuck s' => rfl

theorem launch_withSeq (p : List Micro) (q : Seq) (s : State) : launch p { s with seq := q } = launch p s := by
  cases p <;> rfl

/-- A sequence launched and completed is the sequence run. -/
theorem complete_launch (p : List Micro) (s : State) : complete (launch p s) = run p s := by
  cases p with
  | nil => rfl
  | cons m ms => exact run_withSeq (m :: ms) _ s

theorem complete_rest {s : State} (h : s.seq = .rest) : complete s = s := by simp only [complete, h]

theorem complete_running {s : State} {todo : List Micro} (h : s.seq = .running todo) : complete s = run todo s := by
  simp only [complete, h]

end Sys2Proof.Machine
end

