-- ==== Sys2Proof/Laws/Programs.lean ====
section
/-! SUPPORT. The step sequences of the operations under successful writes: the state they lead to, their events and
their writes, each said once. -/

namespace Sys2Proof.Machine

/-! ## The primitives -/

@[simp] theorem okEvent_write_clk (v : Bool) (s : State) : okEvent (.write .clk v) s =
    { s with lvlClk := .ofBit v, trace := s.trace ++ [.w .clk v], writes := s.writes + 1 } := rfl

@[simp] theorem okEvent_write_dio (v : Bool) (s : State) : okEvent (.write .dio v) s =
    { s with lvlDio := .ofBit v, trace := s.trace ++ [.w .dio v], writes := s.writes + 1 } := rfl

@[simp] theorem okEvent_sendBit (s : State) : okEvent .sendBit s =
    { s with lvlDio := .ofBit (s.sr.getLsbD 0), trace := s.trace ++ [.w .dio (s.sr.getLsbD 0)],
             writes := s.writes + 1 } := rfl

@[simp] theorem okEvent_delay (s : State) : okEvent .delay s = { s with trace := s.trace ++ [.d] } := rfl

theorem okRun_start (p : Place) (before after : List Transfer) (s : State) :
    okRun (startSteps p before after) s = transfers after { transfers before s with
      lvlDio := .low, trace := s.trace ++ startEvents, frame := (transfers before s).frame.afterStart,
      writes := s.writes + 1 } := by
  simp [okRun, okStep, startSteps, Place.step, transfers, transfer, startEvents, Level.ofBit]

theorem okRun_stop (p : Place) (after : List Transfer) (s : State) :
    okRun (stopSteps p after) s = transfers after { s with
      lvlClk := .high, lvlDio := .high, trace := s.trace ++ stopEvents, frame := s.frame.afterStop,
      writes := s.writes + 3 } := by
  simp [okRun, okStep, stopSteps, Place.step, transfers, transfer, stopEvents, Level.ofBit]

/-- The state after one bit cell. -/
def State.celled (s : State) : State :=
  { s with sr := s.sr >>> 1, bitcnt := s.bitcnt + 1, lvlClk := .high, lvlDio := .ofBit (s.sr.getLsbD 0),
           trace := s.trace ++ cellEvents (s.sr.getLsbD 0), writes := s.writes + 3 }

theorem okRun_cell (p : Place) (before : List Transfer) (k : Nat) (s : State) :
    okRun (bitCell p before k) s = (transfers before s).celled := by
  simp [okRun, okStep, bitCell, Place.step, transfers, transfer, State.shiftOut, cellEvents, Level.ofBit,
    State.celled]

theorem okRun_trailer (p : Place) (after : List Transfer) (s : State) :
    okRun (trailer p after) s = transfers after { s with
      lvlClk := .low, trace := s.trace ++ trailerEvents, frame := s.frame.afterByte,
      writes := s.writes + 3 } := by
  simp [okRun, okStep, trailer, Place.step, transfers, transfer, trailerEvents, Level.ofBit]

/-- After `k` shifts bit 0 of `SR` is bit `k` of the byte (R136). -/
theorem getLsbD_shifted (b : Byte) (k : Nat) : (b >>> k).getLsbD 0 = b.getLsbD k := by
  simp

/-- The state after the transfer of the byte `b`. -/
def State.sent (s : State) (b : Byte) : State :=
  { s with sr := 0, bitcnt := 8, lvlClk := .low, lvlDio := .ofBit (b.getLsbD 7),
           trace := s.trace ++ byteEvents b, frame := s.frame.afterByte, writes := s.writes + 27 }

theorem celled_eight (s : State) (b : Byte) :
    (s.load b).celled.celled.celled.celled.celled.celled.celled.celled =
      { s with sr := 0, bitcnt := 8, lvlClk := .high, lvlDio := .ofBit (b.getLsbD 7),
               trace := s.trace ++ (List.range 8).flatMap (fun k => cellEvents (b.getLsbD k)),
               writes := s.writes + 24 } := by
  have hsr : b >>> 8 = 0#8 := by revert b; decide
  cases s
  simp only [State.load, State.celled, State.mk.injEq, ← BitVec.shiftRight_add, getLsbD_shifted,
    Nat.reduceAdd, List.append_assoc]
  simp [hsr, show List.range 8 = [0, 1, 2, 3, 4, 5, 6, 7] from rfl]

theorem okRun_byte (p : Place) (load : Transfer) (after : List Transfer) (b : Byte) (s : State)
    (h : transfer load s = s.load b) :
    okRun (byteSteps p load after) s = transfers after (s.sent b) := by
  have hload : transfers [load] s = s.load b := h
  have hnil : ∀ u : State, transfers [] u = u := fun _ => rfl
  simp only [byteSteps, okRun_append, okRun_cell, hload, hnil, celled_eight, okRun_trailer]
  simp [State.sent, byteEvents]

/-! ## Events and writes of the primitives -/

theorem stepWrites_start (p : Place) (before after : List Transfer) :
    stepWrites (startSteps p before after) = 1 := rfl

theorem stepWrites_stop (p : Place) (after : List Transfer) : stepWrites (stopSteps p after) = 3 := rfl

theorem stepWrites_byte (p : Place) (load : Transfer) (after : List Transfer) :
    stepWrites (byteSteps p load after) = 27 := by
  simp [byteSteps, bitCell, trailer, Place.step, stepWrites, actWrites]

theorem stepWrites_init : stepWrites initSteps = 2 := rfl

theorem okEvents_start (p : Place) (before after : List Transfer) (s : State) :
    okEvents (startSteps p before after) s = startEvents := rfl

theorem okEvents_stop (p : Place) (after : List Transfer) (s : State) :
    okEvents (stopSteps p after) s = stopEvents := rfl

theorem okEvents_init (s : State) : okEvents initSteps s = [.cfg .clk, .cfg .dio] := rfl

/-- The events of a sequence are what it adds to the trace. -/
theorem okEvents_of_trace (p : List Micro) (s : State) (evs : List Event)
    (h : (okRun p s).trace = s.trace ++ evs) : okEvents p s = evs := by
  rw [okRun_trace] at h
  exact List.append_cancel_left h

theorem okEvents_byte (p : Place) (load : Transfer) (after : List Transfer) (b : Byte) (s : State)
    (h : transfer load s = s.load b) : okEvents (byteSteps p load after) s = byteEvents b :=
  okEvents_of_trace _ _ _ (by rw [okRun_byte p load after b s h, transfers_trace]; rfl)

/-! ## `SETSEG` -/

/-- The state after the segment bytes of frame 2 from index `i` on. -/
theorem okRun_segments (n i : Nat) (s : State) (hidx : s.idx = i) (hlen : s.seg.length = i + n)
    (hframe : s.frame = .opened) (hsr : s.sr = 0) (hbit : s.bitcnt = 8) (hclk : s.lvlClk = .low) :
    ∃ l, okRun (segmentSteps i n) s = { s with
      idx := i + n, lvlDio := l, trace := s.trace ++ (s.seg.drop i).flatMap byteEvents,
      writes := s.writes + 27 * n } := by
  induction n generalizing i s with
  | zero =>
    refine ⟨s.lvlDio, ?_⟩
    rw [List.drop_eq_nil_of_le (by omega), segmentSteps, okRun, Nat.add_zero, ← hidx]
    cases s
    simp
  | succ n ih =>
    have hi : i < s.seg.length := by omega
    have hdrop : s.seg.drop i = s.seg[i] :: s.seg.drop (i + 1) := List.drop_eq_getElem_cons hi
    have hload : transfer .loadSegment s = s.load (s.seg[i]) := by
      simp [transfer, State.segment, hidx, List.getD, List.getElem?_eq_getElem hi]
    simp only [segmentSteps, okRun_append]
    rw [okRun_byte _ _ _ _ s hload]
    obtain ⟨l, hl⟩ := ih (i + 1) (transfers [.nextIdx] (s.sent s.seg[i]))
      (by simp [transfers, transfer, State.sent, hidx])
      (by show s.seg.length = _; omega)
      (by simp [transfers, transfer, State.sent, hframe, Framing.afterByte]) rfl rfl rfl
    refine ⟨l, ?_⟩
    rw [hl, hdrop]
    cases s
    simp only [transfers, transfer, State.sent, Framing.afterByte, List.flatMap_cons, List.append_assoc,
      State.mk.injEq, true_and] at *
    simp only [hsr, hbit, hframe, hclk, true_and]
    omega

theorem stepWrites_segments (n i : Nat) : stepWrites (segmentSteps i n) = 27 * n := by
  induction n generalizing i with
  | zero => rfl
  | succ n ih => rw [segmentSteps, stepWrites_append, stepWrites_byte, ih]; omega

theorem stepWrites_setseg (n : Nat) : stepWrites (setsegSteps n) = 93 + 27 * n := by
  simp only [setsegSteps, comm1FrameSteps, comm2FrameSteps, comm3FrameSteps, stepWrites_append,
    stepWrites_start, stepWrites_byte, stepWrites_stop, stepWrites_segments]
  omega

/-- The state after a `SETSEG` whose writes all succeed, before the list is released. -/
def State.shown (s : State) (segs : List Byte) : State :=
  { s with sr := 0, bitcnt := 8, seg := segs, idx := segs.length, txn := .idle, frame := .idle,
           lvlClk := .high, lvlDio := .high, trace := s.trace ++ setsegEvents segs s.brt,
           writes := s.writes + (93 + 27 * segs.length) }

theorem comm3Byte_eq (v : Nibble) : comm3Byte v = 0x80#8 ||| v.setWidth 8 := by
  revert v; decide

theorem setsegEvents_eq (segs : List Byte) (brt : Nibble) :
    setsegEvents segs brt = frameEvents [0x40] ++ (frameEvents (0xC0 :: segs) ++
      frameEvents [0x80 ||| brt.setWidth 8]) := by
  simp [setsegEvents, setsegFrames]

theorem okRun_comm1Frame (s : State) : okRun comm1FrameSteps s = { s with
    sr := 0, bitcnt := 8, txn := .idle, frame := .idle, lvlClk := .high, lvlDio := .high,
    trace := s.trace ++ frameEvents [0x40], writes := s.writes + 31 } := by
  simp only [comm1FrameSteps, okRun_append, okRun_start]
  rw [okRun_byte _ _ _ 0x40 _ rfl, okRun_stop]
  simp [transfers, transfer, State.sent, frameEvents]
  cases s.frame <;> rfl

theorem okRun_comm2Frame (s : State) (h : s.frame = .idle) :
    okRun (comm2FrameSteps s.seg.length) s = { s with
      sr := 0, bitcnt := 8, idx := s.seg.length, txn := .idle, frame := .idle, lvlClk := .high,
      lvlDio := .high, trace := s.trace ++ frameEvents (0xC0 :: s.seg),
      writes := s.writes + (31 + 27 * s.seg.length) } := by
  simp only [comm2FrameSteps, okRun_append, okRun_start]
  rw [okRun_byte _ _ _ 0xC0 _ rfl]
  obtain ⟨l, hl⟩ := okRun_segments s.seg.length 0
    (transfers [.clearIdx] ((transfers [] { transfers [.setTxn .comm2Frame] s with
      lvlDio := .low, trace := s.trace ++ startEvents,
      frame := (transfers [.setTxn .comm2Frame] s).frame.afterStart,
      writes := s.writes + 1 }).sent 0xC0))
    rfl (by simp [transfers, transfer, State.sent])
    (by simp [transfers, transfer, State.sent, h, Framing.afterStart, Framing.afterByte]) rfl rfl rfl
  rw [hl, okRun_stop]
  simp [transfers, transfer, State.sent, frameEvents, h, Framing.afterStart, Framing.afterByte,
    Framing.afterStop]
  omega

theorem okRun_comm3Frame (s : State) (h : s.frame = .idle) : okRun comm3FrameSteps s =
    transfers [.releaseList, .returnOk] { s with
      sr := 0, bitcnt := 8, txn := .idle, frame := .idle, lvlClk := .high, lvlDio := .high,
      trace := s.trace ++ frameEvents [0x80 ||| s.brt.setWidth 8], writes := s.writes + 31 } := by
  simp only [comm3FrameSteps, okRun_append, okRun_start]
  rw [okRun_byte _ _ _ (comm3Byte s.brt) _ rfl, okRun_stop]
  simp [transfers, transfer, State.sent, frameEvents, h, Framing.afterStart, Framing.afterByte,
    Framing.afterStop, comm3Byte_eq]

theorem okRun_setseg (segs : List Byte) (s : State) :
    okRun (setsegSteps segs.length) { s with seg := segs } =
      transfers [.releaseList, .returnOk] (s.shown segs) := by
  simp only [setsegSteps, okRun_append, okRun_comm1Frame]
  rw [okRun_comm2Frame { s with
    seg := segs, sr := 0, bitcnt := 8, txn := .idle, frame := .idle, lvlClk := .high, lvlDio := .high,
    trace := s.trace ++ frameEvents [0x40], writes := s.writes + 31 } rfl, okRun_comm3Frame _ rfl]
  simp only [State.shown, setsegEvents_eq, List.append_assoc]
  congr 2
  omega

theorem okEvents_setseg (segs : List Byte) (s : State) :
    okEvents (setsegSteps segs.length) { s with seg := segs } = setsegEvents segs s.brt :=
  okEvents_of_trace _ _ _ (by rw [okRun_setseg, transfers_trace]; rfl)

end Sys2Proof.Machine
end

