-- ==== Sys2Proof/Laws/Keep.lean ====
section
/-! SUPPORT. What a sequence keeps, said once: fields no transfer of it writes, and the fields that events, aborts and
stalls leave alone; the levels and directions as functions of the events. -/

namespace Sys2Proof.Machine

/-! ## Reading a field through the parts of a run -/

/-- A reading of the state that no event, no abort and no change of `SEQ` alters. -/
structure Steady {α : Type} (f : State → α) : Prop where
  ok : ∀ a s, f (okEvent a s) = f s
  fail : ∀ a s, f (failEvent a s) = f s
  stall : ∀ a s, f (stallEvent a s) = f s
  abort : ∀ c s, f (Sys2Proof.Machine.abort c s) = f s
  seq : ∀ q s, f { s with seq := q } = f s

/-- No transfer of the sequence alters the reading. -/
def Leaves {α : Type} (f : State → α) (p : List Micro) : Prop :=
  ∀ m, m ∈ p → ∀ t, t ∈ m.before ++ m.after → ∀ s, f (transfer t s) = f s

theorem Leaves.tail {α : Type} {f : State → α} {m : Micro} {ms : List Micro} (h : Leaves f (m :: ms)) :
    Leaves f ms := fun m' hm => h m' (List.mem_cons_of_mem _ hm)

theorem Leaves.append {α : Type} {f : State → α} {p q : List Micro} (hp : Leaves f p) (hq : Leaves f q) :
    Leaves f (p ++ q) := fun m hm => (List.mem_append.1 hm).elim (hp m) (hq m)

theorem Leaves.before {α : Type} {f : State → α} {m : Micro} {ms : List Micro} (h : Leaves f (m :: ms))
    (s : State) : f (transfers m.before s) = f s :=
  transfers_keep f _ (fun t ht => h m (List.mem_cons_self ..) t (List.mem_append_left _ ht)) s

theorem Leaves.after {α : Type} {f : State → α} {m : Micro} {ms : List Micro} (h : Leaves f (m :: ms))
    (s : State) : f (transfers m.after s) = f s :=
  transfers_keep f _ (fun t ht => h m (List.mem_cons_self ..) t (List.mem_append_right _ ht)) s

theorem okStep_keeps {α : Type} {f : State → α} (hok : ∀ a s, f (okEvent a s) = f s) {m : Micro}
    {ms : List Micro} (h : Leaves f (m :: ms)) (s : State) : f (okStep m s) = f s := by
  rw [okStep, h.after, hok, h.before]

theorem okRun_keeps {α : Type} {f : State → α} (hok : ∀ a s, f (okEvent a s) = f s) {p : List Micro}
    (h : Leaves f p) (s : State) : f (okRun p s) = f s := by
  induction p generalizing s with
  | nil => rfl
  | cons m ms ih => rw [okRun, ih h.tail, okStep_keeps hok h]

/-- A sequence keeps every steady reading that its transfers leave alone. -/
theorem run_keeps {α : Type} {f : State → α} (hf : Steady f) {p : List Micro} (h : Leaves f p) (s : State) :
    f (run p s) = f s := by
  induction p generalizing s with
  | nil => exact hf.seq _ _
  | cons m ms ih =>
    obtain ⟨_, he⟩ | ⟨_, _, he⟩ | ⟨_, _, he⟩ := perform_cases m s
    · rw [run, he]; exact (ih h.tail _).trans (okStep_keeps hf.ok h s)
    · rw [run, he]; exact (hf.abort _ _).trans ((hf.fail _ _).trans (h.before s))
    · rw [run, he]; exact (hf.seq _ _).trans ((hf.stall _ _).trans (h.before s))

theorem Steady.of_fields {α : Type} {f : State → α}
    (lvl : ∀ s l v, f (State.setLvl s l v) = f s) (dir : ∀ s l d, f (State.setDir s l d) = f s)
    (rec : ∀ s e, f (State.record s e) = f s) (cnt : ∀ s, f (State.countWrite s) = f s)
    (ab : ∀ c s, f (Sys2Proof.Machine.abort c s) = f s) (seq : ∀ q s, f { s with seq := q } = f s) :
    Steady f where
  ok a s := by cases a <;> simp only [okEvent, lvl, dir, rec, cnt]
  fail a s := by cases a <;> simp only [failEvent, lvl, dir, rec, cnt]
  stall a s := by cases a <;> simp only [stallEvent, lvl, cnt]
  abort := ab
  seq := seq

theorem steady_brt : Steady State.brt := .of_fields (by simp) (by simp) (by simp) (by simp) (fun _ _ => rfl) (fun _ _ => rfl)
theorem steady_tBit : Steady State.tBit := .of_fields (by simp) (by simp) (by simp) (by simp) (fun _ _ => rfl) (fun _ _ => rfl)
theorem steady_ready : Steady State.ready := .of_fields (by simp) (by simp) (by simp) (by simp) (fun _ _ => rfl) (fun _ _ => rfl)
theorem steady_pending : Steady State.pending := .of_fields (by simp) (by simp) (by simp) (by simp) (fun _ _ => rfl) (fun _ _ => rfl)
theorem steady_port : Steady State.port := .of_fields (by simp) (by simp) (by simp) (by simp) (fun _ _ => rfl) (fun _ _ => rfl)
theorem steady_script : Steady State.script := .of_fields (by simp) (by simp) (by simp) (by simp) (fun _ _ => rfl) (fun _ _ => rfl)

/-! ## The abort -/

@[simp] theorem abort_trace (c : Cause) (s : State) : (abort c s).trace = s.trace := rfl
@[simp] theorem abort_results (c : Cause) (s : State) : (abort c s).results = s.results ++ [.hwerr c] := rfl
@[simp] theorem abort_wave (c : Cause) (s : State) : (abort c s).wave = s.wave := rfl
@[simp] theorem abort_dir (c : Cause) (s : State) (l : Line) : (abort c s).dir l = s.dir l := by cases l <;> rfl
@[simp] theorem abort_frame (c : Cause) (s : State) : (abort c s).frame = .undef := rfl
@[simp] theorem abort_txn (c : Cause) (s : State) : (abort c s).txn = .idle := rfl
@[simp] theorem abort_seq (c : Cause) (s : State) : (abort c s).seq = .rest := rfl
@[simp] theorem abort_brt (c : Cause) (s : State) : (abort c s).brt = s.brt := rfl
@[simp] theorem abort_tBit (c : Cause) (s : State) : (abort c s).tBit = s.tBit := rfl
@[simp] theorem abort_ready (c : Cause) (s : State) : (abort c s).ready = s.ready := rfl
@[simp] theorem abort_pending (c : Cause) (s : State) : (abort c s).pending = s.pending := rfl
@[simp] theorem abort_port (c : Cause) (s : State) : (abort c s).port = s.port := rfl
@[simp] theorem abort_script (c : Cause) (s : State) : (abort c s).script = s.script := rfl
@[simp] theorem abort_writes (c : Cause) (s : State) : (abort c s).writes = s.writes := rfl

/-! ## Levels, directions and results under events and transfers -/

@[simp] theorem transfer_wave (t : Transfer) (s : State) : (transfer t s).wave = s.wave := by cases t <;> rfl

@[simp] theorem transfers_wave (ts : List Transfer) (s : State) : (transfers ts s).wave = s.wave :=
  transfers_keep State.wave ts (fun t _ s => transfer_wave t s) s

@[simp] theorem transfer_dir (t : Transfer) (s : State) (l : Line) : (transfer t s).dir l = s.dir l := by
  cases t <;> cases l <;> rfl

@[simp] theorem transfers_dir (ts : List Transfer) (s : State) (l : Line) : (transfers ts s).dir l = s.dir l :=
  transfers_keep (fun s => s.dir l) ts (fun t _ s => transfer_dir t s l) s

theorem Wave.after_append (w : Wave) (a b : List Event) : w.after (a ++ b) = (w.after a).after b := by
  simp [Wave.after]

theorem Wave.after_concat (w : Wave) (a : List Event) (e : Event) : w.after (a ++ [e]) = (w.after a).next e := by
  simp [Wave.after]

theorem dirAfter_append (l : Line) (d : Dir) (a b : List Event) :
    dirAfter l d (a ++ b) = dirAfter l (dirAfter l d a) b := by
  induction a generalizing d with
  | nil => rfl
  | cons e a ih => cases e <;> simp [dirAfter, ih]

theorem okEvent_wave (a : Act) (s : State) : (okEvent a s).wave = s.wave.next (actEvent a s) := by
  cases a with
  | config l => cases l <;> rfl
  | write l v => cases l <;> rfl
  | sendBit => rfl
  | delay => rfl

theorem okEvent_dir (a : Act) (s : State) (l : Line) :
    (okEvent a s).dir l = dirAfter l (s.dir l) [actEvent a s] := by
  cases a with
  | config l' => cases l <;> cases l' <;> rfl
  | write l' v => cases l <;> cases l' <;> rfl
  | sendBit => cases l <;> rfl
  | delay => cases l <;> rfl

theorem failEvent_wave {a : Act} (s : State) (h : actWrites a = 1) :
    (failEvent a s).wave = s.wave.next (actEvent a s).failed := by
  cases a with
  | config l => cases l <;> rfl
  | write l v => cases l <;> rfl
  | sendBit => rfl
  | delay => simp [actWrites] at h

theorem stallEvent_wave {a : Act} (s : State) (h : actWrites a = 1) :
    (stallEvent a s).wave = s.wave.next (actEvent a s).failed := by
  cases a with
  | config l => cases l <;> rfl
  | write l v => cases l <;> rfl
  | sendBit => rfl
  | delay => simp [actWrites] at h

theorem failEvent_dir {a : Act} (s : State) (l : Line) (h : actWrites a = 1) :
    (failEvent a s).dir l = dirAfter l (s.dir l) [(actEvent a s).failed] := by
  cases a with
  | config l' => cases l <;> cases l' <;> rfl
  | write l' v => cases l <;> cases l' <;> rfl
  | sendBit => cases l <;> rfl
  | delay => simp [actWrites] at h

theorem stallEvent_dir (a : Act) (s : State) (l : Line) : (stallEvent a s).dir l = s.dir l := by
  cases a with
  | config l' => cases l <;> cases l' <;> rfl
  | write l' v => cases l <;> cases l' <;> rfl
  | sendBit => cases l <;> rfl
  | delay => rfl

theorem failEvent_trace {a : Act} (s : State) (h : actWrites a = 1) :
    (failEvent a s).trace = s.trace ++ [(actEvent a s).failed] := by
  cases a <;> simp_all [failEvent, actEvent, actWrites, Event.failed]

@[simp] theorem stallEvent_trace (a : Act) (s : State) : (stallEvent a s).trace = s.trace := by
  cases a <;> simp [stallEvent]

@[simp] theorem failEvent_results (a : Act) (s : State) : (failEvent a s).results = s.results := by
  cases a <;> simp [failEvent]

@[simp] theorem stallEvent_results (a : Act) (s : State) : (stallEvent a s).results = s.results := by
  cases a <;> simp [stallEvent]

@[simp] theorem okEvent_results (a : Act) (s : State) : (okEvent a s).results = s.results := by
  cases a <;> simp [okEvent]

theorem failEvent_writes {a : Act} (s : State) (h : actWrites a = 1) :
    (failEvent a s).writes = s.writes + 1 := by
  cases a <;> simp_all [failEvent, actWrites]

theorem stallEvent_writes {a : Act} (s : State) (h : actWrites a = 1) :
    (stallEvent a s).writes = s.writes + 1 := by
  cases a <;> simp_all [stallEvent, actWrites]

theorem actEvent_cause {a : Act} (s : State) (h : actWrites a = 1) :
    (actEvent a s).cause = some (actCause a s) := by
  cases a <;> simp_all [actEvent, actCause, Event.cause, actWrites]

theorem actEvent_isWrite (a : Act) (s : State) : (actEvent a s).isWrite = true ↔ actWrites a = 1 := by
  cases a <;> simp [actEvent, actWrites, Event.isWrite]

theorem okStep_wave (m : Micro) (s : State) :
    (okStep m s).wave = s.wave.next (actEvent m.act (transfers m.before s)) := by
  simp [okStep, okEvent_wave]

theorem okRun_wave (p : List Micro) (s : State) : (okRun p s).wave = s.wave.after (okEvents p s) := by
  induction p generalizing s with
  | nil => rfl
  | cons m ms ih => rw [okRun, ih, okStep_wave]; rfl

theorem okRun_dir (p : List Micro) (s : State) (l : Line) :
    (okRun p s).dir l = dirAfter l (s.dir l) (okEvents p s) := by
  induction p generalizing s with
  | nil => rfl
  | cons m ms ih =>
    rw [okRun, ih, okEvents, ← List.singleton_append, dirAfter_append]
    simp [okStep, okEvent_dir]

/-! ## Where a run is cut -/

theorem splitAtWrite_write {e : Event} (h : e.isWrite = true) (tr : List Event) (j : Nat) :
    splitAtWrite j (e :: tr) =
      match j with
      | 0 => some ([], e)
      | j + 1 => (splitAtWrite j tr).map (fun p => (e :: p.1, p.2)) := by
  cases j <;> simp [splitAtWrite, h]

theorem splitAtWrite_other {e : Event} (h : ¬ e.isWrite = true) (tr : List Event) (j : Nat) :
    splitAtWrite j (e :: tr) = (splitAtWrite j tr).map (fun p => (e :: p.1, p.2)) := by
  cases j <;> simp [splitAtWrite, h]

theorem splitAtWrite_okEvents (p₁ : List Micro) (m : Micro) (p₂ : List Micro) (s : State)
    (hw : actWrites m.act = 1) :
    splitAtWrite (stepWrites p₁) (okEvents (p₁ ++ m :: p₂) s) =
      some (okEvents p₁ s, actEvent m.act (transfers m.before (okRun p₁ s))) := by
  induction p₁ generalizing s with
  | nil => simp [stepWrites, okEvents, okRun, splitAtWrite, (actEvent_isWrite _ _).2 hw]
  | cons a p ih =>
    simp only [List.cons_append, okEvents, stepWrites, okRun, splitAtWrite]
    by_cases ha : actWrites a.act = 1
    · simp [(actEvent_isWrite _ _).2 ha, ha, Nat.add_comm 1, ih]
    · have h0 : actWrites a.act = 0 := by cases h : a.act <;> simp_all [actWrites]
      have : ¬ (actEvent a.act (transfers a.before s)).isWrite = true := fun h => ha ((actEvent_isWrite _ _).1 h)
      simp [this, h0, ih]

theorem splitAtWrite_bound {evs : List Event} {j : Nat} {r : List Event × Event}
    (h : splitAtWrite j evs = some r) : j < writes evs := by
  induction evs generalizing j r with
  | nil => simp [splitAtWrite] at h
  | cons e evs ih =>
    by_cases hw : e.isWrite = true
    · rw [splitAtWrite_write hw] at h
      cases j with
      | zero => simp [Machine.writes, hw]
      | succ j =>
        simp only [Option.map_eq_some_iff] at h
        obtain ⟨r', hr', _⟩ := h
        have := ih hr'
        simp only [Machine.writes, List.countP_cons, hw, if_true] at *
        omega
    · rw [splitAtWrite_other hw, Option.map_eq_some_iff] at h
      obtain ⟨r', hr', _⟩ := h
      have := ih hr'
      simp only [Machine.writes, List.countP_cons] at *
      omega

theorem splitAtWrite_isSome (evs : List Event) (j : Nat) : (splitAtWrite j evs).isSome ↔ j < writes evs := by
  induction evs generalizing j with
  | nil => simp [splitAtWrite, Machine.writes]
  | cons e evs ih =>
    by_cases hw : e.isWrite = true
    · rw [splitAtWrite_write hw]
      cases j with
      | zero => simp [Machine.writes, hw]
      | succ j => simp [ih, Machine.writes, hw]
    · rw [splitAtWrite_other hw]
      simp [ih, Machine.writes, hw]

theorem writes_okEvents (p : List Micro) (s : State) : writes (okEvents p s) = stepWrites p := by
  induction p generalizing s with
  | nil => rfl
  | cons m ms ih =>
    have := ih (okStep m s)
    simp only [Machine.writes] at this
    simp only [okEvents, stepWrites, Machine.writes, List.countP_cons, this]
    by_cases hm : actWrites m.act = 1
    · simp [(actEvent_isWrite _ _).2 hm, hm]; omega
    · have h0 : actWrites m.act = 0 := by cases h : m.act <;> simp_all [actWrites]
      have : ¬ (actEvent m.act (transfers m.before s)).isWrite = true := fun h => hm ((actEvent_isWrite _ _).1 h)
      simp [this, h0]

/-- The first write of a sequence that does not succeed, as the events say it, is where its run is cut. -/
theorem run_cut (p : List Micro) (s : State) (j : Nat) (o : WriteOutcome) (done : List Event) (e : Event)
    (hsplit : splitAtWrite j (okEvents p s) = some (done, e)) (hj : s.FirstNotOk j o) (ho : o ≠ .ok) :
    ∃ p₁ m p₂, p = p₁ ++ m :: p₂ ∧ actWrites m.act = 1 ∧ done = okEvents p₁ s ∧
      e = actEvent m.act (transfers m.before (okRun p₁ s)) ∧
      (o = .fail → run p s = abort (actCause m.act (transfers m.before (okRun p₁ s)))
        (failEvent m.act (transfers m.before (okRun p₁ s)))) ∧
      (o = .stall → run p s = { stallEvent m.act (transfers m.before (okRun p₁ s)) with
        seq := .stalled (m :: p₂) }) := by
  obtain ⟨hok, hnot⟩ := hj
  have hlt : j < stepWrites p := by have := splitAtWrite_bound hsplit; rwa [writes_okEvents] at this
  obtain ⟨hall, _⟩ | ⟨p₁, m, p₂, rfl, hw, hpre, hcut⟩ := run_cases p s
  · exact absurd (hall j hlt) (by rw [hnot]; exact ho)
  · have hj' : j = stepWrites p₁ := by
      rcases Nat.lt_trichotomy j (stepWrites p₁) with h | h | h
      · exact absurd (hpre j h) (by rw [hnot]; exact ho)
      · exact h
      · have hk := hok _ h
        obtain ⟨hf, _⟩ | ⟨hf, _⟩ := hcut <;> rw [hk] at hf <;> simp at hf
    subst hj'
    rw [splitAtWrite_okEvents p₁ m p₂ s hw] at hsplit
    simp only [Option.some.injEq, Prod.mk.injEq] at hsplit
    refine ⟨p₁, m, p₂, rfl, hw, hsplit.1.symm, hsplit.2.symm, ?_, ?_⟩
    · rintro rfl
      obtain ⟨_, h⟩ | ⟨hf, _⟩ := hcut
      · exact h
      · rw [hnot] at hf; cases hf
    · rintro rfl
      obtain ⟨hf, _⟩ | ⟨_, h⟩ := hcut
      · rw [hnot] at hf; cases hf
      · exact h

end Sys2Proof.Machine
end

