-- ==== Sys2Proof/Laws/Exec.lean ====
section
/-! SUPPORT. What every instruction does at rest, said once: it either answers at once, with nothing driven, or it runs
one of the fixed sequences. Provers argue from `exec_rest` and the facts about the sequences below it. -/

namespace Sys2Proof.Machine

/-! ## Acceptance -/

theorem accept_rest (issued : State → State) {s : State} (h : s.seq = .rest) :
    accept issued s = .next (complete (issued s)) := by
  simp only [accept, h]

theorem dropPartial_none {s : State} (h : s.pending = none) : dropPartial s = s := by
  simp only [dropPartial, h]

theorem dropPartial_some {s : State} {p : Partial} (h : s.pending = some p) :
    dropPartial s = { s with pending := none, results := s.results ++ [.refused .badOperand] } := by
  simp only [dropPartial, h]; rfl

@[simp] theorem dropPartial_pending (s : State) : (dropPartial s).pending = none := by
  unfold dropPartial; split <;> simp_all [refuse]

/-- A reading that neither an answer nor the port's reception alters is kept by the end of a reception. -/
theorem dropPartial_keeps {α : Type} {f : State → α} (ha : ∀ s r, f (State.answer s r) = f s)
    (hp : ∀ s q, f { s with pending := q } = f s) (s : State) : f (dropPartial s) = f s := by
  unfold dropPartial; split
  · rfl
  · rw [refuse, ha, hp]

@[simp] theorem dropPartial_seq (s : State) : (dropPartial s).seq = s.seq :=
  dropPartial_keeps (f := State.seq) (fun _ _ => rfl) (fun _ _ => rfl) s
@[simp] theorem dropPartial_ready (s : State) : (dropPartial s).ready = s.ready :=
  dropPartial_keeps (f := State.ready) (fun _ _ => rfl) (fun _ _ => rfl) s
@[simp] theorem dropPartial_brt (s : State) : (dropPartial s).brt = s.brt :=
  dropPartial_keeps (f := State.brt) (fun _ _ => rfl) (fun _ _ => rfl) s
@[simp] theorem dropPartial_tBit (s : State) : (dropPartial s).tBit = s.tBit :=
  dropPartial_keeps (f := State.tBit) (fun _ _ => rfl) (fun _ _ => rfl) s
@[simp] theorem dropPartial_port (s : State) : (dropPartial s).port = s.port :=
  dropPartial_keeps (f := State.port) (fun _ _ => rfl) (fun _ _ => rfl) s
@[simp] theorem dropPartial_script (s : State) : (dropPartial s).script = s.script :=
  dropPartial_keeps (f := State.script) (fun _ _ => rfl) (fun _ _ => rfl) s
@[simp] theorem dropPartial_writes (s : State) : (dropPartial s).writes = s.writes :=
  dropPartial_keeps (f := State.writes) (fun _ _ => rfl) (fun _ _ => rfl) s
@[simp] theorem dropPartial_trace (s : State) : (dropPartial s).trace = s.trace :=
  dropPartial_keeps (f := State.trace) (fun _ _ => rfl) (fun _ _ => rfl) s
@[simp] theorem dropPartial_wave (s : State) : (dropPartial s).wave = s.wave :=
  dropPartial_keeps (f := State.wave) (fun _ _ => rfl) (fun _ _ => rfl) s
@[simp] theorem dropPartial_frame (s : State) : (dropPartial s).frame = s.frame :=
  dropPartial_keeps (f := State.frame) (fun _ _ => rfl) (fun _ _ => rfl) s
@[simp] theorem dropPartial_txn (s : State) : (dropPartial s).txn = s.txn :=
  dropPartial_keeps (f := State.txn) (fun _ _ => rfl) (fun _ _ => rfl) s
@[simp] theorem dropPartial_dirClk (s : State) : (dropPartial s).dirClk = s.dirClk :=
  dropPartial_keeps (f := State.dirClk) (fun _ _ => rfl) (fun _ _ => rfl) s
@[simp] theorem dropPartial_dirDio (s : State) : (dropPartial s).dirDio = s.dirDio :=
  dropPartial_keeps (f := State.dirDio) (fun _ _ => rfl) (fun _ _ => rfl) s

theorem dropPartial_results (s : State) : (dropPartial s).results =
    s.results ++ (if s.pending.isSome then [.refused .badOperand] else []) := by
  unfold dropPartial; split <;> simp_all [refuse]

/-! ## The two ways an instruction goes -/

/-- How an instruction taken at rest goes on: a sequence run from a state, or an answer at once. -/
inductive Course where
  | runs (p : List Micro) (u : State)
  | answers (t : State)

/-- The state at the first event of a course, or the answer. -/
def Course.issued : Course → State
  | .runs p u => launch p u
  | .answers t => t

/-- The state a course ends in. -/
def Course.final : Course → State
  | .runs p u => run p u
  | .answers t => t

/-- An operation that needs `READY`. -/
def readyCourse (p : List Micro) (u : State) : Course :=
  if u.ready then .runs p u else .answers (refuse .notReady u)

/-- `SETSEG list` as a course. -/
def setsegCourse (segs : List Byte) (u : State) : Course :=
  if u.ready then .runs (setsegSteps segs.length) { u with seg := segs } else .answers (refuse .notReady u)

/-- The reception of a `SETSEG` as a course. -/
def receiveCourse (need : Nat) (got : List Byte) (u : State) : Course :=
  if need ≤ got.length then setsegCourse got { u with pending := none }
  else .answers { u with pending := some ⟨need, got⟩ }

/-- The course of an instruction taken at rest. -/
def course (i : Instr) (s : State) : Course :=
  match i with
  | .init => .runs initSteps (dropPartial s)
  | .start => readyCourse (startSteps (.alone .start) [] [.returnOk]) (dropPartial s)
  | .stop => readyCourse (stopSteps (.alone .stop) [.returnOk]) (dropPartial s)
  | .wrbyte b => readyCourse (byteSteps (.alone .wrbyte) (.loadByte b) [.returnOk]) (dropPartial s)
  | .delay => readyCourse (delaySteps (.alone .delay) [.returnOk]) (dropPartial s)
  | .setbrt v =>
    match brightnessOf v with
    | none => .answers (refuse .badOperand (dropPartial s))
    | some b => .answers (whenReady (fun s => { s with brt := b }.answer .ok) (dropPartial s))
  | .setseg n => receiveCourse n.toNat [] (dropPartial s)
  | .segdata b =>
    match s.pending with
    | none => .answers (refuse .illegalCmd s)
    | some p => receiveCourse p.need (p.got ++ [b]) s
  | .reserved _ _ => .answers (refuse .illegalCmd (dropPartial s))
  | .comm1 => .runs (wireSteps .comm1 comm1Byte) s
  | .comm2 => .runs (wireSteps .comm2 comm2Byte) s
  | .comm3 v => .runs (wireSteps .comm3 (comm3Byte v)) s
  | .segbyte colon segments => .runs (wireSteps .segment (segmentByte colon segments)) s

theorem whenReady_launch (p : List Micro) (u : State) : whenReady (launch p) u = (readyCourse p u).issued := by
  unfold whenReady readyCourse; split <;> rfl

theorem issueSegments_course (segs : List Byte) (u : State) :
    issueSegments segs u = (setsegCourse segs u).issued := by
  unfold issueSegments whenReady setsegCourse; split <;> rfl

theorem receive_course (need : Nat) (got : List Byte) (u : State) :
    receive need got u = (receiveCourse need got u).issued := by
  unfold receive receiveCourse; split
  · exact issueSegments_course _ _
  · rfl

/-- Everything an instruction does when it is taken: its sequence is launched, or it is answered. -/
theorem issue_course (i : Instr) (s : State) : issue i s = (course i s).issued := by
  cases i with
  | start => exact whenReady_launch _ _
  | stop => exact whenReady_launch _ _
  | wrbyte b => exact whenReady_launch _ _
  | delay => exact whenReady_launch _ _
  | setbrt v => simp only [issue, issueSetbrt, course]; cases brightnessOf v <;> rfl
  | setseg n => exact receive_course _ _ _
  | segdata b =>
    simp only [issue, issueSegdata, course]
    cases s.pending with
    | none => rfl
    | some p => exact receive_course _ _ _
  | _ => rfl

/-- The meanings are the issued operations brought to their end. -/
theorem exec_issue (i : Instr) {s : State} (h : s.seq = .rest) : exec i s = .next (complete (issue i s)) := by
  have wire : ∀ slot b, sendWire slot b s = .next (complete (issueWire slot b s)) := by
    intro slot b; simp only [sendWire, h]
  cases i with
  | comm1 => exact wire _ _
  | comm2 => exact wire _ _
  | comm3 v => exact wire _ _
  | segbyte colon segments => exact wire _ _
  | _ => exact accept_rest _ h

theorem receiveCourse_answers_seq {need : Nat} {got : List Byte} {u t : State}
    (h : receiveCourse need got u = .answers t) : t.seq = u.seq := by
  unfold receiveCourse setsegCourse at h
  split at h
  · split at h
    · cases h
    · cases h; rfl
  · cases h; rfl

/-- An answer at once leaves the sequencer as it is. -/
theorem course_answers_seq {i : Instr} {s t : State} (h : course i s = .answers t) : t.seq = s.seq := by
  have ready : ∀ {p : List Micro}, readyCourse p (dropPartial s) = .answers t → t.seq = s.seq := by
    intro p hq
    unfold readyCourse at hq
    split at hq
    · cases hq
    · cases hq; exact dropPartial_seq s
  cases i with
  | start => exact ready h
  | stop => exact ready h
  | wrbyte b => exact ready h
  | delay => exact ready h
  | setbrt v =>
    simp only [course] at h
    split at h
    · cases h; exact dropPartial_seq s
    · cases h; unfold whenReady; split <;> exact dropPartial_seq s
  | setseg n => exact (receiveCourse_answers_seq h).trans (dropPartial_seq s)
  | segdata b =>
    simp only [course] at h
    split at h
    · cases h; rfl
    · exact receiveCourse_answers_seq h
  | reserved op arg => cases h; exact dropPartial_seq s
  | _ => cases h

theorem Course.complete_issued {c : Course} (h : ∀ t, c = .answers t → t.seq = .rest) : complete c.issued = c.final := by
  cases c with
  | runs p u => exact complete_launch p u
  | answers t => exact complete_rest (h t rfl)

theorem setSegments_course (segs : List Byte) {u : State} (h : u.seq = .rest) :
    setSegments segs u = (setsegCourse segs u).final := by
  rw [setSegments, issueSegments_course]
  refine Course.complete_issued fun t ht => ?_
  unfold setsegCourse at ht
  split at ht
  · cases ht
  · cases ht; exact h

/-- Everything an instruction can do at rest. -/
theorem exec_rest (i : Instr) {s : State} (h : s.seq = .rest) : exec i s = .next (course i s).final := by
  rw [exec_issue i h, issue_course, Course.complete_issued fun t ht => (course_answers_seq ht).trans h]

/-- A word that decodes to nothing is refused. -/
theorem rejectWord_rest {s : State} (h : s.seq = .rest) :
    rejectWord s = .next (refuse .badOperand (dropPartial s)) :=
  (accept_rest _ h).trans (congrArg _ (complete_rest ((dropPartial_seq s).trans h)))

theorem exec_stalled (i : Instr) {s : State} {todo : List Micro} (h : s.seq = .stalled todo) :
    exec i s = .fault .stalled := by
  cases i <;> simp [exec, execInit, execStart, execStop, execWrbyte, execDelay, execSetbrt, execSetseg,
    execSegdata, execReserved, execComm1, execComm2, execComm3, execSegbyte, accept, sendWire, h]

theorem exec_running (i : Instr) {s : State} {todo : List Micro} (h : s.seq = .running todo)
    (hi : i.isWire = false) : exec i s = .fault .busy := by
  cases i <;> simp_all [exec, execInit, execStart, execStop, execWrbyte, execDelay, execSetbrt, execSetseg,
    execSegdata, execReserved, accept, Instr.isWire]

/-! ## The sequences -/

/-- The sequences that the instructions run: that of `INIT`, and those of the operations on a ready engine. -/
inductive Runs : Instr → State → List Micro → State → Prop where
  | init (s : State) : Runs .init s initSteps (dropPartial s)
  | start (s : State) : s.ready = true →
      Runs .start s (startSteps (.alone .start) [] [.returnOk]) (dropPartial s)
  | stop (s : State) : s.ready = true → Runs .stop s (stopSteps (.alone .stop) [.returnOk]) (dropPartial s)
  | wrbyte (b : Byte) (s : State) : s.ready = true →
      Runs (.wrbyte b) s (byteSteps (.alone .wrbyte) (.loadByte b) [.returnOk]) (dropPartial s)
  | delay (s : State) : s.ready = true → Runs .delay s (delaySteps (.alone .delay) [.returnOk]) (dropPartial s)
  | setseg (s : State) : s.ready = true →
      Runs (.setseg 0) s (setsegSteps 0) { dropPartial s with seg := [], pending := none }
  | segdata (b : Byte) (p : Partial) (s : State) : s.ready = true → s.pending = some p →
      p.need ≤ p.got.length + 1 →
      Runs (.segdata b) s (setsegSteps (p.got ++ [b]).length) { s with seg := p.got ++ [b], pending := none }
  | wire (i : Instr) (slot : WireSlot) (b : Byte) (s : State) : encode i = .wire slot b →
      Runs i s (wireSteps slot b) s

theorem comm2Byte_eq : comm2Byte = 0xC0#8 := rfl

theorem comm3Byte_append (v : Nibble) : 0x8#4 ++ v = comm3Byte v := by revert v; decide

/-- A course that runs a sequence is one of the listed. -/
theorem course_runs {i : Instr} {s u : State} {p : List Micro} (h : course i s = .runs p u) : Runs i s p u := by
  have ready : ∀ {q : List Micro} {v : State}, readyCourse q v = .runs p u → v.ready = true ∧ q = p ∧ v = u := by
    intro q v hq; unfold readyCourse at hq; split at hq <;> simp_all
  have seg : ∀ {segs : List Byte} {v : State}, setsegCourse segs v = .runs p u →
      v.ready = true ∧ setsegSteps segs.length = p ∧ { v with seg := segs } = u := by
    intro segs v hq; unfold setsegCourse at hq; split at hq <;> simp_all
  have recv : ∀ {need : Nat} {got : List Byte} {v : State}, receiveCourse need got v = .runs p u →
      need ≤ got.length ∧ v.ready = true ∧ setsegSteps got.length = p ∧
        { v with seg := got, pending := none } = u := by
    intro need got v hq
    by_cases hn : need ≤ got.length
    · rw [receiveCourse, if_pos hn] at hq
      obtain ⟨h1, h2, h3⟩ := seg hq
      exact ⟨hn, h1, h2, h3⟩
    · rw [receiveCourse, if_neg hn] at hq
      cases hq
  cases i with
  | init => cases h; exact .init s
  | start => obtain ⟨hr, rfl, rfl⟩ := ready h; exact .start s (by simpa using hr)
  | stop => obtain ⟨hr, rfl, rfl⟩ := ready h; exact .stop s (by simpa using hr)
  | wrbyte b => obtain ⟨hr, rfl, rfl⟩ := ready h; exact .wrbyte b s (by simpa using hr)
  | delay => obtain ⟨hr, rfl, rfl⟩ := ready h; exact .delay s (by simpa using hr)
  | setbrt v => simp only [course] at h; split at h <;> cases h
  | setseg n =>
    obtain ⟨hn, hr, rfl, rfl⟩ := recv h
    have : n = 0 := by
      apply BitVec.eq_of_toNat_eq
      simpa using hn
    subst this
    exact .setseg s (by simpa using hr)
  | segdata b =>
    simp only [course] at h
    cases hp : s.pending with
    | none => simp [hp] at h
    | some q =>
      simp only [hp] at h
      obtain ⟨hn, hr, rfl, rfl⟩ := recv h
      exact .segdata b q s hr hp (by simpa using hn)
  | reserved op arg => cases h
  | comm1 => cases h; exact .wire _ _ _ _ rfl
  | comm2 => cases h; exact .wire _ _ _ _ rfl
  | comm3 v => cases h; exact .wire _ _ _ _ (by rw [encode, comm3Byte_append])
  | segbyte colon segments => cases h; exact .wire _ _ _ _ rfl

/-- What every run of an instruction starts from: the state it was taken in, but for the port's reception, the answer to
a broken one, and the captured list. -/
theorem Runs.from {i : Instr} {s u : State} {p : List Micro} (h : Runs i s p u) :
    u.ready = s.ready ∧ u.brt = s.brt ∧ u.tBit = s.tBit ∧ u.wave = s.wave ∧ (∀ l, u.dir l = s.dir l) ∧
    u.trace = s.trace ∧ u.port = s.port ∧ u.script = s.script ∧ u.writes = s.writes ∧ u.frame = s.frame ∧
    u.txn = s.txn ∧ u.seq = s.seq := by
  have hdir : ∀ l, (dropPartial s).dir l = s.dir l := by intro l; cases l <;> simp [State.dir]
  cases h with
  | setseg =>
    exact ⟨dropPartial_ready s, dropPartial_brt s, dropPartial_tBit s, dropPartial_wave s,
      fun l => by cases l <;> simp [State.dir], dropPartial_trace s, dropPartial_port s, dropPartial_script s,
      dropPartial_writes s, dropPartial_frame s, dropPartial_txn s, dropPartial_seq s⟩
  | segdata =>
    exact ⟨rfl, rfl, rfl, rfl, fun l => by cases l <;> rfl, rfl, rfl, rfl, rfl, rfl, rfl, rfl⟩
  | _ => simp [hdir]

/-- The events of an instruction that runs a sequence are those its rule lists. -/
theorem Runs.events {i : Instr} {s u : State} {p : List Micro} (h : Runs i s p u) :
    okEvents p u = fullEvents i s := by
  cases h with
  | init => rfl
  | start => rfl
  | stop => rfl
  | wrbyte b => exact okEvents_byte _ _ _ b _ rfl
  | delay => rfl
  | setseg =>
    have := okEvents_setseg [] { dropPartial s with pending := none }
    simpa [fullEvents] using this
  | segdata b q _ _ hp hn =>
    have := okEvents_setseg (q.got ++ [b]) { s with pending := none }
    rw [this]
    simp [fullEvents, hp, hn]
  | wire _ slot b _ he =>
    refine (okEvents_byte _ _ _ b _ rfl).trans ?_
    cases i <;> simp_all [encode, fullEvents]
    · rw [← he.2, comm3Byte_append, comm3Byte_eq]

/-- The transfers that write a control register: those of `INIT`. -/
def Transfer.control : Transfer → Bool
  | .clearReady => true
  | .initialise => true
  | _ => false

/-- No step of the sequence writes a control register. -/
def plain (p : List Micro) : Bool := p.all (fun m => (m.before ++ m.after).all (fun t => !t.control))

theorem plain_append (p q : List Micro) : plain (p ++ q) = (plain p && plain q) := by
  simp [plain, List.all_append]

theorem plain_byteSteps (p : Place) (load : Transfer) (after : List Transfer) :
    plain (byteSteps p load after) = (!load.control && after.all (fun t => !t.control)) := by
  simp [plain, byteSteps, bitCell, trailer, Place.step, Transfer.control]

theorem plain_segmentSteps (i n : Nat) : plain (segmentSteps i n) = true := by
  induction n generalizing i with
  | zero => rfl
  | succ n ih => simp [segmentSteps, plain_append, plain_byteSteps, ih, Transfer.control]

theorem plain_setsegSteps (n : Nat) : plain (setsegSteps n) = true := by
  simp only [setsegSteps, comm1FrameSteps, comm2FrameSteps, comm3FrameSteps, plain_append, plain_byteSteps,
    plain_segmentSteps]
  rfl

/-- Every sequence but that of `INIT` leaves the control registers alone. -/
theorem Runs.plain {i : Instr} {s u : State} {p : List Micro} (h : Runs i s p u) (hi : i ≠ .init) :
    Machine.plain p = true := by
  cases h with
  | init => exact absurd rfl hi
  | start => rfl
  | stop => rfl
  | wrbyte b => rw [plain_byteSteps]; rfl
  | delay => rfl
  | setseg => exact plain_setsegSteps 0
  | segdata => exact plain_setsegSteps _
  | wire => rw [wireSteps, plain_byteSteps]; rfl

theorem leaves_of_plain {α : Type} {f : State → α}
    (hf : ∀ t : Transfer, t.control = false → ∀ s, f (transfer t s) = f s) {p : List Micro}
    (hp : Machine.plain p = true) : Leaves f p := by
  intro m hm t ht s
  simp only [Machine.plain, List.all_eq_true] at hp
  exact hf t (by simpa using hp m hm t ht) s

theorem leaves_brt {p : List Micro} (hp : Machine.plain p = true) : Leaves State.brt p :=
  leaves_of_plain (fun t ht s => by cases t <;> first | rfl | cases ht) hp
theorem leaves_tBit {p : List Micro} (hp : Machine.plain p = true) : Leaves State.tBit p :=
  leaves_of_plain (fun t ht s => by cases t <;> first | rfl | cases ht) hp
theorem leaves_ready {p : List Micro} (hp : Machine.plain p = true) : Leaves State.ready p :=
  leaves_of_plain (fun t ht s => by cases t <;> first | rfl | cases ht) hp
theorem leaves_pending (p : List Micro) : Leaves State.pending p :=
  fun _ _ t _ s => by cases t <;> rfl
theorem leaves_port (p : List Micro) : Leaves State.port p :=
  fun _ _ t _ s => by cases t <;> rfl

/-- The results at the end of a run are those at its start and at most one more. -/
theorem okRun_results_of_silent {p : List Micro}
    (h : ∀ m, m ∈ p → ∀ t, t ∈ m.before ++ m.after → t ≠ .returnOk) (s : State) :
    (okRun p s).results = s.results :=
  okRun_keeps (f := State.results) okEvent_results
    (fun m hm t ht s => by
      have := h m hm t ht
      cases t <;> first | rfl | exact absurd rfl this) s

end Sys2Proof.Machine
end

