-- ==== Sys2Proof/Laws/Cut.lean ====
section
/-! SUPPORT. Instructions at rest, continued: the step at the port, the states reached when every write succeeds, and
what holds at the write where a sequence is cut. -/

namespace Sys2Proof.Machine

/-! ## The step at the port -/

theorem step_word {w : CmdWord} {ws : List CmdWord} {s : State} (hs : s.seq = .rest) (hp : s.port = w :: ws) :
    step s = match decodeCommand w with
      | .ok i => .next (course i { s with port := ws }).final
      | .error _ => .next (refuse .badOperand (dropPartial { s with port := ws })) := by
  have hs' : ({ s with port := ws } : State).seq = .rest := hs
  have hst : step s = match decodeCommand w with
      | .ok i => exec i { s with port := ws }
      | .error _ => rejectWord { s with port := ws } := by
    simp only [step, hs, fetch, hp]
    all_goals (cases decodeCommand w <;> rfl)
  rw [hst]
  cases decodeCommand w with
  | ok i => exact exec_rest i hs'
  | error e => exact rejectWord_rest hs'

/-- A wire byte, at rest or where the sequencer stands at it. -/
theorem exec_wire {i : Instr} {slot : WireSlot} {b : Byte} (he : encode i = .wire slot b) (s : State)
    (h : s.seq = .rest ∨ s.seq = .running (wireSteps slot b)) :
    exec i s = .next (run (wireSteps slot b) s) := by
  have key : ∀ slot b, (s.seq = .rest ∨ s.seq = .running (wireSteps slot b)) →
      sendWire slot b s = .next (run (wireSteps slot b) s) := by
    intro slot b h
    rcases h with h | h <;> simp [sendWire, h, issueWire, complete_launch, complete_running]
  cases i <;> simp [encode] at he
  · obtain ⟨rfl, rfl⟩ := he; exact key _ _ h
  · obtain ⟨rfl, rfl⟩ := he; exact key _ _ h
  · obtain ⟨rfl, rfl⟩ := he; rw [comm3Byte_append] at h ⊢; exact key _ _ h
  · obtain ⟨rfl, rfl⟩ := he; exact key _ _ h

/-! ## Every write succeeds -/

theorem State.FirstNotOk.congr {s u : State} {j : Nat} {o : WriteOutcome} (h : s.FirstNotOk j o)
    (hs : u.script = s.script) (hw : u.writes = s.writes) : u.FirstNotOk j o := by
  refine ⟨fun i hi => ?_, ?_⟩ <;> rw [State.outcomeAt_congr hs, hw]
  · exact h.1 i hi
  · exact h.2

theorem State.WritesOk.mono {s : State} {m n : Nat} (h : s.WritesOk n) (hm : m ≤ n) : s.WritesOk m :=
  fun i hi => h i (Nat.lt_of_lt_of_le hi hm)

/-- An operation on an engine that takes it, all its writes succeeding. -/
theorem readyCourse_ok {p : List Micro} {s : State} {n : Nat} (ha : s.Accepts) (hn : stepWrites p = n)
    (hw : s.WritesOk n) : (readyCourse p (dropPartial s)).final = { okRun p s with seq := .rest } := by
  rw [dropPartial_none ha.whole, readyCourse, if_pos ha.ready]
  exact run_ok p s (by rw [hn]; exact hw)

theorem okRun_init (s : State) : okRun initSteps s = { s with
    brt := 15, tBit := Config.tBitNs, ready := true, frame := .idle,
    lvlClk := .high, lvlDio := .high, dirClk := .out, dirDio := .out,
    trace := s.trace ++ [.cfg .clk, .cfg .dio], results := s.results ++ [.ok], writes := s.writes + 2 } := by
  simp only [okRun, initSteps, okStep, Place.step, transfers, transfer, okEvent, State.countWrite, State.record,
    State.initialise, State.answer, State.setDir_clk, State.setDir_dio, State.setLvl_clk, State.setLvl_dio,
    List.append_assoc, List.cons_append, List.nil_append]

theorem setSegments_ok {segs : List Byte} {s : State} (ha : s.Accepts)
    (hw : s.WritesOk (93 + 27 * segs.length)) :
    setSegments segs s = { (s.shown segs).releaseList.answer .ok with seq := .rest } := by
  rw [setSegments_course segs ha.rest, setsegCourse, if_pos ha.ready]
  simp only [Course.final]
  rw [run_ok _ _ (by rw [stepWrites_setseg]; exact hw), okRun_setseg]
  rfl

/-! ## The write where a sequence is cut -/

/-- An instruction that is taken, and has a write in its full trace, runs a sequence. -/
theorem course_of_split {i : Instr} {s : State} {j : Nat} {r : List Event × Event} (ht : Takes i s)
    (hsp : splitAtWrite j (fullEvents i s) = some r) : ∃ p u, course i s = .runs p u := by
  cases hc : course i s with
  | runs p u => exact ⟨p, u, rfl⟩
  | answers t =>
    exfalso
    cases i with
    | init => cases hc
    | start => have := ht.ready (by simp) rfl; simp [course, readyCourse, this] at hc
    | stop => have := ht.ready (by simp) rfl; simp [course, readyCourse, this] at hc
    | wrbyte b => have := ht.ready (by simp) rfl; simp [course, readyCourse, this] at hc
    | delay => have := ht.ready (by simp) rfl; simp [course, readyCourse, this] at hc
    | setbrt v => simp [fullEvents, splitAtWrite] at hsp
    | setseg n =>
      have := ht.ready (by simp) rfl
      by_cases h0 : n = 0
      · subst h0; simp [course, receiveCourse, setsegCourse, this] at hc
      · simp only [fullEvents, if_neg h0, splitAtWrite] at hsp; cases hsp
    | segdata b =>
      have := ht.ready (by simp) rfl
      cases hp : s.pending with
      | none => simp [fullEvents, hp, splitAtWrite] at hsp
      | some q =>
        by_cases hq : q.need ≤ q.got.length + 1
        · simp [course, hp, receiveCourse, hq, setsegCourse, this] at hc
        · simp [fullEvents, hp, hq, splitAtWrite] at hsp
    | reserved op arg => simp [fullEvents, splitAtWrite] at hsp
    | comm1 => cases hc
    | comm2 => cases hc
    | comm3 v => cases hc
    | segbyte c sg => cases hc

/-- Nothing is returned before a sequence that is taken starts; the port's reception is over. -/
theorem Runs.received {i : Instr} {s u : State} {p : List Micro} (h : Runs i s p u) (ht : Takes i s) :
    u.results = s.results ∧ u.pending = (if i.isData then none else s.pending) := by
  cases h with
  | segdata => exact ⟨rfl, rfl⟩
  | setseg => have := ht.whole rfl rfl; simp [dropPartial_none this, this, Instr.isData]
  | wire i slot b s he =>
    refine ⟨rfl, ?_⟩
    cases i <;> simp [encode] at he <;> rfl
  | _ => have := ht.whole rfl rfl; simp [dropPartial_none this, Instr.isData]

/-- A steady reading at a step in the middle of a sequence that leaves it alone. -/
theorem Leaves.at_cut {α : Type} {f : State → α} {p₁ p₂ : List Micro} {m : Micro} (h : Leaves f (p₁ ++ m :: p₂))
    (hf : Steady f) (u : State) : f (transfers m.before (okRun p₁ u)) = f u := by
  have h₁ : Leaves f p₁ := fun x hx => h x (List.mem_append_left _ hx)
  have h₂ : Leaves f (m :: p₂) := fun x hx => h x (List.mem_append_right _ hx)
  rw [h₂.before, okRun_keeps hf.ok h₁]

/-- The transfer returns no result. -/
def Transfer.silent (t : Transfer) : Bool := t ≠ .returnOk

def silent (p : List Micro) : Bool := p.all (fun m => (m.before ++ m.after).all Transfer.silent)

/-- No result is returned but after the last event. -/
def silentToEnd : List Micro → Bool
  | [] => true
  | [m] => m.before.all Transfer.silent
  | m :: m' :: ms => (m.before ++ m.after).all Transfer.silent && silentToEnd (m' :: ms)

theorem silent_append (p q : List Micro) : silent (p ++ q) = (silent p && silent q) := by
  simp [silent, List.all_append]

theorem silentToEnd_append (p : List Micro) (m : Micro) (q : List Micro) :
    silentToEnd (p ++ m :: q) = (silent p && silentToEnd (m :: q)) := by
  induction p with
  | nil => simp [silent]
  | cons a p ih =>
    cases p with
    | nil => simp [silentToEnd, silent]
    | cons b p => simp only [List.cons_append, silentToEnd] at ih ⊢; rw [ih]; simp [silent, Bool.and_assoc]

theorem silent_byteSteps (p : Place) (load : Transfer) (after : List Transfer) :
    silent (byteSteps p load after) = (load.silent && after.all Transfer.silent) := by
  simp [silent, byteSteps, bitCell, trailer, Place.step, Transfer.silent]

theorem silent_segmentSteps (i n : Nat) : silent (segmentSteps i n) = true := by
  induction n generalizing i with
  | zero => rfl
  | succ n ih => simp [segmentSteps, silent_append, silent_byteSteps, ih, Transfer.silent]

theorem silentToEnd_setsegSteps (n : Nat) : silentToEnd (setsegSteps n) = true := by
  have h3 : comm3FrameSteps = (startSteps ⟨.setseg, .comm3Frame, none⟩ [.setTxn .comm3Frame] [] ++
      byteSteps (wirePlace .comm3) .loadBrightness []) ++
        stopSteps ⟨.setseg, .comm3Frame, none⟩ [.setTxn .idle, .releaseList, .returnOk] := by
    simp only [comm3FrameSteps, List.append_assoc]
  rw [setsegSteps, h3, ← List.append_assoc, ← List.append_assoc, stopSteps, silentToEnd_append]
  simp only [comm1FrameSteps, comm2FrameSteps, silent_append, silent_byteSteps, silent_segmentSteps]
  rfl

/-- Every instruction returns its result after its last event. -/
theorem Runs.silentToEnd {i : Instr} {s u : State} {p : List Micro} (h : Runs i s p u) :
    Machine.silentToEnd p = true := by
  have hb : ∀ pl ld af, Transfer.silent ld = true → Machine.silentToEnd (byteSteps pl ld af) = true := by
    intro pl ld af hn
    have h1 : Transfer.silent .shiftOut = true := rfl
    simp [byteSteps, bitCell, trailer, Place.step, Machine.silentToEnd, hn, h1]
  cases h with
  | init => rfl
  | start => rfl
  | stop => rfl
  | wrbyte b => exact hb _ _ _ rfl
  | delay => rfl
  | setseg => exact silentToEnd_setsegSteps 0
  | segdata => exact silentToEnd_setsegSteps _
  | wire => exact hb _ _ _ rfl

theorem transfer_results_of_silent {t : Transfer} (h : t.silent = true) (s : State) :
    (transfer t s).results = s.results := by
  cases t <;> first | rfl | cases h

/-- No result has been returned at a step in the middle of a sequence. -/
theorem results_at_cut {p₁ p₂ : List Micro} {m : Micro} (h : silentToEnd (p₁ ++ m :: p₂) = true) (u : State) :
    (transfers m.before (okRun p₁ u)).results = u.results := by
  rw [silentToEnd_append] at h
  simp only [Bool.and_eq_true] at h
  have hb : m.before.all Transfer.silent = true := by
    cases p₂ with
    | nil => exact h.2
    | cons => simp [silentToEnd] at h; simpa using h.2.1.1
  have hp : (okRun p₁ u).results = u.results := by
    refine okRun_keeps (f := State.results) okEvent_results ?_ u
    intro m hm t ht s
    have := h.1
    simp only [silent, List.all_eq_true] at this
    exact transfer_results_of_silent (this m hm t ht) s
  rw [← hp]
  refine transfers_keep State.results m.before ?_ _
  intro t ht s
  rw [List.all_eq_true] at hb
  exact transfer_results_of_silent (hb t ht) s

/-- The control registers at the step where a sequence is cut: `INIT` has cleared `READY` and not yet written the other
two; no other operation touches any. -/
theorem Runs.control_at_cut {i : Instr} {s u : State} {p₁ p₂ : List Micro} {m : Micro}
    (h : Runs i s (p₁ ++ m :: p₂) u) :
    (transfers m.before (okRun p₁ u)).brt = s.brt ∧ (transfers m.before (okRun p₁ u)).tBit = s.tBit ∧
    (transfers m.before (okRun p₁ u)).ready = (if i = .init then false else s.ready) := by
  obtain ⟨h1, h2, h3, -⟩ := h.from
  by_cases hi : i = .init
  · subst hi
    have hinit : p₁ ++ m :: p₂ = initSteps := by
      generalize p₁ ++ m :: p₂ = p at h
      cases h with
      | init => rfl
      | wire _ _ _ he => simp [encode] at *
    rw [← h2, ← h3]
    match p₁, hinit with
    | [], hp => simp [initSteps] at hp; obtain ⟨rfl, rfl⟩ := hp; exact ⟨rfl, rfl, rfl⟩
    | [a], hp => simp [initSteps] at hp; obtain ⟨rfl, rfl, rfl⟩ := hp; exact ⟨rfl, rfl, rfl⟩
    | a :: b :: p, hp => simp [initSteps] at hp
  · have hp := h.plain hi
    rw [(leaves_brt hp).at_cut steady_brt, (leaves_tBit hp).at_cut steady_tBit,
      (leaves_ready hp).at_cut steady_ready]
    simp [h1, h2, h3, hi]

theorem writes_append (a b : List Event) : writes (a ++ b) = writes a + writes b := List.countP_append ..

theorem writes_byteEvents (b : Byte) : writes (byteEvents b) = 27 := by
  rw [← okEvents_byte (.alone .wrbyte) (.loadByte b) [] b State.reset rfl, writes_okEvents, stepWrites_byte]

end Sys2Proof.Machine
end

