-- ==== Sys2Proof/Laws/Outcome.lean ====
section
/-! SUPPORT. How a run ends, said once in terms of the events its rule lists: to its end, aborted at its first write
that fails, or stuck at its first write that stalls; and what any run keeps. -/

namespace Sys2Proof.Machine

/-! ## The three ends of a run -/

/-- The end of a run that is aborted at the write `e`, after the events `done`, by its write number `j`. -/
structure EndsAborted (u t : State) (j : Nat) (done : List Event) (e : Event) : Prop where
  trace : t.trace = u.trace ++ done ++ [e.failed]
  result : ∃ c, e.cause = some c ∧ t.results = u.results ++ [.hwerr c]
  wave : t.wave = u.wave.after (done ++ [e.failed])
  dir : ∀ l, t.dir l = dirAfter l (u.dir l) (done ++ [e.failed])
  frame : t.frame = .undef
  txn : t.txn = .idle
  seq : t.seq = .rest
  writes : t.writes = u.writes + j + 1

/-- The end of a run that is stuck at the write `e`, after the events `done`, by its write number `j`. -/
structure EndsStuck (u t : State) (j : Nat) (done : List Event) (e : Event) : Prop where
  trace : t.trace = u.trace ++ done
  results : t.results = u.results
  wave : t.wave = u.wave.after (done ++ [e.failed])
  dir : ∀ l, t.dir l = dirAfter l (u.dir l) done
  seq : ∃ todo, t.seq = .stalled todo
  writes : t.writes = u.writes + j + 1

/-- How a run ends, whatever the outcomes of its writes. -/
theorem run_outcome {p : List Micro} (hs : silentToEnd p = true) (u : State) :
    (u.WritesOk (stepWrites p) ∧ run p u = { okRun p u with seq := .rest }) ∨
    (∃ j done e, splitAtWrite j (okEvents p u) = some (done, e) ∧ u.FirstNotOk j .fail ∧
      EndsAborted u (run p u) j done e) ∨
    (∃ j done e, splitAtWrite j (okEvents p u) = some (done, e) ∧ u.FirstNotOk j .stall ∧
      EndsStuck u (run p u) j done e) := by
  obtain ⟨hok, hr⟩ | ⟨p₁, m, p₂, rfl, hw, hpre, ⟨ho, hr⟩ | ⟨ho, hr⟩⟩ := run_cases p u
  · exact .inl ⟨hok, hr⟩
  · refine .inr (.inl ⟨stepWrites p₁, okEvents p₁ u, _, splitAtWrite_okEvents p₁ m p₂ u hw, ⟨hpre, ho⟩, ?_⟩)
    rw [hr]
    constructor
    · rw [abort_trace, failEvent_trace _ hw, transfers_trace, okRun_trace]
    · exact ⟨_, actEvent_cause _ hw, by rw [abort_results, failEvent_results, results_at_cut hs]⟩
    · rw [abort_wave, failEvent_wave _ hw, transfers_wave, okRun_wave, Wave.after_concat]
    · intro l
      rw [abort_dir, failEvent_dir _ _ hw, transfers_dir, okRun_dir, dirAfter_append]
    · rfl
    · rfl
    · rfl
    · rw [abort_writes, failEvent_writes _ hw, transfers_writes, okRun_writes]
  · refine .inr (.inr ⟨stepWrites p₁, okEvents p₁ u, _, splitAtWrite_okEvents p₁ m p₂ u hw, ⟨hpre, ho⟩, ?_⟩)
    rw [hr]
    constructor
    · show (stallEvent _ _).trace = _
      rw [stallEvent_trace, transfers_trace, okRun_trace]
    · show (stallEvent _ _).results = _
      rw [stallEvent_results, results_at_cut hs]
    · show (stallEvent _ _).wave = _
      rw [stallEvent_wave _ hw, transfers_wave, okRun_wave, Wave.after_concat]
    · intro l
      show (stallEvent _ _).dir l = _
      rw [stallEvent_dir, transfers_dir, okRun_dir]
    · exact ⟨_, rfl⟩
    · show (stallEvent _ _).writes = _
      rw [stallEvent_writes _ hw, transfers_writes, okRun_writes]

/-- The place of the first write that does not succeed, and its outcome, are the environment's alone. -/
theorem State.FirstNotOk.unique {u : State} {j k : Nat} {o o' : WriteOutcome} (h : u.FirstNotOk j o)
    (h' : u.FirstNotOk k o') (ho : o ≠ .ok) (ho' : o' ≠ .ok) : j = k ∧ o = o' := by
  have hjk : j = k := by
    rcases Nat.lt_trichotomy j k with hlt | rfl | hlt
    · exact absurd (h.2.symm.trans (h'.1 j hlt)) ho
    · rfl
    · exact absurd (h'.2.symm.trans (h.1 k hlt)) ho'
  subst hjk
  exact ⟨rfl, h.2.symm.trans h'.2⟩

theorem State.FirstNotOk.not_writesOk {u : State} {j n : Nat} {o : WriteOutcome} (h : u.FirstNotOk j o)
    (ho : o ≠ .ok) (hj : j < n) : ¬ u.WritesOk n :=
  fun hn => ho (h.2.symm.trans (hn j hj))

/-- Where a trace is cut: the events before the write, the write, the rest. -/
theorem splitAtWrite_append {evs done : List Event} {j : Nat} {e : Event}
    (h : splitAtWrite j evs = some (done, e)) : ∃ rest, evs = done ++ e :: rest := by
  induction evs generalizing j done with
  | nil => simp [splitAtWrite] at h
  | cons a evs ih =>
    have key : ∀ j, (splitAtWrite j evs).map (fun p => (a :: p.1, p.2)) = some (done, e) →
        ∃ rest, a :: evs = done ++ e :: rest := by
      intro j hm
      rw [Option.map_eq_some_iff] at hm
      obtain ⟨⟨d, e'⟩, hs, he⟩ := hm
      obtain ⟨rest, rfl⟩ := ih (done := d) (by rw [hs]; simp at he; rw [he.2])
      simp only [Prod.mk.injEq] at he
      exact ⟨rest, by rw [← he.1]; rfl⟩
    by_cases hw : a.isWrite = true
    · rw [splitAtWrite_write hw] at h
      cases j with
      | zero => simp at h; exact ⟨evs, by rw [h.1, h.2]; rfl⟩
      | succ j => exact key j h
    · rw [splitAtWrite_other hw] at h
      exact key j h

/-! ## Failures in traces -/

theorem failures_append (a b : List Event) : failures (a ++ b) = failures a + failures b := List.countP_append ..

theorem actEvent_isFailure (a : Act) (s : State) : (actEvent a s).isFailure = false := by cases a <;> rfl

theorem okEvents_noFailure (p : List Micro) (s : State) : ∀ e, e ∈ okEvents p s → e.isFailure = false := by
  induction p generalizing s with
  | nil => simp [okEvents]
  | cons m ms ih =>
    intro e he
    rcases List.mem_cons.1 he with rfl | he
    · exact actEvent_isFailure _ _
    · exact ih _ e he

theorem failures_okEvents (p : List Micro) (s : State) : failures (okEvents p s) = 0 :=
  List.countP_eq_zero.2 fun e he => by simp [okEvents_noFailure p s e he]

theorem failures_done {p : List Micro} {s : State} {j : Nat} {done : List Event} {e : Event}
    (h : splitAtWrite j (okEvents p s) = some (done, e)) : failures done = 0 := by
  obtain ⟨rest, hr⟩ := splitAtWrite_append h
  have := failures_okEvents p s
  rw [hr, failures_append] at this
  omega

theorem failed_isFailure {e : Event} {c : Cause} (h : e.cause = some c) : e.failed.isFailure = true := by
  cases e <;> simp_all [Event.cause, Event.failed, Event.isFailure]

/-! ## What any run keeps -/

/-- No step of the sequence alters the reading, whatever the outcome of its write. -/
structure Untouched {α : Type} (f : State → α) (p : List Micro) : Prop where
  ok : ∀ m, m ∈ p → ∀ s, f (okEvent m.act s) = f s
  fail : ∀ m, m ∈ p → ∀ s, f (failEvent m.act s) = f s
  stall : ∀ m, m ∈ p → ∀ s, f (stallEvent m.act s) = f s
  leaves : Leaves f p

theorem Untouched.tail {α : Type} {f : State → α} {m : Micro} {ms : List Micro} (h : Untouched f (m :: ms)) :
    Untouched f ms where
  ok m' hm := h.ok m' (List.mem_cons_of_mem _ hm)
  fail m' hm := h.fail m' (List.mem_cons_of_mem _ hm)
  stall m' hm := h.stall m' (List.mem_cons_of_mem _ hm)
  leaves := h.leaves.tail

theorem Untouched.okStep {α : Type} {f : State → α} {m : Micro} {ms : List Micro} (h : Untouched f (m :: ms))
    (s : State) : f (okStep m s) = f s := by
  rw [Machine.okStep, h.leaves.after, h.ok m (List.mem_cons_self ..), h.leaves.before]

/-- A run keeps an untouched reading that an abort and the end of a run keep. -/
theorem run_untouched {α : Type} {f : State → α} (hab : ∀ c s, f (abort c s) = f s)
    (hseq : ∀ q s, f { s with seq := q } = f s) {p : List Micro} (h : Untouched f p) (s : State) :
    f (run p s) = f s := by
  induction p generalizing s with
  | nil => exact hseq _ _
  | cons m ms ih =>
    obtain ⟨_, he⟩ | ⟨_, _, he⟩ | ⟨_, _, he⟩ := perform_cases m s
    · rw [run, he]; exact (ih h.tail _).trans (h.okStep s)
    · rw [run, he]
      exact (hab _ _).trans ((h.fail m (List.mem_cons_self ..) _).trans (h.leaves.before s))
    · rw [run, he]
      exact (hseq _ _).trans ((h.stall m (List.mem_cons_self ..) _).trans (h.leaves.before s))

/-- A run that is not aborted keeps an untouched reading, also one that an abort gives up. -/
theorem run_untouched_or_aborted {α : Type} {f : State → α} (hseq : ∀ q s, f { s with seq := q } = f s)
    {p : List Micro} (h : Untouched f p) (hs : silentToEnd p = true) (s : State) :
    (∃ c, (run p s).results = s.results ++ [.hwerr c]) ∨ f (run p s) = f s := by
  obtain ⟨hok, hr⟩ | ⟨p₁, m, p₂, rfl, hw, hpre, ⟨ho, hr⟩ | ⟨ho, hr⟩⟩ := run_cases p s
  · right
    rw [hr, hseq]
    clear hr hok hs
    induction p generalizing s with
    | nil => rfl
    | cons m ms ih => rw [okRun, ih h.tail, h.okStep]
  · left
    exact ⟨_, by rw [hr, abort_results, failEvent_results, results_at_cut hs]⟩
  · right
    rw [hr, hseq, h.stall m (by simp)]
    have h₂ : Leaves f (m :: p₂) := fun x hx => h.leaves x (List.mem_append_right _ hx)
    rw [h₂.before]
    have hpre' : ∀ (q : List Micro), Untouched f (q ++ m :: p₂) → ∀ s, f (okRun q s) = f s := by
      intro q
      induction q with
      | nil => intro _ s; rfl
      | cons a q ih => intro hq s; rw [okRun, ih (Untouched.tail hq), Untouched.okStep hq]
    exact hpre' p₁ h s

/-- Traces and results only grow in a run. -/
theorem run_grows (p : List Micro) (s : State) :
    s.trace <+: (run p s).trace ∧ s.results <+: (run p s).results := by
  have htr : ∀ (ts : List Transfer) (s : State), s.results <+: (transfers ts s).results := by
    intro ts
    induction ts with
    | nil => intro s; exact List.prefix_rfl
    | cons t ts ih =>
      intro s
      refine List.IsPrefix.trans ?_ (ih _)
      cases t <;> first | exact List.prefix_rfl | exact List.prefix_append ..
  induction p generalizing s with
  | nil => exact ⟨List.prefix_rfl, List.prefix_rfl⟩
  | cons m ms ih =>
    obtain ⟨_, he⟩ | ⟨hw, _, he⟩ | ⟨_, _, he⟩ := perform_cases m s
    · rw [run, he]
      obtain ⟨h₁, h₂⟩ := ih (okStep m s)
      refine ⟨List.IsPrefix.trans (by simp) h₁, List.IsPrefix.trans ?_ h₂⟩
      rw [okStep]
      refine List.IsPrefix.trans (htr m.before s) ?_
      rw [← okEvent_results m.act]
      exact htr _ _
    · rw [run, he]
      simp only [abort_trace, failEvent_trace _ hw, transfers_trace, abort_results, failEvent_results]
      exact ⟨List.prefix_append .., (htr m.before s).trans (List.prefix_append ..)⟩
    · rw [run, he]
      show _ <+: (stallEvent _ _).trace ∧ _ <+: (stallEvent _ _).results
      simp only [stallEvent_trace, transfers_trace, stallEvent_results]
      exact ⟨List.prefix_rfl, htr m.before s⟩

/-! ## The runs of the instructions -/

/-- A sequence that configures no line. -/
def configFree (p : List Micro) : Bool :=
  p.all (fun m => match m.act with
    | .config _ => false
    | .write _ _ => true
    | .sendBit => true
    | .delay => true)

theorem configFree_append (p q : List Micro) : configFree (p ++ q) = (configFree p && configFree q) := by
  simp [configFree, List.all_append]

theorem configFree_byteSteps (p : Place) (load : Transfer) (after : List Transfer) :
    configFree (byteSteps p load after) = true := by
  simp [configFree, byteSteps, bitCell, trailer, Place.step]

theorem configFree_segmentSteps (i n : Nat) : configFree (segmentSteps i n) = true := by
  induction n generalizing i with
  | zero => rfl
  | succ n ih => simp [segmentSteps, configFree_append, configFree_byteSteps, ih]

theorem configFree_setsegSteps (n : Nat) : configFree (setsegSteps n) = true := by
  simp only [setsegSteps, comm1FrameSteps, comm2FrameSteps, comm3FrameSteps, configFree_append,
    configFree_byteSteps, configFree_segmentSteps]
  rfl

/-- `INIT` alone configures the lines (R32). -/
theorem Runs.configFree {i : Instr} {s u : State} {p : List Micro} (h : Runs i s p u) (hi : i ≠ .init) :
    Machine.configFree p = true := by
  cases h with
  | init => exact absurd rfl hi
  | start => rfl
  | stop => rfl
  | wrbyte b => exact configFree_byteSteps ..
  | delay => rfl
  | setseg => exact configFree_setsegSteps 0
  | segdata => exact configFree_setsegSteps _
  | wire => exact configFree_byteSteps ..

theorem untouched_dir {p : List Micro} (h : configFree p = true) (l : Line) :
    Untouched (fun s => s.dir l) p := by
  have hact : ∀ m, m ∈ p → ∀ l', m.act ≠ .config l' := by
    intro m hm l' ha
    simp only [configFree, List.all_eq_true] at h
    have := h m hm
    rw [ha] at this
    cases this
  have hlvl : ∀ (s : State) (l' : Line) (v : Level), (s.setLvl l' v).dir l = s.dir l := by
    intro s l' v; cases l <;> cases l' <;> rfl
  constructor
  · intro m hm s
    have := hact m hm
    cases ha : m.act <;> simp_all [okEvent, State.record, State.countWrite] <;> cases l <;> simp [State.dir]
  · intro m hm s
    have := hact m hm
    cases ha : m.act <;> simp_all [failEvent, State.record, State.countWrite] <;> cases l <;> simp [State.dir]
  · intro m hm s
    exact stallEvent_dir ..
  · intro m hm t ht s
    exact transfer_dir t s l

/-- The result of an operation whose writes all succeed; a wire byte returns none of its own. -/
theorem Runs.okResults {i : Instr} {s u : State} {p : List Micro} (h : Runs i s p u) :
    (okRun p u).results = u.results ++ (if i.isWire then [] else [.ok]) := by
  cases h with
  | init => rw [okRun_init]; rfl
  | start => rw [okRun_start]; rfl
  | stop => rw [okRun_stop]; rfl
  | wrbyte b => rw [okRun_byte _ _ _ b _ rfl]; rfl
  | delay => rfl
  | setseg =>
    have := okRun_setseg [] { dropPartial s with pending := none }
    exact (congrArg State.results this).trans rfl
  | segdata b q _ _ _ _ =>
    have := okRun_setseg (q.got ++ [b]) { s with pending := none }
    exact (congrArg State.results this).trans rfl
  | wire _ slot b _ he =>
    have hw : i.isWire = true := by cases i <;> simp [encode] at he <;> rfl
    rw [wireSteps, okRun_byte _ _ _ b _ rfl, if_pos hw, List.append_nil]
    rfl

end Sys2Proof.Machine
end

