-- ==== Sys2Proof/Laws/Answer.lean ====
section
/-! SUPPORT. What an instruction taken at rest does when it runs no sequence: it answers at once. -/

namespace Sys2Proof.Machine

/-- Results that are no abort, each with a word the spec lists. -/
structure Plain (rs : List OpResult) : Prop where
  noAbort : rs.countP OpResult.isAbort = 0
  legal : ∀ r, r ∈ rs → r.word ∈ legalWords

theorem Plain.nil : Plain [] := ⟨rfl, by simp⟩

theorem Plain.ok : Plain [.ok] := ⟨rfl, by decide⟩

theorem Plain.refused (r : Reason) : Plain [.refused r] := by cases r <;> exact ⟨rfl, by decide⟩

theorem Plain.append {a b : List OpResult} (ha : Plain a) (hb : Plain b) : Plain (a ++ b) where
  noAbort := by rw [List.countP_append, ha.noAbort, hb.noAbort]
  legal r hr := (List.mem_append.1 hr).elim (ha.legal r) (hb.legal r)

/-- The answer at once: nothing is driven and nothing written but the brightness, by `SETBRT`; the results grow by
`OK` or refusals; a reception that goes on still needs a word. -/
structure Answered (i : Instr) (s t : State) : Prop where
  ready : t.ready = s.ready
  brt : (∀ v, i ≠ .setbrt v) → t.brt = s.brt
  tBit : t.tBit = s.tBit
  wave : t.wave = s.wave
  dir : ∀ l, t.dir l = s.dir l
  trace : t.trace = s.trace
  port : t.port = s.port
  script : t.script = s.script
  writes : t.writes = s.writes
  frame : t.frame = s.frame
  txn : t.txn = s.txn
  seq : t.seq = s.seq
  results : ∃ rs, t.results = s.results ++ rs ∧ Plain rs
  pending : ∀ p, t.pending = some p →
    p.got.length < p.need ∧ (p.need ≤ 255 ∨ ∃ q, s.pending = some q ∧ q.need = p.need)

theorem dropPartial_plain (s : State) : ∃ rs, (dropPartial s).results = s.results ++ rs ∧ Plain rs := by
  rw [dropPartial_results]
  refine ⟨_, rfl, ?_⟩
  split
  · exact Plain.refused _
  · exact Plain.nil

theorem dropPartial_pending_none (s : State) : { dropPartial s with pending := none } = dropPartial s := by
  have := dropPartial_pending s
  generalize dropPartial s = v at *
  cases v
  simp_all

/-- An answer given after the port's reception has ended. -/
theorem answered_drop (i : Instr) {s t : State} {r : OpResult} (hr : Plain [r])
    (h : t = (dropPartial s).answer r) : Answered i s t := by
  subst h
  obtain ⟨rs, h₁, h₂⟩ := dropPartial_plain s
  refine ⟨dropPartial_ready s, fun _ => dropPartial_brt s, dropPartial_tBit s, dropPartial_wave s, ?_,
    dropPartial_trace s, dropPartial_port s, dropPartial_script s, dropPartial_writes s, dropPartial_frame s,
    dropPartial_txn s, dropPartial_seq s, ⟨rs ++ [r], ?_, h₂.append hr⟩, ?_⟩
  · intro l; cases l <;> simp [State.dir]
  · rw [State.answer_results, h₁, List.append_assoc]
  · intro p hp
    have : (dropPartial s).pending = some p := hp
    simp at this

theorem course_answers {i : Instr} {s t : State} (h : course i s = .answers t) : Answered i s t := by
  have notReady : ∀ {p : List Micro}, readyCourse p (dropPartial s) = .answers t → Answered i s t := by
    intro p hq
    unfold readyCourse at hq
    split at hq
    · cases hq
    · cases hq
      exact answered_drop i (Plain.refused .notReady) rfl
  cases i with
  | init => cases h
  | start => exact notReady h
  | stop => exact notReady h
  | wrbyte b => exact notReady h
  | delay => exact notReady h
  | reserved op arg => cases h; exact answered_drop _ (Plain.refused .illegalCmd) rfl
  | comm1 => cases h
  | comm2 => cases h
  | comm3 v => cases h
  | segbyte colon segments => cases h
  | setbrt v =>
    simp only [course] at h
    split at h
    · cases h; exact answered_drop _ (Plain.refused .badOperand) rfl
    · rename_i b _
      unfold whenReady at h
      split at h
      · cases h
        have ha := answered_drop (s := s) (.setbrt v) Plain.ok rfl
        exact ⟨ha.ready, fun hv => absurd rfl (hv v), ha.tBit, ha.wave, ha.dir, ha.trace, ha.port, ha.script,
          ha.writes, ha.frame, ha.txn, ha.seq, ha.results, ha.pending⟩
      · cases h; exact answered_drop _ (Plain.refused .notReady) rfl
  | setseg n =>
    simp only [course, receiveCourse] at h
    split at h
    · unfold setsegCourse at h
      split at h
      · cases h
      · rw [dropPartial_pending_none] at h
        cases h
        exact answered_drop _ (Plain.refused .notReady) rfl
    · rename_i hn
      cases h
      refine ⟨dropPartial_ready s, fun _ => dropPartial_brt s, dropPartial_tBit s, dropPartial_wave s, ?_,
        dropPartial_trace s, dropPartial_port s, dropPartial_script s, dropPartial_writes s, dropPartial_frame s,
        dropPartial_txn s, dropPartial_seq s, dropPartial_plain s, ?_⟩
      · intro l; cases l <;> simp [State.dir]
      · intro p hp
        cases hp
        have := n.isLt
        exact ⟨Nat.lt_of_not_le hn, .inl (by show n.toNat ≤ 255; omega)⟩
  | segdata b =>
    simp only [course] at h
    split at h
    · rename_i hq
      cases h
      refine ⟨rfl, fun _ => rfl, rfl, rfl, fun _ => rfl, rfl, rfl, rfl, rfl, rfl, rfl, rfl,
        ⟨_, rfl, Plain.refused .illegalCmd⟩, ?_⟩
      intro p hp
      have : s.pending = some p := hp
      rw [hq] at this
      cases this
    · rename_i q hq
      simp only [receiveCourse] at h
      split at h
      · unfold setsegCourse at h
        split at h
        · cases h
        · cases h
          exact ⟨rfl, fun _ => rfl, rfl, rfl, fun _ => rfl, rfl, rfl, rfl, rfl, rfl, rfl, rfl,
            ⟨_, rfl, Plain.refused .notReady⟩, by intro p hp; cases hp⟩
      · rename_i hn
        cases h
        refine ⟨rfl, fun _ => rfl, rfl, rfl, fun _ => rfl, rfl, rfl, rfl, rfl, rfl, rfl, rfl,
          ⟨[], (List.append_nil _).symm, Plain.nil⟩, ?_⟩
        intro p hp
        cases hp
        exact ⟨Nat.lt_of_not_le hn, .inr ⟨q, hq, rfl⟩⟩

/-- The results with which a sequence that runs starts: those before it, and a refusal of a reception it ended. -/
theorem Runs.startResults {i : Instr} {s u : State} {p : List Micro} (h : Runs i s p u) :
    ∃ rs, u.results = s.results ++ rs ∧ Plain rs := by
  cases h with
  | segdata => exact ⟨[], (List.append_nil _).symm, Plain.nil⟩
  | setseg => exact dropPartial_plain s
  | wire => exact ⟨[], (List.append_nil _).symm, Plain.nil⟩
  | _ => exact dropPartial_plain s

/-- The reception is over when a sequence runs, or the sequence is a wire byte's. -/
theorem Runs.startPending {i : Instr} {s u : State} {p : List Micro} (h : Runs i s p u) :
    u.pending = (if i.isWire then s.pending else none) := by
  cases h with
  | wire i slot b s he =>
    have hw : i.isWire = true := by cases i <;> simp [encode] at he <;> rfl
    rw [if_pos hw]
  | _ => simp [Instr.isWire]

/-- A next state of an instruction is the end of one of the sequences, or an answer at once. -/
theorem exec_next {i : Instr} {s t : State} (h : exec i s = .next t) :
    (∃ p u, Runs i s p u ∧ t = run p u) ∨ (s.seq = .rest ∧ Answered i s t) := by
  cases hq : s.seq with
  | stalled todo => rw [exec_stalled i hq] at h; cases h
  | rest =>
    rw [exec_rest i hq] at h
    injection h with h
    cases hc : course i s with
    | runs p u => rw [hc] at h; exact .inl ⟨p, u, course_runs hc, h.symm⟩
    | answers t' => rw [hc] at h; exact .inr ⟨rfl, h ▸ course_answers hc⟩
  | running todo =>
    cases hw : i.isWire with
    | false => rw [exec_running i hq hw] at h; cases h
    | true =>
      have key : ∀ slot b, sendWire slot b s = .next t → encode i = .wire slot b →
          ∃ p u, Runs i s p u ∧ t = run p u := by
        intro slot b hs he
        by_cases ht : todo = wireSteps slot b
        · simp only [sendWire, hq, ht, if_true] at hs
          injection hs with hs
          exact ⟨_, s, .wire i slot b s he, by rw [← hs, complete_running hq, ht]⟩
        · simp only [sendWire, hq, if_neg ht] at hs
          cases hs
      cases i with
      | comm1 => exact .inl (key _ _ h rfl)
      | comm2 => exact .inl (key _ _ h rfl)
      | comm3 v => exact .inl (key _ _ h (by rw [encode, comm3Byte_append]))
      | segbyte colon segments => exact .inl (key _ _ h rfl)
      | _ => cases hw

theorem seq_cases (s : State) :
    s.seq = .rest ∨ (∃ todo, s.seq = .running todo) ∨ (∃ todo, s.seq = .stalled todo) := by
  cases s.seq <;> simp

/-- The command port gives no wire byte. -/
theorem decodeCommand_not_wire {w : CmdWord} {i : Instr} (h : decodeCommand w = .ok i) : i.isWire = false := by
  unfold decodeCommand noOperand at h
  split at h <;> (try split at h) <;> first | (injection h with h; subst h; rfl) | cases h

/-- Everything a step can do that is no stop: wait for a word, run the rest of a sequence, execute the instruction a word
decodes to, or refuse a word. -/
theorem step_next {s t : State} (h : step s = .next t) :
    (s.seq = .rest ∧ s.port = [] ∧ t = s) ∨ (∃ todo, s.seq = .running todo ∧ t = run todo s) ∨
    (∃ w ws, s.seq = .rest ∧ s.port = w :: ws ∧
      ((∃ i, decodeCommand w = .ok i ∧ exec i { s with port := ws } = .next t) ∨
        (∃ e, decodeCommand w = .error e ∧ t = refuse .badOperand (dropPartial { s with port := ws }) ∧
          Answered .init { s with port := ws } t))) := by
  rcases seq_cases s with hq | ⟨todo, hq⟩ | ⟨todo, hq⟩
  · cases hp : s.port with
    | nil =>
      simp only [step, hq, fetch, hp] at h
      injection h with h
      exact .inl ⟨hq, rfl, h.symm⟩
    | cons w ws =>
      refine .inr (.inr ⟨w, ws, hq, rfl, ?_⟩)
      have hq' : ({ s with port := ws } : State).seq = .rest := hq
      rw [step_word hq hp] at h
      cases hd : decodeCommand w with
      | ok i =>
        rw [hd] at h
        exact .inl ⟨i, rfl, (exec_rest i hq').trans h⟩
      | error e =>
        rw [hd] at h
        injection h with h
        exact .inr ⟨e, rfl, h.symm, answered_drop .init (Plain.refused .badOperand) h.symm⟩
  · simp only [step, hq] at h
    injection h with h
    exact .inr (.inl ⟨todo, hq, h.symm⟩)
  · simp only [step, hq] at h; cases h

end Sys2Proof.Machine
end

