-- ==== Sys2Proof/Laws/Events.lean ====
section
/-! SUPPORT. The event sequences of bytes and frames: their counts, their waveform, what a listener takes from them;
and frames issued word by word. -/

namespace Sys2Proof.Machine

/-! ## Counts -/

theorem byteEvents_cells (b : Byte) : byteEvents b =
    cellEvents (b.getLsbD 0) ++ (cellEvents (b.getLsbD 1) ++ (cellEvents (b.getLsbD 2) ++
      (cellEvents (b.getLsbD 3) ++ (cellEvents (b.getLsbD 4) ++ (cellEvents (b.getLsbD 5) ++
        (cellEvents (b.getLsbD 6) ++ (cellEvents (b.getLsbD 7) ++ trailerEvents))))))) := by
  simp [byteEvents, show List.range 8 = [0, 1, 2, 3, 4, 5, 6, 7] from rfl]

theorem writesTo_append (l : Line) (a b : List Event) : writesTo l (a ++ b) = writesTo l a + writesTo l b :=
  List.countP_append ..

theorem delays_append (a b : List Event) : delays (a ++ b) = delays a + delays b := List.countP_append ..

theorem alternates_append {a b : List Event} (ha : alternates a = true) (hb : alternates b = true) :
    alternates (a ++ b) = true := by
  match a, ha with
  | [], _ => exact hb
  | [x], h => simp [alternates] at h
  | x :: y :: r, h =>
    simp only [alternates, Bool.and_eq_true] at h
    simp only [List.cons_append, alternates, Bool.and_eq_true]
    exact ⟨h.1, alternates_append h.2 hb⟩
termination_by a.length

/-- The counts of a trace: writes of CLK, writes of DIO, delays, and whether it is a strict alternation of writes and
delays. -/
structure Counts (tr : List Event) (clk dio del : Nat) : Prop where
  clk : writesTo .clk tr = clk
  dio : writesTo .dio tr = dio
  delays : Machine.delays tr = del
  writes : Machine.writes tr = del
  length : tr.length = 2 * del
  alternates : Machine.alternates tr = true

theorem Counts.append {a b : List Event} {c d e c' d' e' : Nat} (ha : Counts a c d e) (hb : Counts b c' d' e') :
    Counts (a ++ b) (c + c') (d + d') (e + e') where
  clk := by rw [writesTo_append, ha.clk, hb.clk]
  dio := by rw [writesTo_append, ha.dio, hb.dio]
  delays := by rw [delays_append, ha.delays, hb.delays]
  writes := by rw [writes_append, ha.writes, hb.writes]
  length := by rw [List.length_append, ha.length, hb.length]; omega
  alternates := alternates_append ha.alternates hb.alternates

theorem Counts.of_eq {a : List Event} {c d e c' d' e' : Nat} (h : Counts a c d e) (hc : c = c') (hd : d = d')
    (he : e = e') : Counts a c' d' e' := by subst hc hd he; exact h

theorem counts_start : Counts startEvents 0 1 1 := ⟨rfl, rfl, rfl, rfl, rfl, rfl⟩
theorem counts_stop : Counts stopEvents 1 2 3 := ⟨rfl, rfl, rfl, rfl, rfl, rfl⟩
theorem counts_byte (b : Byte) : Counts (byteEvents b) 19 8 27 := ⟨rfl, rfl, rfl, rfl, rfl, rfl⟩

theorem counts_bytes (bytes : List Byte) :
    Counts (bytes.flatMap byteEvents) (19 * bytes.length) (8 * bytes.length) (27 * bytes.length) := by
  induction bytes with
  | nil => exact ⟨rfl, rfl, rfl, rfl, rfl, rfl⟩
  | cons b bs ih =>
    rw [List.flatMap_cons]
    refine ((counts_byte b).append ih).of_eq ?_ ?_ ?_ <;> simp <;> omega

theorem counts_frame (bytes : List Byte) : Counts (frameEvents bytes) (1 + 19 * bytes.length)
    (3 + 8 * bytes.length) (4 + 27 * bytes.length) :=
  ((counts_start.append (counts_bytes bytes)).append counts_stop).of_eq (by omega) (by omega) (by omega)

/-! ## Levels -/

theorem edges_append (l : Line) (x y : Level) (w : Wave) (a b : List Event) :
    edges l x y w (a ++ b) = edges l x y w a + edges l x y (w.after a) b := by
  induction a generalizing w with
  | nil => simp [edges, Wave.after]
  | cons e a ih => simp [edges, ih, Wave.after]; omega

/-- A level of DIO after a write. -/
abbrev Level.driven (v : Bool) : Level := if v then .high else .low

theorem wave_after_byte (w : Wave) (b : Byte) : w.after (byteEvents b) = ⟨.low, .driven (b.getLsbD 7)⟩ := rfl

theorem wave_after_cell (w : Wave) (v : Bool) : w.after (cellEvents v) = ⟨.high, .driven v⟩ := rfl

theorem edges_cell (c d : Level) (v : Bool) (hc : c = .low ∨ c = .high) :
    risingEdges .clk ⟨c, d⟩ (cellEvents v) = 1 ∧
    fallingEdges .clk ⟨c, d⟩ (cellEvents v) = (if c = .high then 1 else 0) := by
  rcases hc with rfl | rfl <;> exact ⟨rfl, rfl⟩

theorem edges_trailer (d : Level) :
    risingEdges .clk ⟨.high, d⟩ trailerEvents = 1 ∧ fallingEdges .clk ⟨.high, d⟩ trailerEvents = 2 := ⟨rfl, rfl⟩

theorem risingEdges_append (l : Line) (w : Wave) (a b : List Event) :
    risingEdges l w (a ++ b) = risingEdges l w a + risingEdges l (w.after a) b := edges_append ..

theorem fallingEdges_append (l : Line) (w : Wave) (a b : List Event) :
    fallingEdges l w (a ++ b) = fallingEdges l w a + fallingEdges l (w.after a) b := edges_append ..

/-- The edges of CLK in a byte entered with CLK at 0 or at 1. -/
theorem edges_byte (c d : Level) (b : Byte) (hc : c = .low ∨ c = .high) :
    risingEdges .clk ⟨c, d⟩ (byteEvents b) = 9 ∧
    fallingEdges .clk ⟨c, d⟩ (byteEvents b) = (if c = .high then 10 else 9) := by
  have cell := fun v => edges_cell c d v hc
  have cell' := fun d v => edges_cell .high d v (.inr rfl)
  rw [byteEvents_cells]
  simp only [risingEdges_append, fallingEdges_append, wave_after_cell, (cell _).1, (cell _).2, (cell' _ _).1,
    (cell' _ _).2, (edges_trailer _).1, (edges_trailer _).2, if_true]
  rcases hc with rfl | rfl <;> simp

/-! ## The listener -/

theorem Observer.after_append (o : Observer) (a b : List Event) : o.after (a ++ b) = (o.after a).after b := by
  simp [Observer.after]

/-- A listener in an open frame takes a bit at the rising edge that ends its cell. -/
theorem Observer.after_cell (d : Level) (bits : List Bool) (bytes : List Byte) (frames : List (List Byte))
    (c : Level) (hc : c = .low ∨ c = .high) (v : Bool) (hn : bits.length ≠ 8) :
    Observer.after ⟨⟨c, d⟩, bits, some bytes, frames⟩ (cellEvents v) =
      ⟨⟨.high, .driven v⟩, bits ++ [v], some bytes, frames⟩ := by
  rcases hc with rfl | rfl <;> cases v <;>
    simp [Observer.after, cellEvents, Observer.next, Observer.clock, Wave.next, Wave.set, hn]

theorem Observer.after_trailer (v : Bool) (bits : List Bool) (bytes : List Byte) (frames : List (List Byte))
    (hn : bits.length = 8) :
    Observer.after ⟨⟨.high, .driven v⟩, bits, some bytes, frames⟩ trailerEvents =
      ⟨⟨.low, .driven v⟩, [], some (bytes ++ [byteOfBits bits]), frames⟩ := by
  cases v <;>
    simp [Observer.after, trailerEvents, Observer.next, Observer.clock, Wave.next, Wave.set, hn]

theorem byteOfBits_bits (b : Byte) : byteOfBits [b.getLsbD 0, b.getLsbD 1, b.getLsbD 2, b.getLsbD 3, b.getLsbD 4,
    b.getLsbD 5, b.getLsbD 6, b.getLsbD 7] = b := by
  revert b; decide

/-- A listener in an open frame takes the byte transferred. -/
theorem Observer.after_byte (c d : Level) (hc : c = .low ∨ c = .high) (bytes : List Byte)
    (frames : List (List Byte)) (b : Byte) :
    Observer.after ⟨⟨c, d⟩, [], some bytes, frames⟩ (byteEvents b) =
      ⟨⟨.low, .driven (b.getLsbD 7)⟩, [], some (bytes ++ [b]), frames⟩ := by
  rw [byteEvents_cells]
  simp only [Observer.after_append]
  rw [Observer.after_cell d [] bytes frames c hc _ (by simp)]
  iterate 7 rw [Observer.after_cell _ _ bytes frames .high (.inr rfl) _ (by simp)]
  rw [Observer.after_trailer _ _ _ _ (by simp)]
  simp only [List.nil_append, List.cons_append, byteOfBits_bits]

theorem Observer.after_bytes (bytes : List Byte) : ∀ (c d : Level), (c = .low ∨ c = .high) →
    ∀ (got : List Byte) (frames : List (List Byte)), bytes ≠ [] →
    ∃ v : Bool, Observer.after ⟨⟨c, d⟩, [], some got, frames⟩ (bytes.flatMap byteEvents) =
      ⟨⟨.low, .driven v⟩, [], some (got ++ bytes), frames⟩ := by
  induction bytes with
  | nil => intro _ _ _ _ _ h; exact absurd rfl h
  | cons b bs ih =>
    intro c d hc got frames _
    rw [List.flatMap_cons, Observer.after_append, Observer.after_byte c d hc]
    by_cases hb : bs = []
    · subst hb; exact ⟨b.getLsbD 7, rfl⟩
    · obtain ⟨v, hv⟩ := ih .low (.driven (b.getLsbD 7)) (.inl rfl) (got ++ [b]) frames hb
      exact ⟨v, by rw [hv, List.append_assoc]; rfl⟩

/-- A listener on the idle bus takes a whole frame, with no byte or more in it. -/
theorem Observer.after_frame (bytes : List Byte) (frames : List (List Byte)) :
    Observer.after ⟨⟨.high, .high⟩, [], none, frames⟩ (frameEvents bytes) =
      ⟨⟨.high, .high⟩, [], none, frames ++ [bytes]⟩ := by
  have hs : Observer.after ⟨⟨.high, .high⟩, [], none, frames⟩ startEvents =
      ⟨⟨.high, .low⟩, [], some [], frames⟩ := by
    simp [Observer.after, startEvents, Observer.next, Wave.next, Wave.set]
  have hp : ∀ (v : Bool), Observer.after ⟨⟨.low, .driven v⟩, [], some bytes, frames⟩ stopEvents =
      ⟨⟨.high, .high⟩, [], none, frames ++ [bytes]⟩ := by
    intro v
    cases v <;> simp [Observer.after, stopEvents, Observer.next, Observer.clock, Wave.next, Wave.set]
  rw [frameEvents, Observer.after_append, Observer.after_append, hs]
  by_cases hb : bytes = []
  · subst hb
    simp [Observer.after, stopEvents, Observer.next, Wave.next, Wave.set]
  · obtain ⟨v, hv⟩ := Observer.after_bytes bytes .high .low (.inr rfl) [] frames hb
    rw [hv]
    exact hp v

/-! ## A frame issued word by word -/

theorem exec_start_ok {s : State} (ha : s.Accepts) (hw : s.WritesOk 1) :
    exec .start s = .next { okRun (startSteps (.alone .start) [] [.returnOk]) s with seq := .rest } := by
  rw [exec_rest _ ha.rest]; simp only [course]; rw [readyCourse_ok ha (stepWrites_start ..) hw]

theorem exec_stop_ok {s : State} (ha : s.Accepts) (hw : s.WritesOk 3) :
    exec .stop s = .next { okRun (stopSteps (.alone .stop) [.returnOk]) s with seq := .rest } := by
  rw [exec_rest _ ha.rest]; simp only [course]; rw [readyCourse_ok ha (stepWrites_stop ..) hw]

theorem exec_wrbyte_ok {s : State} (b : Byte) (ha : s.Accepts) (hw : s.WritesOk 27) :
    exec (.wrbyte b) s = .next { (s.sent b).answer .ok with seq := .rest } := by
  rw [exec_rest _ ha.rest]
  simp only [course]
  rw [readyCourse_ok ha (stepWrites_byte ..) hw, okRun_byte _ _ _ b _ rfl]
  rfl

theorem exec_delay_ok {s : State} (ha : s.Accepts) :
    exec .delay s = .next { okRun (delaySteps (.alone .delay) [.returnOk]) s with seq := .rest } := by
  rw [exec_rest _ ha.rest]
  simp only [course]
  rw [readyCourse_ok (n := 0) ha rfl (fun i hi => absurd hi (Nat.not_lt_zero i))]

/-- What issuing words one by one leads to, when every write succeeds: the events, the results, and a ready engine. -/
structure Issued (s t : State) (evs : List Event) (n oks : Nat) : Prop where
  accepts : t.Accepts
  trace : t.trace = s.trace ++ evs
  writes : t.writes = s.writes + n
  script : t.script = s.script
  brt : t.brt = s.brt
  results : t.results = s.results ++ List.replicate oks .ok
  tBit : t.tBit = s.tBit
  dirClk : t.dirClk = s.dirClk
  dirDio : t.dirDio = s.dirDio

theorem Issued.writesOk {s t : State} {evs : List Event} {n oks m : Nat} (h : Issued s t evs n oks)
    (hw : s.WritesOk (n + m)) : t.WritesOk m := by
  intro i hi
  rw [State.outcomeAt_congr h.script, h.writes, Nat.add_assoc]
  exact hw (n + i) (by omega)

theorem Issued.trans {s t u : State} {a b : List Event} {m n p q : Nat} (h : Issued s t a m p)
    (h' : Issued t u b n q) : Issued s u (a ++ b) (m + n) (p + q) where
  accepts := h'.accepts
  trace := by rw [h'.trace, h.trace, List.append_assoc]
  writes := by rw [h'.writes, h.writes, Nat.add_assoc]
  script := h'.script.trans h.script
  brt := h'.brt.trans h.brt
  results := by rw [h'.results, h.results, List.append_assoc, List.replicate_append_replicate]
  tBit := h'.tBit.trans h.tBit
  dirClk := h'.dirClk.trans h.dirClk
  dirDio := h'.dirDio.trans h.dirDio

theorem issued_start {s : State} (ha : s.Accepts) (hw : s.WritesOk 1) :
    ∃ t, exec .start s = .next t ∧ Issued s t startEvents 1 1 ∧ t.frame = s.frame.afterStart := by
  refine ⟨_, exec_start_ok ha hw, ?_, ?_⟩ <;> rw [okRun_start]
  · exact ⟨⟨rfl, ha.ready, ha.whole⟩, rfl, rfl, rfl, rfl, rfl, rfl, rfl, rfl⟩
  · rfl

theorem issued_stop {s : State} (ha : s.Accepts) (hw : s.WritesOk 3) :
    ∃ t, exec .stop s = .next t ∧ Issued s t stopEvents 3 1 ∧ t.frame = .idle ∧ t.wave = ⟨.high, .high⟩ := by
  refine ⟨_, exec_stop_ok ha hw, ?_, ?_, ?_⟩ <;> rw [okRun_stop]
  · exact ⟨⟨rfl, ha.ready, ha.whole⟩, rfl, rfl, rfl, rfl, rfl, rfl, rfl, rfl⟩
  · show s.frame.afterStop = _
    cases s.frame <;> rfl
  · rfl

theorem issued_wrbyte {s : State} (b : Byte) (ha : s.Accepts) (hw : s.WritesOk 27) :
    ∃ t, exec (.wrbyte b) s = .next t ∧ Issued s t (byteEvents b) 27 1 ∧ t.frame = s.frame.afterByte :=
  ⟨_, exec_wrbyte_ok b ha hw, ⟨⟨rfl, ha.ready, ha.whole⟩, rfl, rfl, rfl, rfl, rfl, rfl, rfl, rfl⟩, rfl⟩

theorem execAll_cons {i : Instr} {is : List Instr} {s t : State} (h : exec i s = .next t) :
    execAll (i :: is) s = execAll is t := by
  simp only [execAll, h]

theorem execAll_wrbytes (bytes : List Byte) (rest : List Instr) : ∀ (s : State), s.Accepts →
    s.WritesOk (27 * bytes.length) →
    ∃ t, execAll (bytes.map Instr.wrbyte ++ rest) s = execAll rest t ∧
      Issued s t (bytes.flatMap byteEvents) (27 * bytes.length) bytes.length ∧
      (s.frame = .opened → t.frame = .opened) := by
  induction bytes with
  | nil =>
    intro s ha _
    exact ⟨s, rfl, ⟨ha, (List.append_nil _).symm, rfl, rfl, rfl, (List.append_nil _).symm, rfl, rfl, rfl⟩, id⟩
  | cons b bs ih =>
    intro s ha hw
    have hlen : 27 * (b :: bs).length = 27 + 27 * bs.length := by simp; omega
    rw [hlen] at hw ⊢
    obtain ⟨a, h₁, hi, hf⟩ := issued_wrbyte b ha (hw.mono (by omega))
    obtain ⟨t, h₂, h₃, h₄⟩ := ih a hi.accepts (hi.writesOk hw)
    refine ⟨t, ?_, ?_, ?_⟩
    · simp only [List.map_cons, List.cons_append]
      rw [execAll_cons h₁, h₂]
    · have := hi.trans h₃
      rw [Nat.add_comm 1] at this
      exact this
    · intro ho
      apply h₄
      rw [hf, ho]; rfl

/-- The words of one frame, issued in turn. -/
theorem execAll_frame (bytes : List Byte) (rest : List Instr) {s : State} (ha : s.Accepts)
    (hw : s.WritesOk (4 + 27 * bytes.length)) :
    ∃ t, execAll (frameCommands bytes ++ rest) s = execAll rest t ∧
      Issued s t (frameEvents bytes) (4 + 27 * bytes.length) (2 + bytes.length) ∧
      t.frame = .idle ∧ t.wave = ⟨.high, .high⟩ := by
  obtain ⟨a, h₁, i₁, -⟩ := issued_start ha (hw.mono (by omega))
  obtain ⟨b, h₂, i₂, -⟩ := execAll_wrbytes bytes (Instr.stop :: rest) a i₁.accepts
    (i₁.writesOk (hw.mono (by omega)))
  obtain ⟨t, h₃, i₃, hf, hv⟩ := issued_stop i₂.accepts ((i₁.trans i₂).writesOk (hw.mono (by omega)))
  refine ⟨t, ?_, ?_, hf, hv⟩
  · simp only [frameCommands, List.cons_append, List.append_assoc, List.nil_append]
    rw [execAll_cons h₁, h₂, execAll_cons h₃]
  · have hw' : 4 + 27 * bytes.length = 1 + 27 * bytes.length + 3 := by omega
    have hr' : 2 + bytes.length = 1 + bytes.length + 1 := by omega
    rw [hw', hr']
    exact (i₁.trans i₂).trans i₃

end Sys2Proof.Machine
end

