-- ==== Sys2Proof/Laws/PerInstr.lean ====
section
/-! SUPPORT. A statement about every instruction as syntax, one lemma per constructor: the code of a well-formed
instruction lies in its own row of `spec/opcode_table.json`. -/

namespace Sys2Proof.Laws

/-- The bits of a code, numbered as the opcode table numbers them. -/
def codeBits : Code → Nat
  | .command w => w.toNat
  | .wire _ b => b.toNat

/-- The width of a code in bits (R92; a wire row is one byte). -/
def codeWidth : Code → Nat
  | .command _ => 12
  | .wire _ _ => 8

/-- The width, mask and match of an instruction's row in the opcode table. -/
def tableRow : Instr → Nat × Nat × Nat
  | .init => (12, 0xFFF, 0x000)
  | .start => (12, 0xFFF, 0x100)
  | .stop => (12, 0xFFF, 0x200)
  | .wrbyte _ => (12, 0xF00, 0x300)
  | .delay => (12, 0xFFF, 0x400)
  | .setbrt _ => (12, 0xFF0, 0x500)
  | .setseg _ => (12, 0xF00, 0x600)
  | .segdata _ => (12, 0xF00, 0x700)
  | .reserved _ _ => (12, 0x800, 0x800)
  | .comm1 => (8, 0xFF, 0x40)
  | .comm2 => (8, 0xFF, 0xC0)
  | .comm3 _ => (8, 0xF0, 0x80)
  | .segbyte _ _ => (8, 0x00, 0x00)

namespace RowMatch

/-- The code has the row's width and `code & mask = match` (R93). -/
def Statement (i : Instr) : Prop :=
  i.wellFormed = true →
    codeWidth (encode i) = (tableRow i).1 ∧ codeBits (encode i) &&& (tableRow i).2.1 = (tableRow i).2.2

/-- A command word lies in a row when its two fields do. -/
theorem command_row (op : Nibble) (arg : Byte) (m₁ v₁ : Nibble) (m₂ v₂ : Byte) (h₁ : op &&& m₁ = v₁)
    (h₂ : arg &&& m₂ = v₂) :
    codeBits (.command (commandWord op arg)) &&& (commandWord m₁ m₂).toNat = (commandWord v₁ v₂).toNat := by
  have h := (and_commandWord_eq_iff (commandWord op arg) m₁ v₁ m₂ v₂).2
    ⟨by rw [opField_commandWord]; exact h₁, by rw [argField_commandWord]; exact h₂⟩
  rw [← h, BitVec.toNat_and]
  rfl

theorem init : Statement .init := fun _ => by decide
theorem start : Statement .start := fun _ => by decide
theorem stop : Statement .stop := fun _ => by decide
theorem wrbyte (b : Byte) : Statement (.wrbyte b) := fun _ =>
  ⟨rfl, command_row 3 b 0xF 3 0 0 rfl BitVec.and_zero⟩
theorem delay : Statement .delay := fun _ => by decide
theorem setbrt (v : Byte) : Statement (.setbrt v) := by
  intro h
  refine ⟨rfl, command_row 5 v 0xF 5 0xF0 0 rfl ?_⟩
  revert h
  revert v
  decide
theorem setseg (n : Byte) : Statement (.setseg n) := fun _ =>
  ⟨rfl, command_row 6 n 0xF 6 0 0 rfl BitVec.and_zero⟩
theorem segdata (s : Byte) : Statement (.segdata s) := fun _ =>
  ⟨rfl, command_row 7 s 0xF 7 0 0 rfl BitVec.and_zero⟩
theorem reserved (op : Nibble) (arg : Byte) : Statement (.reserved op arg) := by
  intro h
  refine ⟨rfl, command_row op arg 8 8 0 0 ?_ BitVec.and_zero⟩
  revert h
  change decide (8 ≤ op.toNat) = true → _
  revert op
  decide
theorem comm1 : Statement .comm1 := fun _ => by decide
theorem comm2 : Statement .comm2 := fun _ => by decide
theorem comm3 (v : Nibble) : Statement (.comm3 v) := by revert v; unfold Statement; decide
theorem segbyte (colon : BitVec 1) (segments : BitVec 7) : Statement (.segbyte colon segments) := fun _ =>
  ⟨rfl, Nat.and_zero _⟩

end RowMatch

end Sys2Proof.Laws
end

