-- ==== Sys2Proof/Laws/Ticks.lean ====
section
/-! SUPPORT. A sequence performed one event at a time: after `k` events whose writes succeed the engine is where the
first `k` steps lead, with the rest to do; and what one event does, said once (`tick_cases`). -/

namespace Sys2Proof.Machine

theorem tick_launch (m : Micro) (ms : List Micro) (s : State) : tick (launch (m :: ms) s) =
    match perform m s with
    | .done s' => launch ms s'
    | .failed c s' => abort c s'
    | .stuck s' => { s' with seq := .stalled (m :: ms) } := by
  simp only [launch, tick]
  rw [perform_withSeq]
  cases perform m s with
  | done s' => exact launch_withSeq ..
  | failed c s' => rfl
  | stuck s' => rfl

theorem ticks_of_tick_eq {s : State} (h : tick s = s) (n : Nat) : ticks n s = s := by
  induction n with
  | zero => rfl
  | succ n ih => rw [ticks, h, ih]

/-- After `k` events whose writes succeed. -/
theorem ticks_launch_ok (p : List Micro) (k : Nat) (s : State) (h : s.WritesOk (stepWrites p)) :
    ticks k (launch p s) = launch (p.drop k) (okRun (p.take k) s) := by
  induction p generalizing k s with
  | nil => rw [List.drop_nil, List.take_nil]; exact ticks_of_tick_eq rfl k
  | cons m ms ih =>
    cases k with
    | zero => rfl
    | succ k =>
      have hm : perform m s = .done (okStep m s) :=
        perform_ok fun hw => by simpa using h 0 (by simp [stepWrites, hw])
      rw [ticks, tick_launch, hm]
      refine ih k _ ?_
      intro i hi
      have := h (actWrites m.act + i) (by simp [stepWrites]; omega)
      rw [State.outcomeAt_congr (okStep_script m s), okStep_writes, Nat.add_assoc]
      exact this

theorem launch_txn (p : List Micro) (s : State) : (launch p s).txn = s.txn := by cases p <;> rfl

theorem launch_position (m : Micro) (ms : List Micro) (s : State) :
    (launch (m :: ms) s).position = some m.pos := rfl

/-! ## One event, said once -/

/-- Everything one event of a sequence does: it happens and the rest is to do, or its write fails and the operation is
aborted, or its write stalls and the engine is stuck at it. -/
theorem tick_cases (m : Micro) (ms : List Micro) (s : State) :
    tick (launch (m :: ms) s) = launch ms (okStep m s) ∨
    (actWrites m.act = 1 ∧ tick (launch (m :: ms) s) =
      abort (actCause m.act (transfers m.before s)) (failEvent m.act (transfers m.before s))) ∨
    (actWrites m.act = 1 ∧ tick (launch (m :: ms) s) =
      { stallEvent m.act (transfers m.before s) with seq := .stalled (m :: ms) }) := by
  rw [tick_launch]
  obtain ⟨_, he⟩ | ⟨hw, _, he⟩ | ⟨hw, _, he⟩ := perform_cases m s
  · exact .inl (by rw [he])
  · exact .inr (.inl ⟨hw, by rw [he]⟩)
  · exact .inr (.inr ⟨hw, by rw [he]⟩)

/-- A state in the middle of a sequence is that sequence launched. -/
theorem launch_self {m : Micro} {ms : List Micro} {s : State} (h : s.seq = .running (m :: ms)) :
    launch (m :: ms) s = s := by
  cases s; simp_all [launch]

theorem tick_rest {s : State} (h : s.seq = .rest) : tick s = s := by simp only [tick, h]

theorem tick_stalled {s : State} {todo : List Micro} (h : s.seq = .stalled todo) : tick s = s := by
  simp only [tick, h]

/-! ## Taking a word -/

/-- A word taken at the port launches one of the sequences, or is answered. -/
theorem issueWord_cases (w : CmdWord) (s : State) :
    (∃ i p u, decodeCommand w = .ok i ∧ Runs i s p u ∧ issueWord w s = launch p u) ∨
    (∃ i, Answered i s (issueWord w s)) := by
  unfold issueWord
  cases decodeCommand w with
  | error e => exact .inr ⟨.init, answered_drop .init (Plain.refused .badOperand) rfl⟩
  | ok i =>
    dsimp only
    rw [issue_course]
    cases hc : course i s with
    | runs p u => exact .inl ⟨i, p, u, rfl, course_runs hc, rfl⟩
    | answers t => exact .inr ⟨i, course_answers hc⟩

/-- Everything a step of one event can do that is no stop. -/
theorem eventStep_next {s t : State} (h : eventStep s = .next t) :
    (s.seq = .rest ∧ s.port = [] ∧ t = s) ∨ (∃ todo, s.seq = .running todo ∧ t = tick s) ∨
    (∃ w ws, s.seq = .rest ∧ s.port = w :: ws ∧ t = tick (issueWord w { s with port := ws })) := by
  unfold eventStep at h
  split at h
  · cases h
  · injection h with h; exact .inr (.inl ⟨_, ‹_›, h.symm⟩)
  · unfold fetch at h
    cases hp : s.port with
    | nil => rw [hp] at h; injection h with h; exact .inl ⟨‹_›, rfl, h.symm⟩
    | cons w ws => rw [hp] at h; injection h with h; exact .inr (.inr ⟨w, ws, ‹_›, rfl, h.symm⟩)

/-- Several steps of one event each, the first of them a next state. -/
theorem eventCore_run_succ {s t : State} (h : eventStep s = .next t) (k : Nat) :
    eventCore.run (k + 1) s = eventCore.run k t := by
  simp only [Host.Core.run, h]

theorem eventCore_run_zero (s : State) : eventCore.run 0 s = .next s := rfl

end Sys2Proof.Machine
end

