-- ==== Sys2Proof/Tests/Slice0.lean ====
section
/-! SUPPORT. Tests. The checks of `WellFormed` refuse ill-formed terms; words written out bit by bit from R93 and R87 to
R90 decode to what they stand for; single steps give what the vectors of `95_test_vectors.md` say (the vector is named
at each); and every statement with hypotheses has a state and operands that meet them. -/

namespace Sys2Proof.Tests

open Sys2Proof Sys2Proof.Machine

/-! ## Small states -/

/-- A ready engine on the idle bus with brightness 15 (R251), the environment's first outcomes given. -/
def idleBus (script : List WriteOutcome) : State :=
  { State.reset with
    brt := 15, tBit := 1000, ready := true, frame := .idle, lvlClk := .high, lvlDio := .high,
    dirClk := .out, dirDio := .out, script := script }

/-- The same after a `START` (CLK = 1, DIO = 0). -/
def opened (script : List WriteOutcome) : State := { idleBus script with frame := .opened, lvlDio := .low }

/-- The same after a byte whose bit 7 is 0 (CLK = 0, DIO = 0). -/
def afterByte (script : List WriteOutcome) : State := { opened script with lvlClk := .low }

/-- Power-on with the environment's first outcomes given. -/
def powerOn (script : List WriteOutcome) : State := { State.reset with script := script }

/-- `n` writes that succeed. -/
def oks (n : Nat) : List WriteOutcome := List.replicate n .ok

/-- `n` writes that succeed and one that does not. -/
def oksThen (n : Nat) (o : WriteOutcome) : List WriteOutcome := oks n ++ [o]

/-- The next state of an instruction; the state itself where there is none. -/
def next (i : Instr) (s : State) : State :=
  match exec i s with
  | .next t => t
  | .fault _ => s
  | .refused _ => s

/-- The next state of a step. -/
def stepped (s : State) : State :=
  match step s with
  | .next t => t
  | .fault _ => s
  | .refused _ => s

/-- The next state of a step of one event. -/
def evented (s : State) : State :=
  match eventStep s with
  | .next t => t
  | .fault _ => s
  | .refused _ => s

/-- The result words a state holds. -/
def resultWords (s : State) : List Byte := s.results.map OpResult.word

abbrev c0 : Event := .w .clk false
abbrev c1 : Event := .w .clk true
abbrev d0 : Event := .w .dio false
abbrev d1 : Event := .w .dio true
abbrev dd : Event := .d

/-! ## `WellFormed` refuses what has no encoding -/

theorem test_setbrt_sixteen_is_ill_formed : (Instr.setbrt 16).wellFormed = false := by decide
theorem test_setbrt_fifteen_is_well_formed : (Instr.setbrt 15).wellFormed = true := by decide
theorem test_reserved_seven_is_ill_formed : (Instr.reserved 7 0).wellFormed = false := by decide
theorem test_reserved_eight_is_well_formed : (Instr.reserved 8 0xFF).wellFormed = true := by decide

/-! ## Words written out from the encoding tables (section 5 of `95_test_vectors.md`; R93, R87 to R90) -/

theorem test_word_init : decode (.command 0b0000_00000000#12) = .ok .init := by decide
theorem test_word_init_operand : decode (.command 0b0000_00000001#12) = .error .badOperand := by decide
theorem test_word_start : decode (.command 0b0001_00000000#12) = .ok .start := by decide
theorem test_word_stop : decode (.command 0b0010_00000000#12) = .ok .stop := by decide
theorem test_word_wrbyte_05 : decode (.command 0b0011_00000101#12) = .ok (.wrbyte 0x05) := by decide
theorem test_word_wrbyte_ff : decode (.command 0b0011_11111111#12) = .ok (.wrbyte 0xFF) := by decide
theorem test_word_delay : decode (.command 0b0100_00000000#12) = .ok .delay := by decide
theorem test_word_setbrt_7 : decode (.command 0b0101_00000111#12) = .ok (.setbrt 7) := by decide
theorem test_word_setbrt_15 : decode (.command 0b0101_00001111#12) = .ok (.setbrt 15) := by decide
theorem test_word_setbrt_16 : decode (.command 0b0101_00010000#12) = .error .badOperand := by decide
theorem test_word_setseg_0 : decode (.command 0b0110_00000000#12) = .ok (.setseg 0) := by decide
theorem test_word_setseg_2 : decode (.command 0b0110_00000010#12) = .ok (.setseg 2) := by decide
theorem test_word_segdata : decode (.command 0b0111_10101010#12) = .ok (.segdata 0xAA) := by decide
theorem test_word_reserved_8 : decode (.command 0b1000_00000000#12) = .ok (.reserved 0x8 0x00) := by decide
theorem test_word_reserved_f : decode (.command 0b1111_11111111#12) = .ok (.reserved 0xF 0xFF) := by decide
theorem test_wire_comm1 : decode (.wire .comm1 0b01000000#8) = .ok .comm1 := by decide
theorem test_wire_comm1_other : decode (.wire .comm1 0b01000001#8) = .error .notCommandByte := by decide
theorem test_wire_comm2 : decode (.wire .comm2 0b11000000#8) = .ok .comm2 := by decide
theorem test_wire_comm2_address : decode (.wire .comm2 0b11000001#8) = .error .notCommandByte := by decide
theorem test_wire_comm3 : decode (.wire .comm3 0b10000111#8) = .ok (.comm3 7) := by decide
theorem test_wire_comm3_other : decode (.wire .comm3 0b10010000#8) = .error .notCommandByte := by decide
theorem test_wire_segbyte : decode (.wire .segment 0b11011011#8) = .ok (.segbyte 1 0b1011011) := by decide
theorem test_wire_segbyte_40 : decode (.wire .segment 0b01000000#8) = .ok (.segbyte 0 0x40) := by decide

/-- The table's numbering: a row of one byte is a wire byte, the others are 12-bit words in two bytes. -/
theorem test_table_words : decodeTableWord 16 0x305 = some (.wrbyte 5) ∧ decodeTableWord 16 0x001 = none ∧
    decodeTableWord 16 0x1000 = none ∧ decodeTableWord 8 0x40 = some .comm1 ∧
    decodeTableWord 8 0xC0 = some .comm2 ∧ decodeTableWord 8 0x8F = some (.comm3 15) ∧
    decodeTableWord 8 0x00 = some (.segbyte 0 0) := by decide

/-! ## Single steps -/

/-- C-1. -/
theorem test_init_ok : (next .init (powerOn (oks 2))).trace = [.cfg .clk, .cfg .dio] ∧
    (next .init (powerOn (oks 2))).brt = 15 ∧ (next .init (powerOn (oks 2))).ready = true ∧
    resultWords (next .init (powerOn (oks 2))) = [0x00] := by decide
/-- C-3. -/
theorem test_init_second_fails : (next .init (powerOn (oksThen 1 .fail))).trace = [.cfg .clk, .failCfg .dio] ∧
    (next .init (powerOn (oksThen 1 .fail))).wave = ⟨.high, .unknown⟩ ∧
    (next .init (powerOn (oksThen 1 .fail))).ready = false ∧
    resultWords (next .init (powerOn (oksThen 1 .fail))) = [0x43] := by decide
/-- V2. -/
theorem test_start : (next .start (idleBus (oks 1))).trace = [d0, dd] ∧
    (next .start (idleBus (oks 1))).wave = ⟨.high, .low⟩ ∧
    (next .start (idleBus (oks 1))).frame = .opened := by decide
/-- C-7. -/
theorem test_start_not_ready : (next .start (powerOn [])).trace = [] ∧
    resultWords (next .start (powerOn [])) = [0x80] := by decide
/-- V3. -/
theorem test_stop : (next .stop (afterByte (oks 3))).trace = [d0, dd, c1, dd, d1, dd] ∧
    (next .stop (afterByte (oks 3))).wave = ⟨.high, .high⟩ ∧ (next .stop (afterByte (oks 3))).frame = .idle := by
  decide
/-- V11. -/
theorem test_stop_second_write_fails : (next .stop (afterByte (oksThen 1 .fail))).trace = [d0, dd, .failW .clk true] ∧
    (next .stop (afterByte (oksThen 1 .fail))).wave = ⟨.unknown, .low⟩ ∧
    resultWords (next .stop (afterByte (oksThen 1 .fail))) = [0x45] := by decide
/-- V5. -/
theorem test_delay : (next .delay (idleBus [])).trace = [dd] ∧ (next .delay (idleBus [])).frame = .idle := by decide
/-- V1. -/
theorem test_wrbyte_05 : (next (.wrbyte 0x05) (opened (oks 27))).trace =
    [c0, dd, d1, dd, c1, dd] ++ [c0, dd, d0, dd, c1, dd] ++ [c0, dd, d1, dd, c1, dd] ++ [c0, dd, d0, dd, c1, dd] ++
    [c0, dd, d0, dd, c1, dd] ++ [c0, dd, d0, dd, c1, dd] ++ [c0, dd, d0, dd, c1, dd] ++ [c0, dd, d0, dd, c1, dd] ++
    [c0, dd, c1, dd, c0, dd] := by decide
/-- V10. -/
theorem test_wrbyte_a5_eighth_write_fails :
    (next (.wrbyte 0xA5) (opened (oksThen 7 .fail))).trace =
      [c0, dd, d1, dd, c1, dd, c0, dd, d0, dd, c1, dd, c0, dd, .failW .dio true] ∧
    (next (.wrbyte 0xA5) (opened (oksThen 7 .fail))).wave = ⟨.low, .unknown⟩ ∧
    (next (.wrbyte 0xA5) (opened (oksThen 7 .fail))).frame = .undef ∧
    resultWords (next (.wrbyte 0xA5) (opened (oksThen 7 .fail))) = [0x47] := by decide
/-- C-5. -/
theorem test_setbrt_7 : (next (.setbrt 7) (idleBus [])).brt = 7 ∧ (next (.setbrt 7) (idleBus [])).trace = [] := by
  decide
/-- C-6. -/
theorem test_word_0x510 : (stepped { idleBus [] with port := [0x510] }).brt = 15 ∧
    resultWords (stepped { idleBus [] with port := [0x510] }) = [0x82] := by decide
set_option maxRecDepth 20000 in
/-- C-8, with the frame bytes as a listener takes them. -/
theorem test_setseg_empty : (Observer.idle.after (next (.setseg 0) (idleBus (oks 93))).trace).closed =
    [[0x40], [0xC0], [0x8F]] := by decide
set_option maxRecDepth 20000 in
/-- C-9: the last data word of `0x601 0x7AA`. -/
theorem test_segdata_last : (Observer.idle.after
    (next (.segdata 0xAA) { idleBus (oks 120) with pending := some ⟨1, []⟩ }).trace).closed =
      [[0x40], [0xC0, 0xAA], [0x8F]] := by decide
/-- The decode table: `0x7AA` alone is refused `ILLEGAL_CMD`. -/
theorem test_segdata_orphan : resultWords (next (.segdata 0xAA) (idleBus [])) = [0x81] := by decide
/-- The decode table: in `0x602 0x7AA 0x100` the `SETSEG` is refused `BAD_OPERAND`, then `START` is taken. -/
theorem test_setseg_broken :
    resultWords (next .start { idleBus (oks 1) with pending := some ⟨2, [0xAA]⟩ }) = [0x82, 0x00] ∧
    (next .start { idleBus (oks 1) with pending := some ⟨2, [0xAA]⟩ }).trace = [d0, dd] := by decide
/-- P4: `.word 0x900`. -/
theorem test_word_0x900 : resultWords (stepped { idleBus [] with port := [0x900] }) = [0x81] := by decide
/-- P5: the third write of frame 1 stalls. -/
theorem test_setseg_stalls :
    (next (.segdata 0x00) { idleBus (oksThen 2 .stall) with pending := some ⟨1, []⟩ }).trace = [d0, dd, c0, dd] ∧
    (next (.segdata 0x00) { idleBus (oksThen 2 .stall) with pending := some ⟨1, []⟩ }).wave = ⟨.low, .unknown⟩ ∧
    resultWords (next (.segdata 0x00) { idleBus (oksThen 2 .stall) with pending := some ⟨1, []⟩ }) = [] := by decide
/-- V6, the row 0x40. -/
theorem test_comm1 : (next .comm1 (opened (oks 27))).trace.filter (Event.isWriteTo .dio) =
    [d0, d0, d0, d0, d0, d0, d1, d0] := by decide
/-- V6, the row 0xC0. -/
theorem test_comm2 : (next .comm2 (opened (oks 27))).trace.filter (Event.isWriteTo .dio) =
    [d0, d0, d0, d0, d0, d0, d1, d1] := by decide
/-- V6, the row 0x87. -/
theorem test_comm3 : (next (.comm3 7) (opened (oks 27))).trace.filter (Event.isWriteTo .dio) =
    [d1, d1, d1, d0, d0, d0, d0, d1] := by decide
/-- V6, the row 0xDB. -/
theorem test_segbyte : (next (.segbyte 1 0x5B) (opened (oks 27))).trace.filter (Event.isWriteTo .dio) =
    [d1, d1, d0, d1, d1, d0, d1, d1] := by decide
/-- C-12, the write before: the 13th write of a byte `s1` is the `c0` of bit cell 4, the 14th its data write. -/
theorem test_segbyte_fourteenth_write_fails :
    resultWords (next (.segbyte 0 0x10) (opened (oksThen 13 .fail))) = [0x47] ∧
    resultWords (next (.segbyte 0 0x00) (opened (oksThen 13 .fail))) = [0x46] := by decide
/-- L-2, L-4, L-7. -/
theorem test_line_writes : (afterByte (oks 1)).lvl .clk = .low ∧
    (lineWrite .clk false (afterByte (oks 1)) =
      .done { afterByte (oks 1) with trace := [c0], writes := 1 }) ∧
    (lineWrite .dio true (powerOn (oks 1)) =
      .done { powerOn (oks 1) with lvlDio := .high, trace := [d1], writes := 1 }) ∧
    (lineWrite .dio false (idleBus [.stall]) =
      .stuck { idleBus [.stall] with lvlDio := .unknown, writes := 1 }) := by decide

/-- The encoder's table of section 5, with the pattern table of R119. -/
theorem test_encoder :
    (stringToSegments commonPattern ['1', '2', ':', '3', '4']).toOption = some [0x06, 0xDB, 0x4F, 0x66] ∧
    (stringToSegments commonPattern ['1', ':', '2']).toOption = some [0x86, 0x5B] ∧
    (stringToSegments commonPattern ['1', ':']).toOption = some [0x86] ∧
    (stringToSegments commonPattern ['A', 'b', 'C', 'd']).toOption = some [0x77, 0x7C, 0x39, 0x5E] ∧
    (stringToSegments commonPattern ['E', ' ', ':']).toOption = some [0x79, 0x80] := by decide
theorem test_encoder_errors :
    (stringToSegments commonPattern [':', '1']).toOption = none ∧
    (stringToSegments commonPattern ['1', ':', ':', '2']).toOption = none ∧
    (stringToSegments commonPattern ['1', '2', 'x', '4']).toOption = none ∧
    (bytestringToSegments commonPattern [0x61]).toOption = none := by decide

/-! ## The hypotheses of the statements can be met

One theorem per statement that has hypotheses, with a clause for each clause of the statement, at a boundary value where
the clause ranges over one. -/

theorem oks_writesOk {s : State} {n : Nat} (hs : s.script = oks n) (hw : s.writes = 0) : s.WritesOk n := by
  intro i hi
  simp [State.outcomeAt, hs, hw, oks, hi]

theorem oksThen_firstNotOk {s : State} {n : Nat} {o : WriteOutcome} (hs : s.script = oksThen n o)
    (hw : s.writes = 0) : s.FirstNotOk n o := by
  refine ⟨?_, ?_⟩
  · intro i hi
    simp [State.outcomeAt, hs, hw, oks, oksThen, List.getElem?_append, hi]
  · simp [State.outcomeAt, hs, hw, oks, oksThen]

theorem idleBus_accepts (script : List WriteOutcome) : (idleBus script).Accepts := ⟨rfl, rfl, rfl⟩

theorem opened_accepts (script : List WriteOutcome) : (opened script).Accepts := ⟨rfl, rfl, rfl⟩

theorem idleBus_takes (i : Instr) (script : List WriteOutcome) : Takes i (idleBus script) :=
  ⟨rfl, fun _ _ => rfl, fun _ _ => rfl⟩

/-- A ready engine that has received all but the last data word of `SETSEG 2`. -/
def receiving (script : List WriteOutcome) : State := { idleBus script with pending := some ⟨2, [0xAA]⟩ }

theorem witness_StepRunsDecodedInstruction :
    (({ idleBus [] with port := [0x305, 0x200] } : State).seq = .rest ∧
      decode (.command 0x305) = .ok (.wrbyte 5)) ∧
    ((idleBus []).seq = .rest ∧ (idleBus []).port = []) ∧
    ({ idleBus [] with seq := .running (delaySteps (.alone .delay) []) } : State).seq =
      .running (delaySteps (.alone .delay) []) := by decide

theorem witness_StepRunsPlacedWord :
    decodeTableWord 16 0xFFF = some (.reserved 0xF 0xFF) ∧ decodeTableWord 8 0xFF = some (.segbyte 1 0x7F) := by
  decide

theorem witness_DecodeOfEncode : (Instr.setbrt 15).wellFormed = true ∧ (Instr.reserved 8 0xFF).wellFormed = true := by
  decide

theorem witness_EncodeOfDecode : decode (.command 0x50F) = .ok (.setbrt 15) ∧
    decode (.wire .comm3 0x8F) = .ok (.comm3 15) ∧
    ((Instr.setbrt 15).wellFormed = true ∧ encode (.setbrt 15) = .command 0x50F) := by decide

theorem witness_PortRefusals :
    ((idleBus []).seq = .rest ∧ (idleBus []).pending = none) ∧
    8 ≤ ((0x800 : CmdWord).extractLsb' 8 4).toNat ∧ (0x7AA : CmdWord).extractLsb' 8 4 = 0x7#4 ∧
    ((0x401 : CmdWord).extractLsb' 8 4 ∈ [0x0#4, 0x1#4, 0x2#4, 0x4#4] ∧ (0x401 : CmdWord).extractLsb' 0 8 ≠ 0#8) ∧
    ((0x510 : CmdWord).extractLsb' 8 4 = 0x5#4 ∧ (0x510 : CmdWord).extractLsb' 4 4 ≠ 0#4) ∧
    ((powerOn []).ready = false ∧ (powerOn []).pending = none ∧
      ((0x600 : CmdWord).extractLsb' 8 4 ∈ [0x1#4, 0x2#4, 0x4#4, 0x6#4] ∧ (0x600 : CmdWord).extractLsb' 0 8 = 0#8) ∧
      (0x3FF : CmdWord).extractLsb' 8 4 = 0x3#4 ∧
      ((0x50F : CmdWord).extractLsb' 8 4 = 0x5#4 ∧ (0x50F : CmdWord).extractLsb' 4 4 = 0#4)) ∧
    ({ powerOn [] with pending := some ⟨1, []⟩ } : State).ready = false := by decide

theorem witness_BrokenSetsegIsRefused :
    (receiving []).seq = .rest ∧ (receiving []).pending = some ⟨2, [0xAA]⟩ ∧
    Instr.start.isData = false ∧ Instr.start.isWire = false ∧ decode (.command 0x001) = .error .badOperand := by
  decide

theorem witness_SetsegWordsAreOneOperation :
    ({ idleBus [] with port := setsegWords [0xAA, 0x55] ++ [0x100] } : State).port = [0x602, 0x7AA, 0x755, 0x100] ∧
    (idleBus []).seq = .rest ∧ (idleBus []).pending = none ∧ (List.replicate 255 (0 : Byte)).length ≤ 255 :=
  ⟨by decide, rfl, rfl, Nat.le_of_eq List.length_replicate⟩

theorem witness_SetsegCollectsItsData :
    ((idleBus []).seq = .rest ∧ (idleBus []).pending = none ∧ (255 : Byte) ≠ 0) ∧
    (({ idleBus [] with pending := some ⟨2, []⟩ } : State).pending = some ⟨2, []⟩ ∧ ([] : List Byte).length + 1 < 2) ∧
    ((receiving []).pending = some ⟨2, [0xAA]⟩ ∧ 2 ≤ [(0xAA : Byte)].length + 1) := by decide

theorem witness_InstructionsAnswerAtRest :
    (powerOn []).seq = .rest ∧
    ({ idleBus [] with seq := .running [] } : State).seq = .running [] ∧ Instr.start.isWire = false ∧
    ({ idleBus [] with seq := .stalled [] } : State).seq = .stalled [] := by decide

theorem witness_InitResult : (powerOn (oks 2)).seq = .rest ∧ (powerOn (oks 2)).pending = none ∧
    (powerOn (oks 2)).WritesOk 2 := ⟨rfl, rfl, oks_writesOk rfl rfl⟩

theorem witness_StartResult : (idleBus (oks 1)).Accepts ∧ (idleBus (oks 1)).WritesOk 1 :=
  ⟨idleBus_accepts _, oks_writesOk rfl rfl⟩

theorem witness_StopResult : (opened (oks 3)).Accepts ∧ (opened (oks 3)).WritesOk 3 :=
  ⟨opened_accepts _, oks_writesOk rfl rfl⟩

theorem witness_DelayResult : (idleBus []).Accepts := idleBus_accepts _

theorem witness_WrbyteResult : (opened (oks 27)).Accepts ∧ (opened (oks 27)).WritesOk 27 :=
  ⟨opened_accepts _, oks_writesOk rfl rfl⟩

theorem witness_SetbrtResult :
    ((idleBus []).seq = .rest ∧ (idleBus []).pending = none ∧ (idleBus []).ready = true ∧ (15 : Byte).toNat ≤ 15) ∧
    15 < (16 : Byte).toNat ∧ ((powerOn []).ready = false ∧ (powerOn []).pending = none) := by decide

theorem witness_SetsegResult : (idleBus (oks 120)).Accepts ∧
    (idleBus (oks 120)).WritesOk (93 + 27 * [(0xAA : Byte)].length) :=
  ⟨idleBus_accepts _, oks_writesOk rfl rfl⟩

theorem witness_SetsegCompletes :
    ((idleBus (oks 93)).Accepts ∧ (idleBus (oks 93)).WritesOk 93) ∧
    ((receiving (oks 147)).seq = .rest ∧ (receiving (oks 147)).ready = true ∧
      (receiving (oks 147)).pending = some ⟨2, [0xAA]⟩ ∧ (2 : Nat) = [(0xAA : Byte)].length + 1 ∧
      (receiving (oks 147)).WritesOk (93 + 27 * 2)) :=
  ⟨⟨idleBus_accepts _, oks_writesOk rfl rfl⟩, rfl, rfl, rfl, rfl, oks_writesOk rfl rfl⟩

theorem witness_ReservedResult : (powerOn []).seq = .rest ∧ (powerOn []).pending = none := by decide

theorem witness_WireByteResult :
    (encode .comm1 = .wire .comm1 0x40 ∧ encode .comm2 = .wire .comm2 0xC0 ∧
      encode (.comm3 15) = .wire .comm3 0x8F ∧ encode (.segbyte 1 0x7F) = .wire .segment 0xFF) ∧
    (opened (oks 27)).seq = .rest ∧
    ({ opened (oks 27) with seq := .running (wireSteps .comm1 0x40) } : State).seq =
      .running (wireSteps .comm1 0x40) ∧
    (opened (oks 27)).WritesOk 27 := ⟨by decide, rfl, rfl, oks_writesOk rfl rfl⟩

theorem witness_BrightnessByte : (idleBus (oks 93)).Accepts ∧ (idleBus (oks 93)).brt = 15 ∧
    (idleBus (oks 93)).WritesOk (93 + 27 * ([] : List Byte).length) :=
  ⟨idleBus_accepts _, rfl, oks_writesOk rfl rfl⟩

/-- The first write, and the last of a byte. -/
theorem witness_FirstFailingWriteAborts :
    (Takes .start (idleBus (oksThen 0 .fail)) ∧
      splitAtWrite 0 (fullEvents .start (idleBus (oksThen 0 .fail))) = some ([], d0) ∧
      (idleBus (oksThen 0 .fail)).FirstNotOk 0 .fail) ∧
    (Takes (.wrbyte 0) (idleBus (oksThen 26 .fail)) ∧
      (splitAtWrite 26 (fullEvents (.wrbyte 0) (idleBus (oksThen 26 .fail)))).map Prod.snd = some c0 ∧
      (idleBus (oksThen 26 .fail)).FirstNotOk 26 .fail) :=
  ⟨⟨idleBus_takes _ _, by decide, oksThen_firstNotOk rfl rfl⟩,
    idleBus_takes _ _, by decide, oksThen_firstNotOk rfl rfl⟩

theorem witness_FirstStalledWriteBlocksForEver :
    (Takes .init (powerOn (oksThen 1 .stall)) ∧
      splitAtWrite 1 (fullEvents .init (powerOn (oksThen 1 .stall))) = some ([.cfg .clk], .cfg .dio) ∧
      (powerOn (oksThen 1 .stall)).FirstNotOk 1 .stall) :=
  ⟨⟨rfl, fun h => absurd rfl h, fun _ _ => rfl⟩, by decide, oksThen_firstNotOk rfl rfl⟩

theorem witness_InitFails :
    ((powerOn [.fail]).seq = .rest ∧ (powerOn [.fail]).pending = none ∧
      (powerOn [.fail]).outcomeAt (powerOn [.fail]).writes = .fail) ∧
    ((powerOn [.ok, .fail]).outcomeAt (powerOn [.ok, .fail]).writes = .ok ∧
      (powerOn [.ok, .fail]).outcomeAt ((powerOn [.ok, .fail]).writes + 1) = .fail) := by decide

/-- Each operation at a write where it fails, and at the number of writes it has, where it does not. -/
theorem witness_PlacesOfFailure :
    ((powerOn (oksThen 1 .fail)).pending = none ∧ (powerOn (oksThen 1 .fail)).FirstNotOk 1 .fail) ∧
    ((idleBus (oksThen 26 .fail)).Accepts ∧ (idleBus (oksThen 26 .fail)).FirstNotOk 26 .fail ∧
      (idleBus (oksThen 27 .fail)).FirstNotOk 27 .fail) ∧
    ({ idleBus (oksThen 119 .fail) with pending := some ⟨1, []⟩ } : State).FirstNotOk 119 .fail ∧
    Instr.comm1.isWire = true :=
  ⟨⟨rfl, oksThen_firstNotOk rfl rfl⟩,
    ⟨idleBus_accepts _, oksThen_firstNotOk rfl rfl, oksThen_firstNotOk rfl rfl⟩, oksThen_firstNotOk rfl rfl, rfl⟩

/-- A `START` aborted at its write, and three writes that succeed after it; the same of an `INIT`. -/
theorem witness_RecoveryAfterAbort :
    (Instr.start ≠ .init ∧ Instr.start.isWire = false ∧ Takes .start (idleBus (.fail :: oks 3)) ∧
      ∃ t, exec .start (idleBus (.fail :: oks 3)) = .next t ∧
        t.results = (idleBus (.fail :: oks 3)).results ++ [.hwerr ⟨.w, .dio, false⟩] ∧
        t.WritesOk 3 ∧ t.WritesOk 2) ∧
    (Takes .init (powerOn (.fail :: oks 2)) ∧
      ∃ t, exec .init (powerOn (.fail :: oks 2)) = .next t ∧
        t.results = (powerOn (.fail :: oks 2)).results ++ [.hwerr ⟨.cfg, .clk, true⟩] ∧ t.WritesOk 2) := by
  refine ⟨⟨by decide, by decide, idleBus_takes _ _, _, rfl, rfl, ?_, ?_⟩,
    ⟨rfl, fun h => absurd rfl h, fun _ _ => rfl⟩, _, rfl, rfl, ?_⟩ <;> unfold State.WritesOk <;> decide

theorem witness_FrameOfPrimitivesAndWireBytes :
    (Instr.start.isPrimitive = true ∧ Instr.comm1.isWire = true) ∧ Takes .start (idleBus (oks 1)) ∧
    (∃ t, exec .start (idleBus (oks 1)) = .next t ∧
      ∀ c, t.results ≠ (idleBus (oks 1)).results ++ [.hwerr c]) ∧
    (∃ t, exec .delay (idleBus []) = .next t) := by
  refine ⟨by decide, idleBus_takes _ _, ⟨_, rfl, ?_⟩, _, rfl⟩
  intro c h
  cases h

theorem witness_FrameOfInit : (powerOn [.fail]).seq = .rest ∧ (powerOn [.fail]).pending = none ∧
    (∃ t, exec .init (powerOn [.fail]) = .next t ∧ t.results ≠ (powerOn [.fail]).results ++ [.ok]) ∧
    (∃ t, exec .init (powerOn (oks 2)) = .next t ∧
      ∀ c, t.results ≠ (powerOn (oks 2)).results ++ [.hwerr c]) := by
  refine ⟨rfl, rfl, ⟨_, rfl, ?_⟩, _, rfl, ?_⟩
  · intro h
    cases h
  · intro c h
    cases h

theorem witness_FrameOfSetseg : (idleBus []).Accepts := idleBus_accepts _

theorem witness_WritersOfTheControlRegisters :
    (∃ t, exec .stop (opened (oks 3)) = .next t) ∧ Instr.stop ≠ .init ∧ ∀ v, Instr.stop ≠ .setbrt v :=
  ⟨⟨_, rfl⟩, by decide, fun _ h => by cases h⟩

theorem witness_TraceAndResultsOnlyGrow : ∃ t, step { idleBus [] with port := [0x400] } = .next t := ⟨_, rfl⟩

theorem witness_FailureIsTheLastEvent : ∃ t, exec .stop (afterByte (oksThen 1 .fail)) = .next t ∧
    t.trace = (afterByte (oksThen 1 .fail)).trace ++ [d0, dd, .failW .clk true] ∧
    d0 ∈ ([d0, dd, .failW .clk true] : List Event).dropLast := ⟨_, rfl, by decide, by decide⟩

theorem witness_FrameTransitions :
    Instr.start.isPrimitive = true ∧ Takes .start (idleBus (oks 1)) ∧
    (∃ t, exec .start (idleBus (oks 1)) = .next t ∧ t.results = (idleBus (oks 1)).results ++ [.ok]) ∧
    (∃ t, exec .start (idleBus [.fail]) = .next t ∧
      t.results = (idleBus [.fail]).results ++ [.hwerr ⟨.w, .dio, false⟩]) :=
  ⟨rfl, idleBus_takes _ _, ⟨_, rfl, rfl⟩, _, rfl, rfl⟩

/-- The idle bus and an open frame, which differ in the levels and in `FRAME`. -/
theorem witness_NothingElseIsRead :
    (idleBus (oks 3)).seq = .rest ∧ (opened (oks 3)).seq = .rest ∧
    (opened (oks 3)).ready = (idleBus (oks 3)).ready ∧ (opened (oks 3)).brt = (idleBus (oks 3)).brt ∧
    (opened (oks 3)).pending = (idleBus (oks 3)).pending ∧ (opened (oks 3)).script = (idleBus (oks 3)).script ∧
    (opened (oks 3)).writes = (idleBus (oks 3)).writes ∧
    (∃ t, exec .stop (idleBus (oks 3)) = .next t) ∧ (∃ t, exec .stop (opened (oks 3)) = .next t) :=
  ⟨rfl, rfl, rfl, rfl, rfl, rfl, rfl, ⟨_, rfl⟩, _, rfl⟩

theorem witness_BitCellsCarryTheByteLsbFirst : (opened (oks 27)).Accepts ∧ (opened (oks 27)).WritesOk 27 ∧ 7 < 8 :=
  ⟨opened_accepts _, oks_writesOk rfl rfl, by decide⟩

theorem witness_PrimitiveEventCounts : (idleBus (oks 1)).Accepts ∧ (idleBus (oks 1)).WritesOk 1 ∧
    (idleBus (oks 3)).WritesOk 3 ∧ (idleBus (oks 27)).WritesOk 27 ∧
    (idleBus (oks 31)).WritesOk (4 + 27 * [(0x40 : Byte)].length) :=
  ⟨idleBus_accepts _, oks_writesOk rfl rfl, oks_writesOk rfl rfl, oks_writesOk rfl rfl, oks_writesOk rfl rfl⟩

theorem witness_WaveformOfWrbyte : (opened (oks 27)).Accepts ∧ (opened (oks 27)).WritesOk 27 ∧
    (opened (oks 27)).lvlClk = .high ∧ (afterByte (oks 27)).lvlClk = .low ∧ (7 < 8 ∧ 0 < 8) :=
  ⟨opened_accepts _, oks_writesOk rfl rfl, rfl, rfl, by decide⟩

theorem witness_SetsegEventCounts : (idleBus (oks 93)).Accepts ∧
    (idleBus (oks 93)).WritesOk (93 + 27 * ([] : List Byte).length) :=
  ⟨idleBus_accepts _, oks_writesOk rfl rfl⟩

theorem witness_DelayFloors : (idleBus []).Accepts ∧ (idleBus (oks 2)).WritesOk 2 ∧ (15 : Byte).toNat < 16 ∧
    (idleBus (oks 1)).WritesOk 1 ∧ (idleBus (oks 3)).WritesOk 3 ∧ (idleBus (oks 27)).WritesOk 27 ∧
    (idleBus (oks 120)).WritesOk (93 + 27 * [(0xAA : Byte)].length) :=
  ⟨idleBus_accepts _, oks_writesOk rfl rfl, by decide, oks_writesOk rfl rfl, oks_writesOk rfl rfl,
    oks_writesOk rfl rfl, oks_writesOk rfl rfl⟩

theorem witness_ListenerSeesTheThreeFrames : (idleBus (oks 120)).Accepts ∧
    (idleBus (oks 120)).wave = ⟨.high, .high⟩ ∧
    (idleBus (oks 120)).WritesOk (93 + 27 * [(0xAA : Byte)].length) :=
  ⟨idleBus_accepts _, rfl, oks_writesOk rfl rfl⟩

theorem witness_ListenerSeesAFrame : (idleBus (oks 31)).Accepts ∧ (idleBus (oks 31)).wave = ⟨.high, .high⟩ ∧
    (idleBus (oks 31)).frame = .idle ∧ (idleBus (oks 31)).WritesOk (4 + 27 * [(0x40 : Byte)].length) :=
  ⟨idleBus_accepts _, rfl, rfl, oks_writesOk rfl rfl⟩

theorem witness_SetsegEqualsItsFrames : (opened (oks 120)).Accepts ∧
    (opened (oks 120)).WritesOk (93 + 27 * [(0xAA : Byte)].length) := ⟨opened_accepts _, oks_writesOk rfl rfl⟩

theorem witness_EventsOneByOneGiveTheOperation : (delaySteps (.alone .delay) [.returnOk]).length ≤ 1 := by decide

theorem witness_EachStepIsOneEvent :
    (({ idleBus [] with seq := .running (delaySteps (.alone .delay) [.returnOk]) } : State).seq =
      .running ((Place.alone .delay).step .delay 0 0 [] .delay [.returnOk] :: [])) ∧
    (({ idleBus [] with port := [0x400] } : State).seq = .rest ∧ decode (.command 0x400) = .ok .delay) ∧
    (∃ t, eventStep { idleBus [] with port := [0x400] } = .next t) ∧ (idleBus []).Ended :=
  ⟨rfl, ⟨rfl, by decide⟩, ⟨_, rfl⟩, rfl, rfl, rfl⟩

/-- R13, R134: the word `WRBYTE 0x05` taken and its first event done; the next event is the delay after it. -/
theorem test_eventStep_takes_a_word :
    (evented { idleBus (oks 27) with port := [0x305] }).trace = [c0] ∧
    (evented { idleBus (oks 27) with port := [0x305] }).position =
      some ⟨.wrbyte, .idle, none, .byte, 0, 1⟩ := by decide

/-- R249: a `SETSEG` whose data words have not arrived has not returned, so the run has not ended. -/
theorem test_half_received_has_not_ended : ¬ (receiving []).Ended := fun h => by cases h.returned

theorem witness_PositionInAByte : (idleBus (oks 27)).WritesOk 27 ∧ (53 < 54 ∧ 0 < 53) :=
  ⟨oks_writesOk rfl rfl, by decide⟩

/-- The clauses meet at 0, 1, 61, 62, 63 and so on; `k` falls under one of them only. -/
theorem witness_TxnFollowsTheFrames : (idleBus (oks 120)).txn = .idle ∧
    (idleBus (oks 120)).WritesOk (93 + 27 * [(0xAA : Byte)].length) ∧
    (0 < 1 ∧ 61 < 62) ∧ (62 < 63 ∧ 177 < 124 + 54 * [(0xAA : Byte)].length) ∧
    178 = 124 + 54 * [(0xAA : Byte)].length ∧ 239 < 186 + 54 * [(0xAA : Byte)].length ∧
    186 + 54 * [(0xAA : Byte)].length ≤ 240 :=
  ⟨rfl, oks_writesOk rfl rfl, by decide, by decide, by decide, by decide, by decide⟩

theorem idleBus_consistent (script : List WriteOutcome) :
    Consistent { idleBus script with tBit := Config.tBitNs, port := [0x100] } :=
  ⟨fun _ h => (by cases h), fun _ => rfl, fun _ _ => ⟨rfl, rfl⟩, fun _ h => (by cases h), fun _ => ⟨rfl, rfl⟩,
    fun _ => rfl, fun _ h => (by cases h)⟩

/-- A ready engine on the idle bus with a `START` issued. -/
theorem witness_StepKeepsConsistency :
    Consistent { idleBus (oks 1) with tBit := Config.tBitNs, port := [0x100] } ∧
    ∃ t, step { idleBus (oks 1) with tBit := Config.tBitNs, port := [0x100] } = .next t :=
  ⟨idleBus_consistent _, _, rfl⟩

theorem witness_StepKeepsFollowsTrace :
    FollowsTrace { idleBus [.fail] with trace := [.cfg .clk, .cfg .dio], port := [0x100] } ∧
    (∃ t, step { idleBus [.fail] with trace := [.cfg .clk, .cfg .dio], port := [0x100] } = .next t) ∧
    ∃ t, eventStep { idleBus [.fail] with trace := [.cfg .clk, .cfg .dio], port := [0x100] } = .next t :=
  ⟨⟨fun _ => by decide, by decide, by decide⟩, ⟨_, rfl⟩, _, rfl⟩

theorem witness_StepKeepsRecordsAborts :
    RecordsAborts { idleBus [.fail] with port := [0x100] } ∧
    (∃ t, step { idleBus [.fail] with port := [0x100] } = .next t) ∧
    ∃ t, eventStep { idleBus [.fail] with port := [0x100] } = .next t :=
  ⟨⟨rfl, fun _ h => (by cases h)⟩, ⟨_, rfl⟩, _, rfl⟩

theorem witness_CharactersEncodeAsTheirBytes : 'b'.toNat < 256 ∧ (Char.ofNat 255).toNat < 256 ∧
    256 ≤ (Char.ofNat 256).toNat := by decide

theorem witness_ClosedSetOfTheEncoder : byteToSegments commonPattern 0x38 = some 0x7F := by decide

theorem witness_ColonCornerCases : charToSegments commonPattern ' ' = some 0x00 ∧
    charToSegments commonPattern '2' = some 0x5B := by decide

theorem witness_EncodingLengthAndError :
    (stringToSegments commonPattern ['1', ':', '2']).toOption = some [0x86, 0x5B] ∧
    stringToSegments commonPattern ['1', ':', ':'] = .error ':' := ⟨by decide, rfl⟩

theorem witness_SetStringEndToEnd :
    ((idleBus (oks 201)).Accepts ∧ (idleBus (oks 201)).wave = ⟨.high, .high⟩ ∧ (idleBus (oks 201)).WritesOk 201) ∧
    stringToSegments Config.pattern ['x'] = .error 'x' ∧
    (bytestringToSegments Config.pattern [] = .ok [] ∧ (idleBus []).seq = .rest ∧ (idleBus []).pending = none) :=
  ⟨⟨idleBus_accepts _, rfl, oks_writesOk rfl rfl⟩, rfl, rfl, rfl, rfl⟩

end Sys2Proof.Tests
end

section
/-! PROOFS. The engine's two steps. What one event of a sequence adds, what a whole run adds, and how `eventStep` and
`step` begin alike: what every event carries on, and the taking of a word leaves alone, is then kept by both. -/

namespace Sys2Proof.Machine

/-! ## A sequence launched, and the events of one that runs -/

@[simp] theorem launch_trace (p : List Micro) (s : State) : (launch p s).trace = s.trace := by cases p <;> rfl

@[simp] theorem launch_wave (p : List Micro) (s : State) : (launch p s).wave = s.wave := by cases p <;> rfl

@[simp] theorem launch_dir (p : List Micro) (s : State) (l : Line) : (launch p s).dir l = s.dir l := by
  cases p <;> cases l <;> rfl

@[simp] theorem launch_writes (p : List Micro) (s : State) : (launch p s).writes = s.writes := by cases p <;> rfl

/-- The next event of a running sequence is the first of that sequence launched. -/
theorem tick_running {todo : List Micro} {s : State} (h : s.seq = .running todo) :
    tick s = tick (launch todo s) := by
  cases todo with
  | nil => simp only [tick, h, launch]
  | cons m ms => rw [launch_self h]

theorem actWrites_le_one (a : Act) : actWrites a ≤ 1 := by cases a <;> simp [actWrites]

/-- What one event of a sequence adds: one event and at most one write, or one write that stalls and no event. -/
theorem tick_adds {m : Micro} {ms : List Micro} {s : State} (h : s.seq = .running (m :: ms)) :
    ((∃ e, (tick s).trace = s.trace ++ [e]) ∨
      ((tick s).trace = s.trace ∧ (tick s).seq = .stalled (m :: ms))) ∧
    s.writes ≤ (tick s).writes ∧ (tick s).writes ≤ s.writes + 1 := by
  obtain he | ⟨hw, he⟩ | ⟨hw, he⟩ := tick_cases m ms s <;> rw [launch_self h] at he <;> rw [he]
  · have := actWrites_le_one m.act
    exact ⟨.inl ⟨_, (launch_trace ..).trans (okStep_trace ..)⟩, by simp, by simpa⟩
  · refine ⟨.inl ⟨(actEvent m.act (transfers m.before s)).failed, ?_⟩, ?_⟩
    · rw [abort_trace, failEvent_trace _ hw, transfers_trace]
    · simp [failEvent_writes _ hw]
  · refine ⟨.inr ⟨(stallEvent_trace ..).trans (transfers_trace ..), rfl⟩, ?_⟩
    simp [stallEvent_writes _ hw]

/-- In whatever state, one event adds at most one event and one write. -/
theorem tick_bounds (s : State) : s.trace <+: (tick s).trace ∧ (tick s).trace.length ≤ s.trace.length + 1 ∧
    s.writes ≤ (tick s).writes ∧ (tick s).writes ≤ s.writes + 1 := by
  have still : ∀ t : State, t.trace = s.trace → t.writes = s.writes →
      s.trace <+: t.trace ∧ t.trace.length ≤ s.trace.length + 1 ∧ s.writes ≤ t.writes ∧ t.writes ≤ s.writes + 1 :=
    fun t ht hw => by simp [ht, hw]
  obtain h | ⟨todo, h⟩ | ⟨todo, h⟩ := seq_cases s
  · rw [tick_rest h]; exact still s rfl rfl
  · cases todo with
    | nil => rw [tick_running h]; exact still _ rfl rfl
    | cons m ms =>
      obtain ⟨⟨e, he⟩ | ⟨he, -⟩, hw⟩ := tick_adds h <;> rw [he] <;> exact ⟨by simp, by simp, hw⟩
  · rw [tick_stalled h]; exact still s rfl rfl

/-- What a run adds to the trace: events that are no failure, and after them at most one event. -/
theorem run_adds (p : List Micro) (s : State) : ∃ done last, (run p s).trace = s.trace ++ (done ++ last) ∧
    (∀ e, e ∈ done → e.isFailure = false) ∧ last.length ≤ 1 := by
  obtain ⟨-, hr⟩ | ⟨p₁, m, p₂, -, hw, -, ⟨-, hr⟩ | ⟨-, hr⟩⟩ := run_cases p s
  · refine ⟨okEvents p s, [], ?_, okEvents_noFailure p s, by simp⟩
    rw [hr, List.append_nil]
    exact okRun_trace p s
  · refine ⟨okEvents p₁ s, [(actEvent m.act (transfers m.before (okRun p₁ s))).failed], ?_,
      okEvents_noFailure p₁ s, Nat.le_refl 1⟩
    rw [hr, abort_trace, failEvent_trace _ hw, transfers_trace, okRun_trace, List.append_assoc]
  · refine ⟨okEvents p₁ s, [], ?_, okEvents_noFailure p₁ s, by simp⟩
    rw [hr, List.append_nil]
    simp only [stallEvent_trace, transfers_trace, okRun_trace]

/-! ## How a step begins -/

/-- What the next word does when it is taken drives nothing. -/
theorem issueWord_keeps (w : CmdWord) (s : State) : (issueWord w s).trace = s.trace ∧
    (issueWord w s).wave = s.wave ∧ (∀ l, (issueWord w s).dir l = s.dir l) ∧ (issueWord w s).writes = s.writes := by
  obtain ⟨i, p, u, -, hr, he⟩ | ⟨i, ha⟩ := issueWord_cases w s
  · obtain ⟨-, -, -, hwave, hdir, htrace, -, -, hwrites, -⟩ := hr.from
    simp [he, htrace, hwave, hdir, hwrites]
  · exact ⟨ha.trace, ha.wave, ha.dir, ha.writes⟩

/-- Where a step of either machine begins its events: in the middle of an operation, or at rest with no word issued,
where it stands; else at the word it takes. -/
inductive Begins (s : State) : State → Prop where
  | here : Begins s s
  | word (w : CmdWord) (ws : List CmdWord) : s.seq = .rest → s.port = w :: ws →
      Begins s (issueWord w { s with port := ws })

theorem Begins.keeps {s v : State} (h : Begins s v) :
    v.trace = s.trace ∧ v.wave = s.wave ∧ (∀ l, v.dir l = s.dir l) ∧ v.writes = s.writes := by
  cases h with
  | here => exact ⟨rfl, rfl, fun _ => rfl, rfl⟩
  | word w ws => exact issueWord_keeps w { s with port := ws }

theorem eventStep_word {s : State} {w : CmdWord} {ws : List CmdWord} (hs : s.seq = .rest)
    (hp : s.port = w :: ws) : eventStep s = .next (tick (issueWord w { s with port := ws })) := by
  simp only [eventStep, hs, fetch, hp]

/-- A step at rest completes what the next word does when it is taken. -/
theorem step_issueWord {s : State} {w : CmdWord} {ws : List CmdWord} (hs : s.seq = .rest)
    (hp : s.port = w :: ws) : step s = .next (complete (issueWord w { s with port := ws })) := by
  have hs' : ({ s with port := ws } : State).seq = .rest := hs
  rw [step_word hs hp, issueWord]
  cases decodeCommand w with
  | ok i => exact (exec_rest i hs').symm.trans (exec_issue i hs')
  | error e => exact (rejectWord_rest hs').symm.trans (accept_rest issueRejected hs')

/-- The two steps begin alike: stuck at a stalled write neither goes on; else one performs the first event where the
other performs them all (log entry 7). -/
theorem steps_begin (s : State) :
    (∃ todo, s.seq = .stalled todo ∧ eventStep s = .fault .stalled ∧ step s = .fault .stalled) ∨
    ((∀ todo, s.seq ≠ .stalled todo) ∧
      ∃ v, Begins s v ∧ eventStep s = .next (tick v) ∧ step s = .next (complete v)) := by
  obtain h | ⟨todo, h⟩ | ⟨todo, h⟩ := seq_cases s
  · refine .inr ⟨by simp [h], ?_⟩
    cases hp : s.port with
    | nil =>
      refine ⟨s, .here, ?_, ?_⟩
      · simp only [eventStep, h, fetch, hp, tick_rest h]
      · simp only [step, h, fetch, hp, complete_rest h]
    | cons w ws => exact ⟨_, .word w ws h hp, eventStep_word h hp, step_issueWord h hp⟩
  · refine .inr ⟨by simp [h], s, .here, ?_, ?_⟩
    · simp only [eventStep, h]
    · simp only [step, h, complete_running h]
  · exact .inl ⟨todo, h, by simp only [eventStep, h], by simp only [step, h]⟩

/-! ## A sequence performed one event at a time -/

/-- With as many steps as it has events, a sequence ends where its whole run ends. -/
theorem ticks_launch_eq_run (todo : List Micro) (s : State) (n : Nat) (h : todo.length ≤ n) :
    ticks n (launch todo s) = run todo s := by
  induction todo generalizing n s with
  | nil => exact ticks_of_tick_eq rfl n
  | cons m ms ih =>
    obtain ⟨k, rfl⟩ : ∃ k, n = k + 1 := Nat.exists_eq_succ_of_ne_zero (Nat.ne_zero_of_lt h)
    rw [ticks, tick_launch, run]
    cases perform m s with
    | done s' => exact ih s' k (Nat.le_of_succ_le_succ h)
    | failed c s' => exact ticks_of_tick_eq rfl k
    | stuck s' => exact ticks_of_tick_eq rfl k

/-- After the first event of a sequence the machine of single events comes to where its whole run ends, and takes no
word before. -/
theorem eventCore_run_launch (p : List Micro) (s : State) :
    ∃ n, eventCore.run n (tick (launch p s)) = .next (run p s) := by
  induction p generalizing s with
  | nil => exact ⟨0, rfl⟩
  | cons m ms ih =>
    rw [tick_launch, run]
    cases perform m s with
    | failed c s' => exact ⟨0, rfl⟩
    | stuck s' => exact ⟨0, rfl⟩
    | done s' =>
      cases ms with
      | nil => exact ⟨0, rfl⟩
      | cons m' ms' =>
        obtain ⟨n, hn⟩ := ih s'
        exact ⟨n + 1, (eventCore_run_succ rfl n).trans hn⟩

/-- From the first event on, in whatever state, the machine of single events comes to the end of what runs. -/
theorem eventCore_run_complete (v : State) : ∃ n, eventCore.run n (tick v) = .next (complete v) := by
  obtain h | ⟨todo, h⟩ | ⟨todo, h⟩ := seq_cases v
  · exact ⟨0, by rw [tick_rest h, complete_rest h]; rfl⟩
  · rw [tick_running h, complete_running h]
    exact eventCore_run_launch todo v
  · refine ⟨0, ?_⟩
    rw [tick_stalled h]
    simp only [complete, h, Host.Core.run]

/-! ## Invariants of a sequence -/

/-- What holds between the events of a sequence (`P`), with what then holds where it stops (`Q`): at its end, after an
abort, stuck at a stalled write. -/
structure Carries (P Q : State → Prop) : Prop where
  ok : ∀ m s, P s → P (okStep m s)
  fail : ∀ a ts s, actWrites a = 1 → P s → Q (abort (actCause a (transfers ts s)) (failEvent a (transfers ts s)))
  stall : ∀ a ts s todo, actWrites a = 1 → P s → Q { stallEvent a (transfers ts s) with seq := .stalled todo }
  seq : ∀ s q, P s → P { s with seq := q }
  stop : ∀ s, P s → Q s

variable {P Q : State → Prop}

theorem Carries.run (h : Carries P Q) (p : List Micro) {s : State} (hs : P s) : Q (run p s) := by
  induction p generalizing s with
  | nil => exact h.stop _ (h.seq s .rest hs)
  | cons m ms ih =>
    rw [Machine.run]
    obtain ⟨-, he⟩ | ⟨hw, -, he⟩ | ⟨hw, -, he⟩ := perform_cases m s <;> rw [he]
    · exact ih (h.ok m s hs)
    · exact h.fail m.act m.before s hw hs
    · exact h.stall m.act m.before s _ hw hs

theorem Carries.launch (h : Carries P Q) (p : List Micro) {s : State} (hs : P s) : P (launch p s) := by
  cases p with
  | nil => exact h.seq s .rest hs
  | cons m ms => exact h.seq s _ hs

theorem Carries.tick (h : Carries P Q) {s : State} (hs : P s) : Q (tick s) := by
  obtain hq | ⟨todo, hq⟩ | ⟨todo, hq⟩ := seq_cases s
  · rw [tick_rest hq]; exact h.stop s hs
  · rw [tick_running hq]
    cases todo with
    | nil => exact h.stop _ (h.seq s .rest hs)
    | cons m ms =>
      obtain he | ⟨hw, he⟩ | ⟨hw, he⟩ := tick_cases m ms s <;> rw [he]
      · exact h.stop _ (h.launch ms (h.ok m s hs))
      · exact h.fail m.act m.before s hw hs
      · exact h.stall m.act m.before s _ hw hs
  · rw [tick_stalled hq]; exact h.stop s hs

theorem Carries.complete (h : Carries P Q) {s : State} (hs : P s) : Q (complete s) := by
  obtain hq | ⟨todo, hq⟩ | ⟨todo, hq⟩ := seq_cases s
  · rw [complete_rest hq]; exact h.stop s hs
  · rw [complete_running hq]; exact h.run todo hs
  · simp only [Machine.complete, hq]; exact h.stop s hs

/-- Both steps lead where `Q` holds, if `P` holds where they begin. -/
theorem Carries.steps (h : Carries P Q) {s : State} (hb : (∀ todo, s.seq ≠ .stalled todo) → ∀ v, Begins s v → P v) :
    (∀ t, eventStep s = .next t → Q t) ∧ (∀ t, step s = .next t → Q t) := by
  obtain ⟨todo, -, he, hs⟩ | ⟨hq, v, hv, he, hs⟩ := steps_begin s <;> rw [he, hs]
  · exact ⟨fun t ht => (by cases ht), fun t ht => (by cases ht)⟩
  · have hP := hb hq v hv
    exact ⟨fun t ht => by cases ht; exact h.tick hP, fun t ht => by cases ht; exact h.complete hP⟩

/-! ## The lines follow the trace -/

/-- The levels and directions are those of the trace (R31, R32), as they are everywhere but at a stalled write. -/
structure Driven (s : State) : Prop where
  wave : s.wave = (Wave.mk .unknown .unknown).after s.trace
  dir : ∀ l, s.dir l = dirAfter l .unknown s.trace

theorem Driven.followsTrace {s : State} (h : Driven s) : FollowsTrace s :=
  ⟨fun _ => h.wave, h.dir .clk, h.dir .dio⟩

theorem FollowsTrace.driven {s : State} (h : FollowsTrace s) (hq : ∀ todo, s.seq ≠ .stalled todo) : Driven s where
  wave := h.levels hq
  dir l := by
    cases l with
    | clk => exact h.dirClk
    | dio => exact h.dirDio

theorem Driven.congr {s t : State} (h : Driven s) (htrace : t.trace = s.trace) (hwave : t.wave = s.wave)
    (hdir : ∀ l, t.dir l = s.dir l) : Driven t where
  wave := by rw [hwave, htrace, h.wave]
  dir l := by rw [hdir, htrace, h.dir]

/-- One more event drives the lines as its rule says. -/
theorem Driven.event {s t : State} {e : Event} (h : Driven s) (htrace : t.trace = s.trace ++ [e])
    (hwave : t.wave = s.wave.next e) (hdir : ∀ l, t.dir l = dirAfter l (s.dir l) [e]) : Driven t where
  wave := by rw [hwave, htrace, Wave.after_concat, h.wave]
  dir l := by rw [hdir, htrace, dirAfter_append, h.dir]

theorem Driven.transfers {s : State} (h : Driven s) (ts : List Transfer) : Driven (Machine.transfers ts s) :=
  h.congr (transfers_trace ts s) (transfers_wave ts s) (transfers_dir ts s)

/-- The lines follow the trace through every sequence; a stalled write leaves its line at `X` with no event and the
directions as they were (R198). -/
theorem driven_carries : Carries Driven FollowsTrace where
  ok m _ h := ((h.transfers m.before).event (okEvent_trace ..) (okEvent_wave ..) (okEvent_dir _ _)).transfers m.after
  fail _ ts _ hw h := by
    have hf := (h.transfers ts).event (failEvent_trace _ hw) (failEvent_wave _ hw) (failEvent_dir _ · hw)
    exact (hf.congr (abort_trace ..) (abort_wave ..) (abort_dir _ _)).followsTrace
  stall a ts s todo _ h := by
    have hdir : ∀ l, (stallEvent a (transfers ts s)).dir l =
        dirAfter l .unknown (stallEvent a (transfers ts s)).trace := fun l => by
      rw [stallEvent_dir, stallEvent_trace, (h.transfers ts).dir]
    exact ⟨fun hq => absurd rfl (hq todo), hdir .clk, hdir .dio⟩
  seq _ _ h := h.congr rfl rfl fun l => by cases l <;> rfl
  stop _ h := h.followsTrace

/-! ## The obligations -/

/-- Settles O53: every event keeps the lines with the trace (`driven_carries`), and a word taken drives nothing. -/
theorem stepKeepsFollowsTrace : Obligations.StepKeepsFollowsTrace := by
  have key : ∀ s, FollowsTrace s →
      (∀ t, eventStep s = .next t → FollowsTrace t) ∧ (∀ t, step s = .next t → FollowsTrace t) := fun s hs =>
    driven_carries.steps fun hq v hv => by
      obtain ⟨htrace, hwave, hdir, -⟩ := hv.keeps
      exact (hs.driven hq).congr htrace hwave hdir
  exact ⟨fun s t hs => (key s hs).1 t, fun s t hs => (key s hs).2 t⟩

/-- Settles O12, by the position of the sequencer. -/
theorem instructionsAnswerAtRest : Obligations.InstructionsAnswerAtRest :=
  fun i _ => ⟨fun h => ⟨_, exec_rest i h⟩, fun _ h hi => exec_running i h hi, fun _ h => exec_stalled i h⟩

/-- Settles O36: what an instruction adds is what its run adds, where only the last event can be a failure. -/
theorem failureIsTheLastEvent : Obligations.FailureIsTheLastEvent := by
  intro i s t evs e hx ht he
  obtain ⟨p, u, hr, rfl⟩ | ⟨-, ha⟩ := exec_next hx
  · obtain ⟨-, -, -, -, -, htrace, -⟩ := hr.from
    obtain ⟨done, last, hrun, hdone, hlast⟩ := run_adds p u
    rw [hrun, htrace] at ht
    obtain rfl := List.append_cancel_left ht
    match last, hlast with
    | [], _ => exact hdone e (List.mem_of_mem_dropLast (by simpa using he))
    | [_], _ => exact hdone e (by simpa using he)
  · have hnil : evs = [] := by simpa [ha.trace] using ht
    simp [hnil] at he

/-- Settles O47: both steps begin alike, and the events one by one lead to the end of the run. -/
theorem eventsOneByOneGiveTheOperation : Obligations.EventsOneByOneGiveTheOperation := by
  refine ⟨ticks_launch_eq_run, fun s => ?_⟩
  obtain ⟨todo, -, he, hs⟩ | ⟨-, v, -, he, hs⟩ := steps_begin s
  · exact ⟨0, by simp only [Host.Core.run, he, hs]⟩
  · obtain ⟨n, hn⟩ := eventCore_run_complete v
    exact ⟨n, by rw [eventCore_run_succ he, hn, hs]⟩

/-- Settles O48, from what one event adds (`tick_adds`, `tick_bounds`) and how a step begins. -/
theorem eachStepIsOneEvent : Obligations.EachStepIsOneEvent := by
  refine ⟨fun m ms s h => ⟨by simp only [eventStep, h], tick_adds h⟩, ?_, ?_, ?_⟩
  · intro s w ws i hs hp hd
    have hd' : decodeCommand w = .ok i := hd
    rw [eventStep_word hs hp, issueWord, hd']
  · intro s t ht
    obtain ⟨todo, -, he, -⟩ | ⟨-, v, hv, he, -⟩ := steps_begin s <;> rw [he] at ht <;> cases ht
    obtain ⟨htrace, -, -, hwrites⟩ := hv.keeps
    rw [← htrace, ← hwrites]
    exact tick_bounds v
  · intro s h
    simp only [eventStep, h.rest, fetch, h.issued]

end Sys2Proof.Machine

end

section
/-! PROOFS. The registers and the ghost state over whole operations: who writes the control registers, the growth of
trace and results, and the invariant `Consistent`, cut into the part an engine at rest holds (`Fits`) and the part every
engine holds (`Equipped`). -/

namespace Sys2Proof.Machine

/-! ## The control registers and the directions -/

/-- A run that configures no line keeps the directions. -/
theorem run_dir_of_configFree {p : List Micro} (h : configFree p = true) (s : State) (l : Line) :
    (run p s).dir l = s.dir l :=
  run_untouched (f := fun s => s.dir l) (fun c s => abort_dir c s l) (fun _ _ => by cases l <;> rfl)
    (untouched_dir h l) s

/-- No run but that of `INIT` writes a control register or a direction (R23, R24, R25, R32). -/
theorem Runs.run_keeps_control {i : Instr} {s u : State} {p : List Micro} (h : Runs i s p u) (hi : i ≠ .init) :
    (run p u).brt = s.brt ∧ (run p u).tBit = s.tBit ∧ (run p u).ready = s.ready ∧
      ∀ l, (run p u).dir l = s.dir l := by
  obtain ⟨hready, hbrt, htBit, -, hdir, -⟩ := h.from
  have hp := h.plain hi
  exact ⟨(run_keeps steady_brt (leaves_brt hp) u).trans hbrt,
    (run_keeps steady_tBit (leaves_tBit hp) u).trans htBit,
    (run_keeps steady_ready (leaves_ready hp) u).trans hready,
    fun l => (run_dir_of_configFree (h.configFree hi) u l).trans (hdir l)⟩

/-- Every run leaves the words still to be taken and the environment alone. -/
theorem Runs.run_keeps_outside {i : Instr} {s u : State} {p : List Micro} (h : Runs i s p u) :
    (run p u).port = s.port ∧ (run p u).script = s.script := by
  obtain ⟨-, -, -, -, -, -, hport, hscript, -⟩ := h.from
  exact ⟨(run_keeps steady_port (leaves_port p) u).trans hport,
    (run_keeps steady_script (fun _ _ t _ s => transfer_script t s) u).trans hscript⟩

/-- `INIT` has cleared `READY` before its first write and sets it only after its last one: it is 1 only at the end of a
run whose writes all succeeded. -/
theorem Runs.run_init_ready {s u : State} {p : List Micro} (h : Runs .init s p u) (hr : (run p u).ready = true) :
    run p u = { okRun p u with seq := .rest } := by
  obtain ⟨-, he⟩ | ⟨p₁, m, p₂, rfl, -, -, hcut⟩ := run_cases p u
  · exact he
  · obtain ⟨-, -, hclear⟩ := h.control_at_cut
    have hkept : (run (p₁ ++ m :: p₂) u).ready = (transfers m.before (okRun p₁ u)).ready := by
      obtain ⟨-, he⟩ | ⟨-, he⟩ := hcut <;> rw [he]
      · exact steady_ready.fail ..
      · exact steady_ready.stall ..
    rw [hkept, hclear] at hr
    cases hr

/-- An initialised engine drives both lines and has its bit delay (R24, R32, R231). -/
structure Equipped (s : State) : Prop where
  dir : s.ready = true → ∀ l, s.dir l = .out
  delay : s.ready = true → s.tBit = Config.tBitNs

theorem Equipped.congr {s t : State} (h : Equipped s) (hready : t.ready = s.ready) (htBit : t.tBit = s.tBit)
    (hdir : ∀ l, t.dir l = s.dir l) : Equipped t where
  dir hr l := (hdir l).trans (h.dir (hready ▸ hr) l)
  delay hr := htBit.trans (h.delay (hready ▸ hr))

theorem Runs.equipped_run {i : Instr} {s u : State} {p : List Micro} (h : Runs i s p u) (hs : Equipped s) :
    Equipped (run p u) := by
  by_cases hi : i = .init
  · subst hi
    have hend : (run p u).ready = true → (∀ l, (run p u).dir l = .out) ∧ (run p u).tBit = Config.tBitNs := by
      intro hr
      rw [h.run_init_ready hr]
      cases h with
      | init => rw [okRun_init]; exact ⟨fun l => by cases l <;> rfl, rfl⟩
      | wire _ _ _ _ he => cases he
    exact ⟨fun hr => (hend hr).1, fun hr => (hend hr).2⟩
  · obtain ⟨-, htBit, hready, hdir⟩ := h.run_keeps_control hi
    exact hs.congr hready htBit hdir

/-! ## The framing state and the levels -/

/-- What an engine at rest holds of `TXN`, `FRAME` and the levels (R28, R30, R141). -/
structure Fits (s : State) : Prop where
  txn : s.txn = .idle
  idle : s.frame = .idle → s.lvlClk = .high ∧ s.lvlDio = .high
  opened : s.frame = .opened → s.lvlClk = .low ∨ (s.lvlClk = .high ∧ s.lvlDio = .low)

theorem Fits.congr {s t : State} (h : Fits s) (htxn : t.txn = s.txn) (hframe : t.frame = s.frame)
    (hwave : t.wave = s.wave) : Fits t := by
  have hclk : t.lvlClk = s.lvlClk := congrArg Wave.clk hwave
  have hdio : t.lvlDio = s.lvlDio := congrArg Wave.dio hwave
  exact ⟨htxn.trans h.txn, by rw [hframe, hclk, hdio]; exact h.idle, by rw [hframe, hclk, hdio]; exact h.opened⟩

/-- On the idle bus, out of every transaction. -/
theorem Fits.of_idle {s : State} (htxn : s.txn = .idle) (hframe : s.frame = .idle) (hclk : s.lvlClk = .high)
    (hdio : s.lvlDio = .high) : Fits s :=
  ⟨htxn, fun _ => ⟨hclk, hdio⟩, fun h => by rw [hframe] at h; cases h⟩

/-- Outside every frame `FRAME` says nothing of the levels. -/
theorem Fits.of_undef {s : State} (htxn : s.txn = .idle) (hframe : s.frame = .undef) : Fits s :=
  ⟨htxn, fun h => (by rw [hframe] at h; cases h), fun h => (by rw [hframe] at h; cases h)⟩

theorem fits_abort (c : Cause) (s : State) : Fits (abort c s) := .of_undef rfl rfl

/-- A `START` opens a frame from the idle bus alone, where it leaves CLK high over the low DIO. -/
theorem Fits.start {s : State} (h : Fits s) (pl : Place) : Fits (okRun (startSteps pl [] [.returnOk]) s) := by
  rw [okRun_start]
  refine ⟨h.txn, ?_, ?_⟩
  · show s.frame.afterStart = .idle → _
    cases s.frame <;> rintro ⟨⟩
  · show s.frame.afterStart = .opened → _
    cases hf : s.frame <;> rintro ⟨⟩
    exact .inr ⟨(h.idle hf).1, rfl⟩

theorem Fits.stop {s : State} (h : Fits s) (pl : Place) : Fits (okRun (stopSteps pl [.returnOk]) s) := by
  rw [okRun_stop]
  refine .of_idle h.txn ?_ rfl rfl
  show s.frame.afterStop = .idle
  cases s.frame <;> rfl

/-- A byte leaves CLK low, and `FRAME` is never IDLE after it. -/
theorem Fits.sent {s : State} (h : Fits s) (b : Byte) : Fits (s.sent b) := by
  refine ⟨h.txn, ?_, fun _ => .inl rfl⟩
  show s.frame.afterByte = .idle → _
  cases s.frame <;> rintro ⟨⟩

/-- The bus fits again after a sequence whose writes all succeed. -/
theorem Runs.fits_okRun {i : Instr} {s u : State} {p : List Micro} (h : Runs i s p u) (hs : Fits s) :
    Fits (okRun p u) := by
  obtain ⟨-, -, -, hwave, -, -, -, -, -, hframe, htxn, -⟩ := h.from
  have hu : Fits u := hs.congr htxn hframe hwave
  have setseg : ∀ (segs : List Byte) (v : State), Fits (okRun (setsegSteps segs.length) { v with seg := segs }) := by
    intro segs v
    rw [okRun_setseg]
    exact .of_idle rfl rfl rfl rfl
  cases h with
  | init => rw [okRun_init]; exact .of_idle hu.txn rfl rfl rfl
  | start => exact hu.start _
  | stop => exact hu.stop _
  | wrbyte b => rw [okRun_byte _ _ _ b _ rfl]; exact (hu.sent b).congr rfl rfl rfl
  | delay => exact hu.congr rfl rfl rfl
  | setseg => exact setseg [] { dropPartial s with pending := none }
  | segdata b q => exact setseg (q.got ++ [b]) { s with pending := none }
  | wire _ slot b => rw [wireSteps, okRun_byte _ _ _ b _ rfl]; exact (hu.sent b).congr rfl rfl rfl

/-- The bus fits wherever a run leaves the engine at rest. -/
theorem Runs.fits_run {i : Instr} {s u : State} {p : List Micro} (h : Runs i s p u) (hs : Fits s)
    (hq : (run p u).seq = .rest) : Fits (run p u) := by
  obtain ⟨-, he⟩ | ⟨p₁, m, p₂, -, -, -, ⟨-, he⟩ | ⟨-, he⟩⟩ := run_cases p u
  · rw [he]; exact (h.fits_okRun hs).congr rfl rfl rfl
  · rw [he]; exact fits_abort ..
  · rw [he] at hq; cases hq

/-! ## The invariant -/

/-- A run ends at rest or stuck (R249). -/
theorem run_not_running (p : List Micro) (s : State) (todo : List Micro) : (run p s).seq ≠ .running todo := by
  obtain ⟨-, he⟩ | ⟨p₁, m, p₂, -, -, -, ⟨-, he⟩ | ⟨-, he⟩⟩ := run_cases p s <;> rw [he] <;> rintro ⟨⟩

/-- A half received `SETSEG` still needs a data word (R94). -/
def AwaitsData (s : State) : Prop := ∀ p, s.pending = some p → p.got.length < p.need ∧ p.need ≤ 255

theorem Consistent.fits {s : State} (h : Consistent s) (hq : s.seq = .rest) : Fits s :=
  ⟨h.txnIdle hq, h.idleHigh hq, h.openFrame hq⟩

theorem Consistent.equipped {s : State} (h : Consistent s) : Equipped s where
  dir hr l := by
    obtain ⟨hclk, hdio⟩ := h.readyOut hr
    cases l with
    | clk => exact hclk
    | dio => exact hdio
  delay := h.readyDelay

/-- `Consistent`, put together from its parts. -/
theorem Consistent.of_parts {s : State} (hq : ∀ todo, s.seq ≠ .running todo) (hf : s.seq = .rest → Fits s)
    (he : Equipped s) (hp : AwaitsData s) : Consistent s where
  settled := hq
  txnIdle h := (hf h).txn
  idleHigh h := (hf h).idle
  openFrame h := (hf h).opened
  readyOut h := ⟨he.dir h .clk, he.dir h .dio⟩
  readyDelay := he.delay
  partialShort := hp

theorem Consistent.after_answer {i : Instr} {s t : State} (hs : Consistent s) (hq : s.seq = .rest)
    (h : Answered i s t) : Consistent t := by
  refine .of_parts (by simp [h.seq, hq]) (fun _ => (hs.fits hq).congr h.txn h.frame h.wave)
    (hs.equipped.congr h.ready h.tBit h.dir) fun p hp => ?_
  obtain ⟨hlt, hn | ⟨q, hsq, hn⟩⟩ := h.pending p hp
  · exact ⟨hlt, hn⟩
  · exact ⟨hlt, hn ▸ (hs.partialShort q hsq).2⟩

theorem Consistent.after_run {i : Instr} {s u : State} {p : List Micro} (hs : Consistent s) (hq : s.seq = .rest)
    (h : Runs i s p u) : Consistent (run p u) := by
  refine .of_parts (run_not_running p u) (h.fits_run (hs.fits hq)) (h.equipped_run hs.equipped) fun q hp => ?_
  rw [run_keeps steady_pending (leaves_pending p), h.startPending] at hp
  split at hp
  · exact hs.partialShort q hp
  · cases hp

/-- Every instruction taken at rest keeps the invariant. -/
theorem Consistent.after_exec {i : Instr} {s t : State} (hs : Consistent s) (hq : s.seq = .rest)
    (h : exec i s = .next t) : Consistent t := by
  obtain ⟨p, u, hr, rfl⟩ | ⟨-, ha⟩ := exec_next h
  · exact hs.after_run hq hr
  · exact hs.after_answer hq ha

theorem Consistent.withPort {s : State} (h : Consistent s) (ws : List CmdWord) :
    Consistent { s with port := ws } :=
  .of_parts h.settled (fun hq => (h.fits hq).congr rfl rfl rfl)
    (h.equipped.congr rfl rfl fun l => by cases l <;> rfl) h.partialShort

/-! ## The growth of trace and results -/

/-- An answer at once takes no event and no result back. -/
theorem Answered.grows {i : Instr} {s t : State} (h : Answered i s t) :
    s.trace <+: t.trace ∧ s.results <+: t.results := by
  obtain ⟨rs, hrs, -⟩ := h.results
  exact ⟨by rw [h.trace], by rw [hrs]; exact List.prefix_append ..⟩

/-- An instruction takes no event and no result back. -/
theorem exec_grows {i : Instr} {s t : State} (h : exec i s = .next t) :
    s.trace <+: t.trace ∧ s.results <+: t.results := by
  obtain ⟨p, u, hr, rfl⟩ | ⟨-, ha⟩ := exec_next h
  · obtain ⟨-, -, -, -, -, htrace, -⟩ := hr.from
    obtain ⟨rs, hrs, -⟩ := hr.startResults
    obtain ⟨ht, hres⟩ := run_grows p u
    exact ⟨htrace ▸ ht, List.IsPrefix.trans (by rw [hrs]; exact List.prefix_append ..) hres⟩
  · exact ha.grows

/-! ## The obligations -/

/-- Settles O51: a step of a consistent engine waits, executes an instruction at rest, or refuses a word. -/
theorem stepKeepsConsistency : Obligations.StepKeepsConsistency := by
  intro s t hs h
  obtain ⟨-, -, rfl⟩ | ⟨todo, hq, -⟩ | ⟨w, ws, hq, -, ⟨i, -, hx⟩ | ⟨e, -, -, ha⟩⟩ := step_next h
  · exact hs
  · exact absurd hq (hs.settled todo)
  · exact (hs.withPort ws).after_exec hq hx
  · exact (hs.withPort ws).after_answer hq ha

/-- Settles O34: the runs of the other instructions keep these registers, and so do the answers at once. -/
theorem writersOfTheControlRegisters : Obligations.WritersOfTheControlRegisters := by
  intro i s t h
  obtain ⟨p, u, hr, rfl⟩ | ⟨-, ha⟩ := exec_next h
  · obtain ⟨hport, hscript⟩ := hr.run_keeps_outside
    refine ⟨hport, hscript, fun hi => ?_, fun hi _ => (hr.run_keeps_control hi).1⟩
    obtain ⟨-, htBit, hready, hdir⟩ := hr.run_keeps_control hi
    exact ⟨htBit, hready, hdir .clk, hdir .dio⟩
  · exact ⟨ha.port, ha.script, fun _ => ⟨ha.tBit, ha.ready, ha.dir .clk, ha.dir .dio⟩, fun _ => ha.brt⟩

/-- Settles O35: runs and answers only append (`run_grows`, `exec_grows`). -/
theorem traceAndResultsOnlyGrow : Obligations.TraceAndResultsOnlyGrow := by
  intro s t h
  obtain ⟨-, -, rfl⟩ | ⟨todo, -, rfl⟩ | ⟨w, ws, -, -, ⟨i, -, hx⟩ | ⟨e, -, -, ha⟩⟩ := step_next h
  · exact ⟨List.prefix_rfl, List.prefix_rfl⟩
  · exact run_grows todo s
  · exact (exec_grows hx :)
  · exact ha.grows

end Sys2Proof.Machine

end

section
/-! PROOFS. What an instruction drives and returns, compared between two states that agree in what is read: the same
course is taken, its events are those `fullEvents` lists, and the environment cuts both runs at the same write. -/

namespace Sys2Proof.Machine

/-! ## Runs cut at a known write -/

/-- A run whose first write that does not succeed fails is aborted there. -/
theorem run_endsAborted {p : List Micro} {u : State} {j : Nat} {done : List Event} {e : Event}
    (hs : silentToEnd p = true) (hsp : splitAtWrite j (okEvents p u) = some (done, e)) (hj : u.FirstNotOk j .fail) :
    EndsAborted u (run p u) j done e := by
  obtain ⟨hok, -⟩ | ⟨k, done', e', hsp', hk, h⟩ | ⟨k, done', e', -, hk, -⟩ := run_outcome hs u
  · have hlt := splitAtWrite_bound hsp
    rw [writes_okEvents] at hlt
    exact absurd hok (hj.not_writesOk (by decide) hlt)
  · obtain ⟨rfl, -⟩ := hj.unique hk (by decide) (by decide)
    rw [hsp] at hsp'
    cases hsp'
    exact h
  · obtain ⟨-, ho⟩ := hj.unique hk (by decide) (by decide)
    cases ho

/-- A run whose first write that does not succeed stalls is stuck there. -/
theorem run_endsStuck {p : List Micro} {u : State} {j : Nat} {done : List Event} {e : Event}
    (hs : silentToEnd p = true) (hsp : splitAtWrite j (okEvents p u) = some (done, e)) (hj : u.FirstNotOk j .stall) :
    EndsStuck u (run p u) j done e := by
  obtain ⟨hok, -⟩ | ⟨k, done', e', -, hk, -⟩ | ⟨k, done', e', hsp', hk, h⟩ := run_outcome hs u
  · have hlt := splitAtWrite_bound hsp
    rw [writes_okEvents] at hlt
    exact absurd hok (hj.not_writesOk (by decide) hlt)
  · obtain ⟨-, ho⟩ := hj.unique hk (by decide) (by decide)
    cases ho
  · obtain ⟨rfl, -⟩ := hj.unique hk (by decide) (by decide)
    rw [hsp] at hsp'
    cases hsp'
    exact h

/-! ## Two states that agree -/

/-- The same events and results lead from `s` to `t` and from `s'` to `t'`, and the writes are counted alike. -/
structure AddsAlike (s s' t t' : State) : Prop where
  events : ∃ evs, t.trace = s.trace ++ evs ∧ t'.trace = s'.trace ++ evs
  results : ∃ rs, t.results = s.results ++ rs ∧ t'.results = s'.results ++ rs
  writes : t'.writes = t.writes

theorem AddsAlike.refl {s s' : State} (h : s'.writes = s.writes) : AddsAlike s s' s s' :=
  ⟨⟨[], by simp⟩, ⟨[], by simp⟩, h⟩

theorem AddsAlike.trans {s s' t t' v v' : State} (h₁ : AddsAlike s s' t t') (h₂ : AddsAlike t t' v v') :
    AddsAlike s s' v v' := by
  obtain ⟨a, ha, ha'⟩ := h₁.events
  obtain ⟨b, hb, hb'⟩ := h₂.events
  obtain ⟨q, hq, hq'⟩ := h₁.results
  obtain ⟨r, hr, hr'⟩ := h₂.results
  exact ⟨⟨a ++ b, by simp [hb, ha], by simp [hb', ha']⟩, ⟨q ++ r, by simp [hr, hq], by simp [hr', hq']⟩, h₂.writes⟩

theorem AddsAlike.answer {s s' t t' : State} (h : AddsAlike s s' t t') (r : OpResult) :
    AddsAlike s s' (t.answer r) (t'.answer r) :=
  h.trans ⟨⟨[], by simp⟩, ⟨[r], rfl, rfl⟩, h.writes⟩

/-- The states agree in what an instruction reads: `READY`, `BRT`, the half received `SETSEG` and the environment. -/
structure Agree (s s' : State) : Prop where
  ready : s'.ready = s.ready
  brt : s'.brt = s.brt
  pending : s'.pending = s.pending
  script : s'.script = s.script
  writes : s'.writes = s.writes

/-- The end of a reception is answered alike. -/
theorem Agree.dropPartial_alike {s s' : State} (h : Agree s s') : AddsAlike s s' (dropPartial s) (dropPartial s') := by
  refine ⟨⟨[], by simp⟩, ⟨_, dropPartial_results s, ?_⟩, by simp [h.writes]⟩
  rw [dropPartial_results, h.pending]

/-- The events of the full operation are read off `BRT` and the half received `SETSEG`. -/
theorem Agree.fullEvents_eq {s s' : State} (h : Agree s s') (i : Instr) : fullEvents i s' = fullEvents i s := by
  cases i with
  | setseg n => simp only [fullEvents, h.brt]
  | segdata b => simp only [fullEvents, h.brt, h.pending]
  | _ => rfl

/-- One sequence, run from two states in one environment with the same events and results in prospect, adds the same. -/
theorem run_addsAlike {p : List Micro} {u u' : State} {rs : List OpResult} (hs : silentToEnd p = true)
    (hev : okEvents p u' = okEvents p u) (hscript : u'.script = u.script) (hwrites : u'.writes = u.writes)
    (hres : (okRun p u).results = u.results ++ rs) (hres' : (okRun p u').results = u'.results ++ rs) :
    AddsAlike u u' (run p u) (run p u') := by
  obtain ⟨hok, he⟩ | ⟨j, done, e, hsp, hj, h⟩ | ⟨j, done, e, hsp, hj, h⟩ := run_outcome hs u
  · have hok' : u'.WritesOk (stepWrites p) := fun i hi => by
      rw [State.outcomeAt_congr hscript, hwrites]
      exact hok i hi
    rw [he, run_ok p u' hok']
    refine ⟨⟨okEvents p u, okRun_trace p u, hev ▸ okRun_trace p u'⟩, ⟨rs, hres, hres'⟩, ?_⟩
    show (okRun p u').writes = (okRun p u).writes
    rw [okRun_writes, okRun_writes, hwrites]
  · have h' := run_endsAborted hs (hev.symm ▸ hsp) (hj.congr hscript hwrites)
    obtain ⟨c, hc, hr⟩ := h.result
    obtain ⟨c', hc', hr'⟩ := h'.result
    obtain rfl : c = c' := Option.some.inj (hc.symm.trans hc')
    refine ⟨⟨done ++ [e.failed], ?_, ?_⟩, ⟨_, hr, hr'⟩, by rw [h.writes, h'.writes, hwrites]⟩
    · rw [h.trace, List.append_assoc]
    · rw [h'.trace, List.append_assoc]
  · have h' := run_endsStuck hs (hev.symm ▸ hsp) (hj.congr hscript hwrites)
    exact ⟨⟨done, h.trace, h'.trace⟩, ⟨[], by simp [h.results], by simp [h'.results]⟩,
      by rw [h.writes, h'.writes, hwrites]⟩

/-- Two courses alike: one sequence, or an answer each, with the same added on the way. -/
inductive Course.Alike (s s' : State) : Course → Course → Prop where
  | runs {p : List Micro} {u u' : State} : AddsAlike s s' u u' → Course.Alike s s' (.runs p u) (.runs p u')
  | answers {t t' : State} : AddsAlike s s' t t' → Course.Alike s s' (.answers t) (.answers t')

section
variable {s s' u u' : State} (h : AddsAlike s s' u u') (hready : u'.ready = u.ready)
include h hready

theorem readyCourse_alike (p : List Micro) : Course.Alike s s' (readyCourse p u) (readyCourse p u') := by
  unfold readyCourse
  rw [hready]
  split
  · exact .runs h
  · exact .answers (h.answer _)

theorem setsegCourse_alike (segs : List Byte) : Course.Alike s s' (setsegCourse segs u) (setsegCourse segs u') := by
  unfold setsegCourse
  rw [hready]
  split
  · exact .runs ⟨h.events, h.results, h.writes⟩
  · exact .answers (h.answer _)

theorem receiveCourse_alike (need : Nat) (got : List Byte) :
    Course.Alike s s' (receiveCourse need got u) (receiveCourse need got u') := by
  unfold receiveCourse
  split
  · have hu : AddsAlike s s' { u with pending := none } { u' with pending := none } := ⟨h.events, h.results, h.writes⟩
    exact setsegCourse_alike hu hready got
  · exact .answers ⟨h.events, h.results, h.writes⟩

theorem writeBrightness_alike (b : Nibble) :
    AddsAlike s s' (writeBrightness b u) (writeBrightness b u') := by
  unfold writeBrightness whenReady
  rw [hready]
  split
  · exact h.trans ⟨⟨[], by simp⟩, ⟨[.ok], rfl, rfl⟩, h.writes⟩
  · exact h.answer _

end

/-- An instruction takes the same course in two states that agree. -/
theorem Agree.course_alike {s s' : State} (h : Agree s s') (i : Instr) :
    Course.Alike s s' (course i s) (course i s') := by
  have hdrop := h.dropPartial_alike
  have hready : (dropPartial s').ready = (dropPartial s).ready := by simp [h.ready]
  have here : AddsAlike s s' s s' := .refl h.writes
  cases i with
  | init => exact .runs hdrop
  | start => exact readyCourse_alike hdrop hready _
  | stop => exact readyCourse_alike hdrop hready _
  | wrbyte b => exact readyCourse_alike hdrop hready _
  | delay => exact readyCourse_alike hdrop hready _
  | setbrt v =>
    simp only [course]
    cases brightnessOf v with
    | none => exact .answers (hdrop.answer _)
    | some b => exact .answers (writeBrightness_alike hdrop hready b)
  | setseg n => exact receiveCourse_alike hdrop hready _ _
  | segdata b =>
    simp only [course, h.pending]
    cases s.pending with
    | none => exact .answers (here.answer _)
    | some q => exact receiveCourse_alike here h.ready _ _
  | reserved op arg => exact .answers (hdrop.answer _)
  | comm1 => exact .runs here
  | comm2 => exact .runs here
  | comm3 v => exact .runs here
  | segbyte colon segments => exact .runs here

/-- An instruction adds the same in two states that agree. -/
theorem Agree.course_final {s s' : State} (h : Agree s s') (i : Instr) :
    AddsAlike s s' (course i s).final (course i s').final := by
  have hc := h.course_alike i
  generalize hcs : course i s = c, hcs' : course i s' = c' at hc
  cases hc with
  | answers ha => exact ha
  | runs hadd =>
    have hr := course_runs hcs
    have hr' := course_runs hcs'
    obtain ⟨-, -, -, -, -, -, -, hscript, -⟩ := hr.from
    obtain ⟨-, -, -, -, -, -, -, hscript', -⟩ := hr'.from
    refine hadd.trans (run_addsAlike hr.silentToEnd ?_ ?_ hadd.writes hr.okResults hr'.okResults)
    · rw [hr.events, hr'.events, h.fullEvents_eq]
    · rw [hscript, hscript', h.script]

/-- Settles O38: two states that agree take the same course and add the same. -/
theorem nothingElseIsRead : Obligations.NothingElseIsRead := by
  intro i s s' t t' hq hq' hready hbrt hpending hscript hwrites hx hx'
  rw [exec_rest i hq] at hx
  rw [exec_rest i hq'] at hx'
  cases hx
  cases hx'
  have hadd := (Agree.mk hready hbrt hpending hscript hwrites).course_final i
  obtain ⟨evs, ht, ht'⟩ := hadd.events
  obtain ⟨rs, hr, hr'⟩ := hadd.results
  exact ⟨evs, rs, ht, ht', hr, hr', hadd.writes⟩

end Sys2Proof.Machine

end

section
/-! PROOFS. Inside an operation: the position and the shift register through the events of a byte (R21, R22, R27), and
`TXN` through the frames of a `SETSEG` (R28, R165), both read off the first steps of the sequence (`ticks_launch_ok`). -/

namespace Sys2Proof.Machine

/-! ## The first steps of a sequence -/

/-- One step more of a sequence. -/
theorem okRun_take_succ {p : List Micro} {j : Nat} {m : Micro} (h : p[j]? = some m) (s : State) :
    okRun (p.take (j + 1)) s = okStep m (okRun (p.take j) s) := by
  rw [List.take_add_one, h, okRun_append]
  rfl

/-- The first steps of a sequence produce its first events. -/
theorem okEvents_take (p : List Micro) (j : Nat) (s : State) : okEvents (p.take j) s = (okEvents p s).take j := by
  induction p generalizing j s with
  | nil => simp [okEvents]
  | cons m ms ih =>
    cases j with
    | zero => rfl
    | succ j => simp [okEvents, ih]

/-! ## The steps of a byte -/

theorem byteSteps_length (p : Place) (load : Transfer) (after : List Transfer) :
    (byteSteps p load after).length = 54 := rfl

/-- The positions of a byte: cell `j / 6` (the trailer is cell 8) and event `j % 6` in it. -/
theorem byteSteps_pos (p : Place) (load : Transfer) (after : List Transfer) :
    (byteSteps p load after).map Micro.pos =
      (List.range 54).map fun j => ⟨p.op, p.txn, p.byte, .byte, j / 6, j % 6⟩ := rfl

/-- The byte is loaded with its first event, and no step has another transfer before its event. -/
theorem byteSteps_before (p : Place) (load : Transfer) (after : List Transfer) :
    (byteSteps p load after).map Micro.before =
      (List.range 54).map fun j => if j = 0 then [load] else [] := rfl

/-- `SR` is shifted with the last event of each cell; the last event of the trailer ends the byte. -/
theorem byteSteps_after (p : Place) (load : Transfer) (after : List Transfer) :
    (byteSteps p load after).map Micro.after = (List.range 54).map fun j =>
      if j = 53 then .byteDone :: after else if j % 6 = 5 then [.shiftOut] else [] := rfl

/-- A part of the steps that is listed by their numbers, at one of them. -/
theorem getElem_of_map_eq_range {α : Type} {f : Micro → α} {g : Nat → α} {p : List Micro} {n j : Nat}
    (h : p.map f = (List.range n).map g) (hj : j < p.length) (hn : j < n) : f p[j] = g j := by
  have hat : (p.map f)[j]? = ((List.range n).map g)[j]? := by rw [h]
  simpa [hj, hn] using hat

/-- Step `j` of a byte: where it stands, and the transfers around its event. -/
theorem byteSteps_getElem? (p : Place) (load : Transfer) (after : List Transfer) {j : Nat} (h : j < 54) :
    ∃ m, (byteSteps p load after)[j]? = some m ∧ m.pos = ⟨p.op, p.txn, p.byte, .byte, j / 6, j % 6⟩ ∧
      m.before = (if j = 0 then [load] else []) ∧
      m.after = (if j = 53 then .byteDone :: after else if j % 6 = 5 then [.shiftOut] else []) :=
  have hj : j < (byteSteps p load after).length := h
  ⟨(byteSteps p load after)[j], List.getElem?_eq_getElem hj,
    getElem_of_map_eq_range (byteSteps_pos p load after) hj h,
    getElem_of_map_eq_range (byteSteps_before p load after) hj h,
    getElem_of_map_eq_range (byteSteps_after p load after) hj h⟩

@[simp] theorem launch_sr (p : List Micro) (s : State) : (launch p s).sr = s.sr := by cases p <;> rfl

@[simp] theorem launch_bitcnt (p : List Micro) (s : State) : (launch p s).bitcnt = s.bitcnt := by cases p <;> rfl

@[simp] theorem okEvent_sr (a : Act) (s : State) : (okEvent a s).sr = s.sr := by cases a <;> simp [okEvent]

@[simp] theorem okEvent_bitcnt (a : Act) (s : State) : (okEvent a s).bitcnt = s.bitcnt := by
  cases a <;> simp [okEvent]

/-- Before event `j` of a byte, its first one over, `BITCNT` is the cell and `SR` the byte shifted so often (R134). -/
theorem okRun_take_byte {p : Place} {load : Transfer} {after : List Transfer} {b : Byte}
    (hload : ∀ s, transfer load s = s.load b) (s : State) (j : Nat) (h : j + 1 < 54) :
    (okRun ((byteSteps p load after).take (j + 1)) s).bitcnt = BitVec.ofNat 4 ((j + 1) / 6) ∧
      (okRun ((byteSteps p load after).take (j + 1)) s).sr = b >>> ((j + 1) / 6) := by
  induction j with
  | zero =>
    show (okRun ((byteSteps p load after).take 1) s).bitcnt = 0 ∧
      (okRun ((byteSteps p load after).take 1) s).sr = b >>> 0
    simp [byteSteps, bitCell, Place.step, okRun, okStep, transfers, hload]
  | succ j ih =>
    obtain ⟨m, hm, -, hbefore, hafter⟩ := byteSteps_getElem? p load after (show j + 1 < 54 by omega)
    obtain ⟨hbit, hsr⟩ := ih (by omega)
    rw [okRun_take_succ hm, okStep, hbefore, hafter, if_neg (Nat.succ_ne_zero j), if_neg (show j + 1 ≠ 53 by omega)]
    by_cases hcell : (j + 1) % 6 = 5
    · have hdiv : (j + 1 + 1) / 6 = (j + 1) / 6 + 1 := by omega
      rw [if_pos hcell, hdiv]
      simp [transfers, transfer, hbit, hsr, BitVec.shiftRight_add, BitVec.ofNat_add]
    · have hdiv : (j + 1 + 1) / 6 = (j + 1) / 6 := by omega
      rw [if_neg hcell, hdiv]
      simp [transfers, hbit, hsr]

/-- Settles O49: before event `j` the first `j` steps of the byte are done and step `j` is next. -/
theorem positionInAByte : Obligations.PositionInAByte := by
  intro b s j hw hj
  obtain ⟨m, hm, hpos, -⟩ := byteSteps_getElem? (.alone .wrbyte) (.loadByte b) [.returnOk] hj
  refine ⟨_, ticks_launch_ok _ j s (by rw [stepWrites_byte]; exact hw), ?_, ?_, fun h0 => ?_⟩
  · obtain ⟨hlt, rfl⟩ := List.getElem?_eq_some_iff.1 hm
    rw [List.drop_eq_getElem_cons hlt, launch_position, hpos]
    rfl
  · rw [launch_trace, okRun_trace, okEvents_take, okEvents_byte _ _ _ b _ rfl]
  · obtain ⟨k, rfl⟩ := Nat.exists_eq_succ_of_ne_zero (Nat.ne_of_gt h0)
    obtain ⟨hbit, hsr⟩ := okRun_take_byte (p := .alone .wrbyte) (load := .loadByte b) (after := [.returnOk])
      (fun _ => rfl) s k hj
    rw [launch_bitcnt, launch_sr, hbit]
    refine ⟨?_, hsr⟩
    rw [BitVec.toNat_ofNat]
    omega

/-! ## `TXN` through the frames -/

/-- The transfers of a byte are its load, the shifts, the end of the byte and those asked for after it. -/
theorem mem_byteSteps_transfer {p : Place} {load t : Transfer} {after : List Transfer} {m : Micro}
    (hm : m ∈ byteSteps p load after) (ht : t ∈ m.before ++ m.after) :
    t = load ∨ t = .shiftOut ∨ t = .byteDone ∨ t ∈ after := by
  obtain ⟨j, hj⟩ := List.mem_iff_getElem?.1 hm
  obtain ⟨hlt, -⟩ := List.getElem?_eq_some_iff.1 hj
  obtain ⟨m', hm', -, hbefore, hafter⟩ := byteSteps_getElem? p load after hlt
  obtain rfl : m = m' := Option.some.inj (hj.symm.trans hm')
  rw [hbefore, hafter, List.mem_append] at ht
  obtain ht | ht := ht <;> split_ifs at ht <;> simp at ht <;> tauto

theorem leaves_txn_byteSteps (p : Place) {load : Transfer} {after : List Transfer}
    (hload : ∀ s, (transfer load s).txn = s.txn) (hafter : ∀ t ∈ after, ∀ s, (transfer t s).txn = s.txn) :
    Leaves State.txn (byteSteps p load after) := by
  intro m hm t ht s
  obtain rfl | rfl | rfl | h := mem_byteSteps_transfer hm ht
  · exact hload s
  · rfl
  · rfl
  · exact hafter t h s

theorem leaves_txn_segmentSteps (i n : Nat) : Leaves State.txn (segmentSteps i n) := by
  induction n generalizing i with
  | zero => intro m hm; cases hm
  | succ n ih => exact (leaves_txn_byteSteps _ (fun _ => rfl) (by simp [transfer])).append (ih _)

@[simp] theorem okEvent_txn (a : Act) (s : State) : (okEvent a s).txn = s.txn := by cases a <;> simp [okEvent]

/-- `TXN` after `k` events of a frame of `len` events, from the value `t` before it. -/
def txnInFrame (x : Txn) (len k : Nat) (t : Txn) : Txn := if k = 0 then t else if k < len then x else .idle

/-- A sequence whose first step sets `TXN` and whose last step alone sets it to IDLE. -/
theorem txn_okRun_take {x : Txn} {first last : Micro} {mid : List Micro} (hfirst : ∀ s, (okStep first s).txn = x)
    (hmid : Leaves State.txn mid) (hlast : ∀ s, (okStep last s).txn = .idle) (k : Nat) (s : State) :
    (okRun ((first :: (mid ++ [last])).take k) s).txn = txnInFrame x (mid.length + 2) k s.txn := by
  cases k with
  | zero => rfl
  | succ k =>
    rw [List.take_succ_cons, okRun, txnInFrame, if_neg (Nat.succ_ne_zero k)]
    by_cases hk : k ≤ mid.length
    · rw [if_pos (by omega), List.take_append_of_le_length hk, ← hfirst s]
      exact okRun_keeps okEvent_txn (fun m hm => hmid m (List.mem_of_mem_take hm)) _
    · rw [if_neg (by omega), List.take_of_length_le (by simp; omega), okRun_append]
      exact hlast _

/-- A frame of `SETSEG` with the steps `body` of its bytes. -/
def frameSteps (x : Txn) (body : List Micro) (after : List Transfer) : List Micro :=
  startSteps ⟨.setseg, x, none⟩ [.setTxn x] [] ++ (body ++ stopSteps ⟨.setseg, x, none⟩ (.setTxn .idle :: after))

theorem comm1FrameSteps_eq :
    comm1FrameSteps = frameSteps .comm1Frame (byteSteps (wirePlace .comm1) (.loadByte comm1Byte) []) [] := rfl

theorem comm2FrameSteps_eq (n : Nat) : comm2FrameSteps n = frameSteps .comm2Frame
    (byteSteps (wirePlace .comm2) (.loadByte comm2Byte) [.clearIdx] ++ segmentSteps 0 n) [] := by
  rw [comm2FrameSteps, frameSteps, List.append_assoc]

theorem comm3FrameSteps_eq : comm3FrameSteps =
    frameSteps .comm3Frame (byteSteps (wirePlace .comm3) .loadBrightness []) [.releaseList, .returnOk] := rfl

theorem frameSteps_length (x : Txn) (body : List Micro) (after : List Transfer) :
    (frameSteps x body after).length = body.length + 8 := by
  simp [frameSteps, startSteps, stopSteps]

/-- `TXN` leaves IDLE with the first event of a frame and is IDLE with its last one (R28, R165). -/
theorem txn_frameSteps {x : Txn} {body : List Micro} {after : List Transfer} (hbody : Leaves State.txn body)
    (hafter : ∀ t ∈ after, ∀ s, (transfer t s).txn = s.txn) (k : Nat) (s : State) :
    (okRun ((frameSteps x body after).take k) s).txn = txnInFrame x (body.length + 8) k s.txn := by
  have split : frameSteps x body after = Place.step ⟨.setseg, x, none⟩ .start 0 0 [.setTxn x] (.write .dio false) [] ::
      ((Place.step ⟨.setseg, x, none⟩ .start 0 1 [] .delay [.startDone] ::
          (body ++ (stopSteps ⟨.setseg, x, none⟩ []).take 5)) ++
        [Place.step ⟨.setseg, x, none⟩ .stop 0 5 [] .delay (.stopDone :: .setTxn .idle :: after)]) := by
    simp [frameSteps, startSteps, stopSteps]
  rw [split, txn_okRun_take (x := x) (fun s => rfl) ?mid (fun s => ?last)]
  case mid =>
    have hstop : Leaves State.txn ((stopSteps ⟨.setseg, x, none⟩ []).take 5) := by
      simp [Leaves, stopSteps, Place.step]
    have hstart : Leaves State.txn [Place.step ⟨.setseg, x, none⟩ .start 0 1 [] .delay [.startDone]] := by
      simp [Leaves, Place.step, transfer]
    exact hstart.append (hbody.append hstop)
  case last =>
    exact transfers_keep State.txn after hafter _
  simp [stopSteps]

theorem segmentSteps_length (i n : Nat) : (segmentSteps i n).length = 54 * n := by
  induction n generalizing i with
  | zero => rfl
  | succ n ih => rw [segmentSteps, List.length_append, byteSteps_length, ih]; omega

/-- `TXN` after `k` events of a `SETSEG` of `n` bytes whose writes succeed: through one frame after the other. -/
theorem txn_setsegSteps (n k : Nat) (s : State) : (okRun ((setsegSteps n).take k) s).txn =
    txnInFrame .comm3Frame 62 (k - 62 - (62 + 54 * n))
      (txnInFrame .comm2Frame (62 + 54 * n) (k - 62) (txnInFrame .comm1Frame 62 k s.txn)) := by
  have hnil : ∀ t ∈ ([] : List Transfer), ∀ s, (transfer t s).txn = s.txn := by simp
  have h1 := leaves_txn_byteSteps (wirePlace .comm1) (load := .loadByte comm1Byte) (fun _ => rfl) hnil
  have h2 := (leaves_txn_byteSteps (wirePlace .comm2) (load := .loadByte comm2Byte) (after := [.clearIdx])
    (fun _ => rfl) (by simp [transfer])).append (leaves_txn_segmentSteps 0 n)
  have h3 := leaves_txn_byteSteps (wirePlace .comm3) (load := .loadBrightness) (fun _ => rfl) hnil
  have hafter : ∀ t ∈ [Transfer.releaseList, .returnOk], ∀ s, (transfer t s).txn = s.txn := by simp [transfer]
  rw [setsegSteps, comm1FrameSteps_eq, comm2FrameSteps_eq, comm3FrameSteps_eq]
  simp only [List.take_append, okRun_append, frameSteps_length, txn_frameSteps h1 hnil,
    txn_frameSteps h2 hnil, txn_frameSteps h3 hafter, List.length_append, byteSteps_length, segmentSteps_length]
  rw [show 54 + 54 * n + 8 = 62 + 54 * n by omega]

/-- Settles O50: `TXN` is what the first `k` steps leave it at (`txn_setsegSteps`). -/
theorem txnFollowsTheFrames : Obligations.TxnFollowsTheFrames := by
  intro segs s k hidle hw
  refine ⟨_, ticks_launch_ok _ k _ (by rw [stepWrites_setseg]; exact hw), ?_⟩
  rw [launch_txn, txn_setsegSteps, show ({ s with seg := segs } : State).txn = .idle from hidle]
  grind [txnInFrame]

end Sys2Proof.Machine

end

section
/-! PROOFS. What a listener on the idle bus takes from an operation: a frame of events leaves it on the idle bus with that
frame more (`Observer.after_frame`), so it reads the bytes off any operation whose events are whole frames (R60, R61). -/

namespace Sys2Proof.Machine

/-! ## The frames of a `SETSEG` -/

/-- The trace of a `SETSEG` whose writes succeed. -/
theorem setSegments_trace_ok {segs : List Byte} {s : State} (ha : s.Accepts)
    (hw : s.WritesOk (93 + 27 * segs.length)) :
    (setSegments segs s).trace = s.trace ++ setsegEvents segs s.brt := by
  rw [setSegments_ok ha hw]
  rfl

/-- A listener on the idle bus takes the three frames of R91 from the events of a `SETSEG`. -/
theorem Observer.after_setsegEvents (segs : List Byte) (brt : Nibble) :
    Observer.idle.after (setsegEvents segs brt) =
      ⟨⟨.high, .high⟩, [], none, [[0x40], 0xC0 :: segs, [0x80 + brt.setWidth 8]]⟩ := by
  have hbrt : (0x80 ||| brt.setWidth 8 : Byte) = 0x80 + brt.setWidth 8 := (comm3Byte_eq brt).symm
  rw [setsegEvents_eq, hbrt, Observer.after_append, Observer.after_append, Observer.idle, Observer.after_frame,
    Observer.after_frame, Observer.after_frame]
  rfl

/-- Settles O44: the events of the `SETSEG` are its three frames, which the listener takes one after the other. -/
theorem listenerSeesTheThreeFrames : Obligations.ListenerSeesTheThreeFrames := by
  intro segs s ha _ hw
  exact ⟨_, setSegments_trace_ok ha hw, Observer.after_setsegEvents segs s.brt⟩

end Sys2Proof.Machine

end

section
/-! PROOFS. The codes: decoding and encoding are inverse to each other on the well-formed instructions (R92 to R95, R87
to R90), so a word is an instruction's exactly when its two fields are (`decode_command_iff_fields`). -/

namespace Sys2Proof

/-! ## From an instruction to its code and back -/

/-- The four words that carry no operand. -/
theorem noOperand_commandWord (op : Nibble) (i : Instr) : noOperand (commandWord op 0) i = .ok i := by
  simp [noOperand, argField_commandWord]

theorem decodeCommand_reserved {w : CmdWord} (h : 8 ≤ (opField w).toNat) :
    decodeCommand w = .ok (.reserved (opField w) (argField w)) := by
  unfold decodeCommand
  split
  iterate 8 · omega
  · rfl

/-- Settles O5, row by row: the fields of the word come back, and with them the row and its operand. -/
theorem decodeOfEncode : Obligations.DecodeOfEncode := by
  intro i hi
  cases i with
  | init => exact noOperand_commandWord 0 _
  | start => exact noOperand_commandWord 1 _
  | stop => exact noOperand_commandWord 2 _
  | wrbyte b => simp [encode, decode, decodeCommand, opField_commandWord, argField_commandWord]
  | delay => exact noOperand_commandWord 4 _
  | setbrt v =>
    have hv : v.toNat < 16 := by simpa [Instr.wellFormed] using hi
    simp [encode, decode, decodeCommand, opField_commandWord, argField_commandWord, hv]
  | setseg n => simp [encode, decode, decodeCommand, opField_commandWord, argField_commandWord]
  | segdata b => simp [encode, decode, decodeCommand, opField_commandWord, argField_commandWord]
  | reserved op arg =>
    have hop : 8 ≤ op.toNat := by simpa [Instr.wellFormed] using hi
    have h := decodeCommand_reserved (w := commandWord op arg) (by rwa [opField_commandWord])
    rwa [opField_commandWord, argField_commandWord] at h
  | comm1 => rfl
  | comm2 => rfl
  | comm3 v =>
    have hop : (0x8#4 ++ v : Byte).extractLsb' 4 4 = 0x8#4 := BitVec.extractLsb'_append_eq_left
    have hv : (0x8#4 ++ v : Byte).extractLsb' 0 4 = v := BitVec.extractLsb'_append_eq_right
    simp only [encode, decode, decodeWire, hop, hv, if_true]
  | segbyte colon segments =>
    have hc : (colon ++ segments : Byte).extractLsb' 7 1 = colon := BitVec.extractLsb'_append_eq_left
    have hs : (colon ++ segments : Byte).extractLsb' 0 7 = segments := BitVec.extractLsb'_append_eq_right
    simp only [encode, decode, decodeWire, hc, hs]

/-! ## From a code to its instruction and back -/

/-- A word that decodes is the word of the instruction read, which is well-formed. -/
theorem encode_of_decodeCommand {w : CmdWord} {i : Instr} (h : decodeCommand w = .ok i) :
    encode i = .command w ∧ i.wellFormed = true := by
  have word : ∀ op : Nibble, (opField w).toNat = op.toNat → commandWord op (argField w) = w := by
    intro op ho
    rw [← BitVec.eq_of_toNat_eq ho, commandWord_fields]
  have bare : ∀ (op : Nibble) {j : Instr}, (opField w).toNat = op.toNat →
      encode j = .command (commandWord op 0) → j.wellFormed = true → noOperand w j = .ok i →
      encode i = .command w ∧ i.wellFormed = true := by
    intro op j ho he hj hn
    unfold noOperand at hn
    split at hn <;> cases hn
    rename_i harg
    exact ⟨by rw [he, ← harg, word op ho], hj⟩
  unfold decodeCommand at h
  split at h
  next ho => exact bare 0 ho rfl rfl h
  next ho => exact bare 1 ho rfl rfl h
  next ho => exact bare 2 ho rfl rfl h
  next ho => cases h; exact ⟨congrArg Code.command (word 3 ho), rfl⟩
  next ho => exact bare 4 ho rfl rfl h
  next ho =>
    split at h <;> cases h
    rename_i hv
    exact ⟨congrArg Code.command (word 5 ho), decide_eq_true hv⟩
  next ho => cases h; exact ⟨congrArg Code.command (word 6 ho), rfl⟩
  next ho => cases h; exact ⟨congrArg Code.command (word 7 ho), rfl⟩
  next =>
    cases h
    exact ⟨congrArg Code.command (commandWord_fields w), decide_eq_true (by grind)⟩

/-- A byte that is read at its place is the byte of the instruction read, which is well-formed. -/
theorem encode_of_decodeWire {slot : WireSlot} {b : Byte} {i : Instr} (h : decodeWire slot b = .ok i) :
    encode i = .wire slot b ∧ i.wellFormed = true := by
  have hnibbles : (b.extractLsb' 4 4 ++ b.extractLsb' 0 4 : Byte) = b := BitVec.extractLsb'_append_extractLsb'
  have hcolon : (b.extractLsb' 7 1 ++ b.extractLsb' 0 7 : Byte) = b := BitVec.extractLsb'_append_extractLsb'
  cases slot with
  | comm1 =>
    simp only [decodeWire] at h
    split at h <;> cases h
    rename_i hb
    exact ⟨congrArg (Code.wire .comm1) hb.symm, rfl⟩
  | comm2 =>
    simp only [decodeWire] at h
    split at h <;> cases h
    rename_i hb
    exact ⟨congrArg (Code.wire .comm2) hb.symm, rfl⟩
  | comm3 =>
    simp only [decodeWire] at h
    split at h <;> cases h
    rename_i hb
    exact ⟨by rw [encode, ← hb, hnibbles], rfl⟩
  | segment => cases h; exact ⟨by rw [encode, hcolon], rfl⟩

/-- What decodes, and to what: the codes of the well-formed instructions, each to its own. -/
theorem decode_eq_ok_iff {c : Code} {i : Instr} : decode c = .ok i ↔ encode i = c ∧ i.wellFormed = true := by
  constructor
  · intro h
    cases c with
    | command w => exact encode_of_decodeCommand h
    | wire slot b => exact encode_of_decodeWire h
  · rintro ⟨rfl, hi⟩
    exact decodeOfEncode i hi

/-- Settles O6: two well-formed instructions of one code are both what it decodes to. -/
theorem encodeOfDecode : Obligations.EncodeOfDecode := by
  intro c i h
  obtain ⟨hc, hi⟩ := decode_eq_ok_iff.1 h
  refine ⟨hc, hi, fun j hj hjc => ?_⟩
  have hdec : decode c = .ok j := decode_eq_ok_iff.2 ⟨hjc, hj⟩
  exact Except.ok.inj (hdec.symm.trans h)

/-! ## The rows of the command port -/

theorem commandWord_eq_iff {op : Nibble} {arg : Byte} {w : CmdWord} :
    commandWord op arg = w ↔ opField w = op ∧ argField w = arg := by
  constructor
  · rintro rfl
    exact ⟨opField_commandWord op arg, argField_commandWord op arg⟩
  · rintro ⟨rfl, rfl⟩
    exact commandWord_fields w

/-- A word is read as an instruction exactly when its two fields are that instruction's. -/
theorem decode_command_iff_fields {w : CmdWord} {i : Instr} {op : Nibble} {arg : Byte}
    (he : encode i = .command (commandWord op arg)) (hi : i.wellFormed = true) :
    decode (.command w) = .ok i ↔ opField w = op ∧ argField w = arg := by
  rw [decode_eq_ok_iff, he, Code.command.injEq, commandWord_eq_iff, and_iff_left hi]

/-- R93's mask and match of a row, a nibble and a byte each, against the fields of its instruction. -/
theorem row_selects {w : CmdWord} {i : Instr} {op : Nibble} {arg : Byte} (m₁ v₁ : Nibble) (m₂ v₂ : Byte)
    (he : encode i = .command (commandWord op arg)) (hi : i.wellFormed = true)
    (hop : opField w &&& m₁ = v₁ ↔ opField w = op) (harg : argField w &&& m₂ = v₂ ↔ argField w = arg) :
    w &&& commandWord m₁ m₂ = commandWord v₁ v₂ ↔ decode (.command w) = .ok i := by
  rw [and_commandWord_eq_iff, decode_command_iff_fields he hi, hop, harg]

/-- Every bit of the operation code is in the mask. -/
theorem and_allOnes_eq_iff {n : Nat} (x v : BitVec n) : x &&& BitVec.allOnes n = v ↔ x = v := by
  rw [BitVec.and_allOnes]

/-- The operand of `SETBRT` assembled from its lower four bits. -/
theorem and_upperHalf_eq_zero_iff (x : Byte) : x &&& 0xF0 = 0 ↔ x = (x.extractLsb' 0 4).setWidth 8 := by
  revert x; decide

theorem extractLsb'_argField (w : CmdWord) : (argField w).extractLsb' 0 4 = w.extractLsb' 0 4 := by
  simp [argField]

/-- The reserved row: any operation code with its top bit set. -/
theorem reservedRow_selects (w : CmdWord) :
    w &&& commandWord 8 0 = commandWord 8 0 ↔ decode (.command w) = .ok (.reserved (opField w) (argField w)) := by
  have htop : ∀ op : Nibble, op &&& 8 = 8 ↔ 8 ≤ op.toNat := by decide
  have hwf : (Instr.reserved (opField w) (argField w)).wellFormed = true ↔ 8 ≤ (opField w).toNat :=
    decide_eq_true_iff
  have hcode : encode (.reserved (opField w) (argField w)) = .command w := congrArg Code.command (commandWord_fields w)
  have hfree : argField w &&& 0 = 0 := BitVec.and_zero
  rw [and_commandWord_eq_iff, decode_eq_ok_iff, hwf, htop, and_iff_right hcode, and_iff_left hfree]

/-- Settles O7: each row is its operation code in full and the part of the operand that must be zero, and the reserved
row the top bit of the code. -/
theorem commandRowsSelect : Obligations.CommandRowsSelect := by
  intro w
  have code := fun v : Nibble => and_allOnes_eq_iff (opField w) v
  have zero := and_allOnes_eq_iff (argField w) 0
  have free : argField w &&& 0 = 0 ↔ argField w = argField w := iff_of_true BitVec.and_zero rfl
  have brightness := and_upperHalf_eq_zero_iff (argField w)
  rw [extractLsb'_argField] at brightness
  refine ⟨?_, ?_, ?_, ?_, ?_, ?_, ?_, ?_, ?_⟩
  · exact row_selects 0xF 0 0xFF 0 rfl rfl (code 0) zero
  · exact row_selects 0xF 1 0xFF 0 rfl rfl (code 1) zero
  · exact row_selects 0xF 2 0xFF 0 rfl rfl (code 2) zero
  · exact row_selects 0xF 3 0 0 rfl rfl (code 3) free
  · exact row_selects 0xF 4 0xFF 0 rfl rfl (code 4) zero
  · exact row_selects 0xF 5 0xF0 0 rfl (by simp [Instr.wellFormed]; omega) (code 5) brightness
  · exact row_selects 0xF 6 0 0 rfl rfl (code 6) free
  · exact row_selects 0xF 7 0 0 rfl rfl (code 7) free
  · exact reservedRow_selects w

/-! ## The words that are no instruction -/

/-- Operand bits where there must be none (R95 c). -/
theorem decode_badOperand_of_bare {w : CmdWord} (hop : opField w ∈ [0x0#4, 0x1#4, 0x2#4, 0x4#4])
    (harg : argField w ≠ 0) : decode (.command w) = .error .badOperand := by
  have hbad : ∀ i, noOperand w i = .error .badOperand := fun _ => if_neg harg
  simp only [List.mem_cons, List.not_mem_nil, or_false] at hop
  rcases hop with h | h | h | h <;> simp [decode, decodeCommand, h, hbad]

/-- An operand below 16 is one whose upper four bits are zero. -/
theorem argField_lt_iff (w : CmdWord) : (argField w).toNat < 16 ↔ w.extractLsb' 4 4 = 0#4 := by
  have hbyte : ∀ b : Byte, b.toNat < 16 ↔ b.extractLsb' 4 4 = 0#4 := by decide
  have hfield : (argField w).extractLsb' 4 4 = w.extractLsb' 4 4 := by simp [argField]
  rw [hbyte, hfield]

/-- A brightness above 15 (R95 c, R170). -/
theorem decode_badOperand_of_setbrt {w : CmdWord} (hop : opField w = 5) (harg : ¬ (argField w).toNat < 16) :
    decode (.command w) = .error .badOperand := by
  simp [decode, decodeCommand, hop, harg]

/-! ## Sample codes and wire bytes -/

/-- Settles O4, by reading the fifteen codes. -/
theorem sampleWordsDecode : Obligations.SampleWordsDecode := by
  unfold Obligations.SampleWordsDecode
  decide

/-- Settles O23: the brightness byte is `comm3Byte_append`, and the parts of a segment byte come back. -/
theorem wireByteValues : Obligations.WireByteValues :=
  ⟨rfl, rfl, fun v => congrArg (Code.wire .comm3) (Machine.comm3Byte_append v),
    fun colon segments =>
      ⟨colon ++ segments, rfl, BitVec.extractLsb'_append_eq_left, BitVec.extractLsb'_append_eq_right⟩⟩

end Sys2Proof

end

section
/-! PROOFS. The command port: a word at rest is the instruction it decodes to, executed; what is refused is answered and
nothing else; and the words of a `SETSEG`, which collect its list, are one operation (R92 to R95, R197). -/

namespace Sys2Proof.Machine

/-! ## The step -/

/-- A word that decodes, taken at rest: its instruction goes its course. -/
theorem step_decoded {s : State} {w : CmdWord} {ws : List CmdWord} {i : Instr} (hs : s.seq = .rest)
    (hp : s.port = w :: ws) (hd : decode (.command w) = .ok i) :
    step s = .next (course i { s with port := ws }).final := by
  have hd' : decodeCommand w = .ok i := hd
  rw [step_word hs hp, hd']

/-- A word that does not decode, taken at rest. -/
theorem step_rejected {s : State} {w : CmdWord} {ws : List CmdWord} {e : DecodeError} (hs : s.seq = .rest)
    (hp : s.port = w :: ws) (hd : decode (.command w) = .error e) :
    step s = .next (refuse .badOperand (dropPartial { s with port := ws })) := by
  have hd' : decodeCommand w = .error e := hd
  rw [step_word hs hp, hd']

/-- Settles O2: `step` at rest with a word, at rest with none, and in the middle of an operation. -/
theorem stepRunsDecodedInstruction : Obligations.StepRunsDecodedInstruction := by
  refine ⟨?_, ?_, ?_⟩
  · intro s w ws i hs hp hd
    have hs' : ({ s with port := ws } : State).seq = .rest := hs
    rw [step_decoded hs hp hd, exec_rest i hs']
  · intro s hs hp
    simp only [step, hs, fetch, hp]
  · intro s todo hs
    simp only [step, hs]

/-- What `decodeTableWord` reads is what the decoder makes of the number's code. -/
theorem decode_of_decodeTableWord {nbits w : Nat} {i : Instr} (h : decodeTableWord nbits w = some i) :
    ∃ c, tableCode nbits w = some c ∧ decode c = .ok i := by
  unfold decodeTableWord at h
  split at h
  · cases h
  · rename_i c hc
    split at h <;> cases h
    exact ⟨c, hc, ‹_›⟩

/-- Settles O3: a placed command word is the next of the port, and the sequencer stands at a placed wire byte. -/
theorem stepRunsPlacedWord : Obligations.StepRunsPlacedWord := by
  constructor
  · intro s w i h
    obtain ⟨c, hc, hd⟩ := decode_of_decodeTableWord h
    rw [tableCode, if_neg (by decide), Option.ite_none_right_eq_some] at hc
    obtain ⟨-, hc⟩ := hc
    cases hc
    exact stepRunsDecodedInstruction.1 (s.withFetchWord 16 w) (BitVec.ofNat 12 w) s.port i rfl rfl hd
  · intro s w i h
    obtain ⟨c, hc, hd⟩ := decode_of_decodeTableWord h
    rw [tableCode, if_pos (by decide), Option.ite_none_right_eq_some] at hc
    obtain ⟨-, hc⟩ := hc
    cases hc
    rw [exec_wire (encode_of_decodeWire hd).1 _ (.inr rfl)]
    exact stepRunsDecodedInstruction.2.2 (s.withFetchWord 8 w) _ rfl

/-! ## Refusals -/

/-- Settles O21: the answer of a reserved word, with no reception to end. -/
theorem reservedResult : Obligations.ReservedResult := by
  intro op arg s hs hp
  rw [exec_rest _ hs, course, dropPartial_none hp]
  rfl

theorem readyCourse_notReady {p : List Micro} {u : State} (h : u.ready = false) :
    readyCourse p u = .answers (refuse .notReady u) := by
  rw [readyCourse, h]; rfl

theorem setsegCourse_notReady {segs : List Byte} {u : State} (h : u.ready = false) :
    setsegCourse segs u = .answers (refuse .notReady u) := by
  rw [setsegCourse, h]; rfl

/-- The operations refused while `READY = 0` (R95 d), but for a `SETSEG` that awaits data words: it looks at `READY`
with the last of them. -/
inductive NeedsReady : Instr → Prop where
  | start : NeedsReady .start
  | stop : NeedsReady .stop
  | delay : NeedsReady .delay
  | wrbyte (b : Byte) : NeedsReady (.wrbyte b)
  | setbrt (v : Byte) : v.toNat < 16 → NeedsReady (.setbrt v)
  | setseg : NeedsReady (.setseg 0)

theorem course_notReady {i : Instr} {s : State} (hi : NeedsReady i) (hp : s.pending = none) (hr : s.ready = false) :
    course i s = .answers (refuse .notReady s) := by
  cases hi with
  | setbrt v hv =>
    simp [course, brightnessOf, hv, dropPartial_none hp, whenReady, hr]
  | setseg =>
    rw [course, receiveCourse, if_pos (by decide), dropPartial_pending_none, dropPartial_none hp,
      setsegCourse_notReady hr]
  | _ => rw [course, dropPartial_none hp, readyCourse_notReady hr]

/-- Settles O8, refusal by refusal: what the word is read as, and the answer its instruction gives. -/
theorem portRefusals : Obligations.PortRefusals := by
  intro s w ws hs hp
  have fields {i : Instr} {op : Nibble} {arg : Byte} (he : encode i = .command (commandWord op arg))
      (hi : i.wellFormed = true) (hop : opField w = op) (harg : argField w = arg) : decode (.command w) = .ok i :=
    (decode_command_iff_fields he hi).2 ⟨hop, harg⟩
  refine ⟨fun hnone => ?_, ?_⟩
  · have hdrop : dropPartial { s with port := ws } = { s with port := ws } := dropPartial_none hnone
    refine ⟨fun hop => ?_, fun hop => ?_, fun hop harg => ?_, fun hop harg => ?_, fun hr hw => ?_⟩
    · rw [step_decoded hs hp (decodeCommand_reserved hop), course, hdrop]
      rfl
    · rw [step_decoded hs hp (fields (i := .segdata (argField w)) rfl rfl hop rfl), course, hnone]
      rfl
    · rw [step_rejected hs hp (decode_badOperand_of_bare hop harg), hdrop]
      rfl
    · rw [step_rejected hs hp (decode_badOperand_of_setbrt hop (mt (argField_lt_iff w).1 harg)), hdrop]
      rfl
    · have refused {i : Instr} (hi : NeedsReady i) (hd : decode (.command w) = .ok i) :
          step s = .next { s with port := ws, results := s.results ++ [.refused .notReady] } := by
        have hc : course i { s with port := ws } = .answers (refuse .notReady { s with port := ws }) :=
          course_notReady hi hnone hr
        rw [step_decoded hs hp hd, hc]
        rfl
      rcases hw with ⟨hop, harg⟩ | hop | ⟨hop, harg⟩
      · simp only [List.mem_cons, List.not_mem_nil, or_false] at hop
        rcases hop with hop | hop | hop | hop
        · exact refused .start (fields rfl rfl hop harg)
        · exact refused .stop (fields rfl rfl hop harg)
        · exact refused .delay (fields rfl rfl hop harg)
        · exact refused .setseg (fields rfl rfl hop harg)
      · exact refused (.wrbyte (argField w)) (fields rfl rfl hop rfl)
      · have hlt := (argField_lt_iff w).2 harg
        exact refused (.setbrt (argField w) hlt) (fields rfl (decide_eq_true hlt) hop rfl)
  · intro p hpend hneed hr hop
    have hd := fields (i := .segdata (argField w)) rfl rfl hop rfl
    have hlast : p.need ≤ (p.got ++ [argField w]).length := by simp [hneed]
    have hr' : ({ s with port := ws, pending := none } : State).ready = false := hr
    rw [step_decoded hs hp hd]
    simp only [course, hpend, receiveCourse, if_pos hlast, setsegCourse_notReady hr']
    rfl

/-! ## The end of a reception -/

/-- What is neither a data word nor a wire byte goes its course from the end of the reception. -/
theorem course_dropPartial {i : Instr} (hd : i.isData = false) (hw : i.isWire = false) (s : State) :
    course i (dropPartial s) = course i s := by
  have hidem : dropPartial (dropPartial s) = dropPartial s := dropPartial_none (dropPartial_pending s)
  cases i with
  | segdata b => cases hd
  | comm1 => cases hw
  | comm2 => cases hw
  | comm3 v => cases hw
  | segbyte colon segments => cases hw
  | _ => simp only [course, hidem]

/-- Settles O9: the reception is ended with its refusal, and an instruction goes on as if it had ended before. -/
theorem brokenSetsegIsRefused : Obligations.BrokenSetsegIsRefused := by
  intro s p hs hp
  refine ⟨fun i hd hw => ?_, fun w ws e hport hd => ?_⟩
  · rw [← dropPartial_some hp, exec_rest i hs, exec_rest i ((dropPartial_seq s).trans hs),
      course_dropPartial hd hw]
  · have hp' : ({ s with port := ws } : State).pending = some p := hp
    rw [step_rejected hs hport hd, dropPartial_some hp']
    simp [refuse, State.answer]

/-! ## A `SETSEG` word by word -/

/-- The last data word, or the head word of an empty list, starts the operation. -/
theorem receiveCourse_last {need : Nat} {got : List Byte} {s : State} (hs : s.seq = .rest) (h : need ≤ got.length) :
    (receiveCourse need got s).final = setSegments got { s with pending := none } := by
  have hs' : ({ s with pending := none } : State).seq = .rest := hs
  rw [receiveCourse, if_pos h, setSegments_course got hs']

theorem receiveCourse_waits {need : Nat} {got : List Byte} {s : State} (h : got.length < need) :
    (receiveCourse need got s).final = { s with pending := some ⟨need, got⟩ } := by
  rw [receiveCourse, if_neg (Nat.not_le_of_lt h)]
  rfl

theorem exec_setseg_rest (n : Byte) {s : State} (hs : s.seq = .rest) (hp : s.pending = none) :
    exec (.setseg n) s = .next (receiveCourse n.toNat [] s).final := by
  rw [exec_rest _ hs, course, dropPartial_none hp]

theorem exec_segdata_rest (b : Byte) {p : Partial} {s : State} (hs : s.seq = .rest) (hp : s.pending = some p) :
    exec (.segdata b) s = .next (receiveCourse p.need (p.got ++ [b]) s).final := by
  rw [exec_rest _ hs]
  simp only [course, hp]

/-- Settles O11: the reception goes on while the list is short (`receiveCourse_waits`), and ends with its last byte
(`receiveCourse_last`). -/
theorem setsegCollectsItsData : Obligations.SetsegCollectsItsData := by
  refine ⟨fun n s hs hp hn => ?_, fun b p s hs hp hlt => ?_, fun b p s hs hp hle => ?_⟩
  · have hpos : 0 < n.toNat := Nat.pos_of_ne_zero fun h => hn (BitVec.eq_of_toNat_eq h)
    rw [exec_setseg_rest n hs hp, receiveCourse_waits hpos]
  · rw [exec_segdata_rest b hs hp, receiveCourse_waits (by simpa using hlt)]
  · rw [exec_segdata_rest b hs hp, receiveCourse_last hs (by simpa using hle)]

/-- The head word of an empty list starts the operation. -/
theorem exec_setseg_zero {s : State} (hs : s.seq = .rest) (hp : s.pending = none) :
    exec (.setseg 0) s = .next (setSegments [] s) := by
  rw [exec_setseg_rest 0 hs hp, receiveCourse_last hs (Nat.le_refl 0), ← hp]

theorem core_run_succ {s t : State} (h : step s = .next t) (k : Nat) :
    Sys2Proof.core.run (k + 1) s = Sys2Proof.core.run k t := by
  have h' : Sys2Proof.core.step s = .next t := h
  simp only [Host.Core.run, h']

/-- A data word at the port is the next data byte of the reception. -/
theorem step_dataWord {s : State} {b : Byte} {ws : List CmdWord} (hs : s.seq = .rest)
    (hp : s.port = commandWord 7 b :: ws) : step s = exec (.segdata b) { s with port := ws } :=
  stepRunsDecodedInstruction.1 s _ ws _ hs hp (decodeOfEncode (.segdata b) rfl)

/-- The data words still awaited, taken in turn: the list they complete is run as one operation. -/
theorem run_dataWords (bs : List Byte) : ∀ (b : Byte) (got : List Byte) (s : State) (ws : List CmdWord),
    s.seq = .rest → s.pending = some ⟨got.length + (bs.length + 1), got⟩ →
    s.port = (b :: bs).map (commandWord 7) ++ ws →
    Sys2Proof.core.run (bs.length + 1) s =
      .next (setSegments (got ++ b :: bs) { s with port := ws, pending := none }) := by
  obtain ⟨-, hwaits, hlast⟩ := setsegCollectsItsData
  induction bs with
  | nil =>
    intro b got s ws hs hp hport
    exact core_run_succ ((step_dataWord hs hport).trans (hlast b _ _ hs hp (Nat.le_refl _))) 0
  | cons c cs ih =>
    intro b got s ws hs hp hport
    have hstep := (step_dataWord hs hport).trans (hwaits b _ _ hs hp (by simp))
    refine (core_run_succ hstep _).trans ((ih c (got ++ [b]) _ ws ?_ ?_ rfl).trans ?_)
    · exact hs
    · simp; omega
    · simp

/-- Settles O10: the head word awaits the list, or starts the operation of the empty one, and the data words complete it
(`run_dataWords`). -/
theorem setsegWordsAreOneOperation : Obligations.SetsegWordsAreOneOperation := by
  intro segs s ws hlen hs hp hport
  have hhead : step s = exec (.setseg (BitVec.ofNat 8 segs.length)) { s with port := segs.map (commandWord 7) ++ ws } :=
    stepRunsDecodedInstruction.1 s _ _ _ hs hport (decodeOfEncode (.setseg _) rfl)
  rw [Nat.add_comm]
  cases segs with
  | nil => exact core_run_succ (hhead.trans (exec_setseg_zero hs hp)) 0
  | cons b bs =>
    have hn : (BitVec.ofNat 8 (b :: bs).length).toNat = bs.length + 1 := by
      simp at hlen ⊢; omega
    have hne : BitVec.ofNat 8 (b :: bs).length ≠ 0 := fun h =>
      Nat.succ_ne_zero _ (hn.symm.trans (congrArg BitVec.toNat h))
    have hstep := hhead.trans (setsegCollectsItsData.1 _ _ hs hp hne)
    refine (core_run_succ hstep _).trans ((run_dataWords bs b [] _ ws ?_ ?_ rfl).trans ?_)
    · exact hs
    · rw [hn, List.length_nil, Nat.zero_add]
    · rw [List.nil_append, ← hp]

end Sys2Proof.Machine

end

section
/-! PROOFS. Transfers whose writes succeed: a wire byte, a frame composed by hand, and a `SETSEG` at the port and beside
the three frames it stands for (R86 to R91, R94, R99, R164). -/

namespace Sys2Proof.Machine

/-! ## `SETSEG` at the port -/

/-- A `SETSEG` whose writes succeed ends at the idle bus with its frames and one result. -/
theorem setSegments_completes {segs : List Byte} {s : State} (ha : s.Accepts)
    (hw : s.WritesOk (93 + 27 * segs.length)) :
    (setSegments segs s).trace = s.trace ++ setsegEvents segs s.brt ∧
    (setSegments segs s).results = s.results ++ [.ok] ∧ (setSegments segs s).wave = ⟨.high, .high⟩ ∧
    (setSegments segs s).frame = .idle ∧ (setSegments segs s).txn = .idle ∧ (setSegments segs s).seq = .rest ∧
    (setSegments segs s).brt = s.brt ∧ (setSegments segs s).pending = none := by
  rw [setSegments_ok ha hw]
  exact ⟨rfl, rfl, rfl, rfl, rfl, rfl, rfl, ha.whole⟩

/-- Settles O20: the head word of the empty list, and the last data word, run the operation. -/
theorem setsegCompletes : Obligations.SetsegCompletes := by
  refine ⟨fun s ha hw => ?_, fun b p s hs hr hp hneed hw => ?_⟩
  · exact ⟨_, exec_setseg_zero ha.rest ha.whole, setSegments_completes ha hw⟩
  · have hlen : (p.got ++ [b]).length = p.need := by simp [hneed]
    have ha : ({ s with pending := none } : State).Accepts := ⟨hs, hr, rfl⟩
    have hw' : ({ s with pending := none } : State).WritesOk (93 + 27 * (p.got ++ [b]).length) := by
      rw [hlen]
      exact hw
    have hend := setSegments_completes ha hw'
    exact ⟨_, setsegCollectsItsData.2.2 b p s hs hp (Nat.le_of_eq hneed), hend⟩

/-! ## A wire byte -/

theorem Framing.afterByte_eq (f : Framing) : f.afterByte = if f = .opened then .opened else .undef := by
  cases f <;> rfl

/-- Settles O22: the run of the byte's steps, which return nothing at their end. -/
theorem wireByteResult : Obligations.WireByteResult := by
  intro i slot b s he hseq hw
  have hrun : run (wireSteps slot b) s = { s.sent b with seq := .rest } := by
    rw [wireSteps, run_ok _ s (by rw [stepWrites_byte]; exact hw), okRun_byte _ _ _ b s rfl]
    rfl
  rw [exec_wire he s hseq, hrun, State.sent, Framing.afterByte_eq]
  rfl

/-! ## Frames composed by hand -/

/-- Settles O45: the words of a frame issue its events (`execAll_frame`), which the listener takes as that frame. -/
theorem listenerSeesAFrame : Obligations.ListenerSeesAFrame := by
  intro bytes s ha _ _ hw
  obtain ⟨t, hx, hi, hframe, hwave⟩ := execAll_frame bytes [] ha hw
  rw [List.append_nil] at hx
  exact ⟨t, _, hx, hi.trace, hframe, hwave, hi.results, Observer.after_frame bytes []⟩

/-- The three frames of R91 issued word by word. -/
theorem execAll_setsegFrames (segs : List Byte) {s : State} (ha : s.Accepts)
    (hw : s.WritesOk (93 + 27 * segs.length)) :
    ∃ t, execAll (frameCommands [0x40] ++ frameCommands (0xC0 :: segs) ++
        frameCommands [0x80 + s.brt.setWidth 8]) s = .next t ∧
      Issued s t (setsegEvents segs s.brt) (93 + 27 * segs.length) (9 + segs.length) ∧
      t.frame = .idle ∧ t.wave = ⟨.high, .high⟩ := by
  have hlast : 0x80 ||| s.brt.setWidth 8 = 0x80 + s.brt.setWidth 8 := (comm3Byte_eq s.brt).symm
  obtain ⟨a, h₁, i₁, -⟩ := execAll_frame [0x40]
    (frameCommands (0xC0 :: segs) ++ frameCommands [0x80 + s.brt.setWidth 8]) ha (hw.mono (by simp; omega))
  obtain ⟨b, h₂, i₂, -⟩ := execAll_frame (0xC0 :: segs) (frameCommands [0x80 + s.brt.setWidth 8]) i₁.accepts
    (i₁.writesOk (hw.mono (by simp; omega)))
  have i₁₂ := i₁.trans i₂
  obtain ⟨t, h₃, i₃, hend⟩ := execAll_frame [0x80 + s.brt.setWidth 8] [] i₁₂.accepts
    (i₁₂.writesOk (hw.mono (by simp; omega)))
  refine ⟨t, ?_, ?_, hend⟩
  · rw [List.append_assoc, h₁, h₂, ← List.append_nil (frameCommands _), h₃]
    rfl
  · convert i₁₂.trans i₃ using 1
    · rw [setsegEvents_eq, hlast, List.append_assoc]
    · simp; omega
    · simp; omega

/-- Settles O46: the frames issued word by word (`execAll_setsegFrames`) beside the end of the `SETSEG`
(`setSegments_ok`). -/
theorem setsegEqualsItsFrames : Obligations.SetsegEqualsItsFrames := by
  intro segs s ha hw
  obtain ⟨t, hx, hi, hframe, hwave⟩ := execAll_setsegFrames segs ha hw
  refine ⟨t, hx, ?_⟩
  rw [setSegments_ok ha hw]
  exact ⟨hi.trace, hwave, hframe, hi.brt, hi.tBit, hi.accepts.ready.trans ha.ready.symm, hi.dirClk, hi.dirDio,
    hi.writes, hi.results, rfl⟩

end Sys2Proof.Machine

end

section
/-! PROOFS. The segment encoder and its wrappers (R110 to R118). Characters and bytes are read by one code per glyph
(`glyphCode`); the scan goes on by one element, or by an element and its colon (`scan_induction`). -/

namespace Sys2Proof.Machine

/-! ## The closed set -/

/-- The single-byte encoding of a member of the closed set (R111, log entry 5). -/
def glyphCode : Glyph → Nat
  | .digit d => 0x30 + d.val
  | .letterA => 0x41
  | .letterB => 0x62
  | .letterC => 0x43
  | .letterD => 0x64
  | .letterE => 0x45
  | .space => 0x20

theorem glyphCode_lt (g : Glyph) : glyphCode g < 128 := by
  cases g with
  | digit d => have := d.isLt; simp only [glyphCode]; omega
  | _ => decide

theorem glyphOfByte_glyphCode (g : Glyph) : glyphOfByte (BitVec.ofNat 8 (glyphCode g)) = some g := by
  cases g with
  | digit d => revert d; decide
  | _ => rfl

theorem glyphOfChar_glyphCode (g : Glyph) : glyphOfChar (Char.ofNat (glyphCode g)) = some g := by
  cases g with
  | digit d => revert d; decide
  | _ => rfl

/-- The bytes of the closed set are the codes of its members. -/
theorem glyphOfByte_eq_some_iff {b : Byte} {g : Glyph} : glyphOfByte b = some g ↔ b.toNat = glyphCode g := by
  constructor
  · intro h
    unfold glyphOfByte at h
    split_ifs at h with hdigit <;> cases h
    · exact (Nat.add_sub_of_le hdigit.1).symm
    all_goals subst b; rfl
  · intro h
    rw [← glyphOfByte_glyphCode g, ← h, BitVec.ofNat_toNat, BitVec.setWidth_eq]

/-- The characters of the closed set are those with the codes of its members. -/
theorem glyphOfChar_eq_some_iff {c : Char} {g : Glyph} : glyphOfChar c = some g ↔ c.toNat = glyphCode g := by
  constructor
  · intro h
    unfold glyphOfChar at h
    iterate 16
      obtain ⟨rfl, hg⟩ | ⟨-, h⟩ := ite_eq_iff.1 h
      · cases hg; rfl
    cases h
  · intro h
    rw [← glyphOfChar_glyphCode g, ← h, Char.ofNat_toNat]

theorem glyphOfChar_eq_glyphOfByte {c : Char} (h : c.toNat < 256) :
    glyphOfChar c = glyphOfByte (BitVec.ofNat 8 c.toNat) := by
  ext g
  rw [glyphOfChar_eq_some_iff, glyphOfByte_eq_some_iff, BitVec.toNat_ofNat, Nat.mod_eq_of_lt h]

theorem glyphOfChar_none {c : Char} (h : 128 ≤ c.toNat) : glyphOfChar c = none := by
  refine Option.eq_none_iff_forall_ne_some.2 fun g hg => ?_
  have := glyphOfChar_eq_some_iff.1 hg
  have := glyphCode_lt g
  omega

/-- Settles O56: both read the code of the character (`glyphOfChar_eq_glyphOfByte`), and no code is above 127. -/
theorem charactersEncodeAsTheirBytes : Obligations.CharactersEncodeAsTheirBytes := by
  refine fun pattern c => ⟨fun h => ?_, fun h => ?_⟩
  · rw [charToSegments, glyphOfChar_eq_glyphOfByte h, byteToSegments]
  · rw [charToSegments, glyphOfChar_none (by omega), Option.map_none]

/-- The 16 bytes of R111. -/
def closedSetBytes : List Byte :=
  [0x30#8, 0x31#8, 0x32#8, 0x33#8, 0x34#8, 0x35#8, 0x36#8, 0x37#8, 0x38#8, 0x39#8,
   0x41#8, 0x62#8, 0x43#8, 0x64#8, 0x45#8, 0x20#8]

theorem glyphCode_mem_closedSetBytes (g : Glyph) : BitVec.ofNat 8 (glyphCode g) ∈ closedSetBytes := by
  cases g with
  | digit d => revert d; decide
  | _ => decide

theorem glyphOfByte_isSome_iff (b : Byte) : (glyphOfByte b).isSome = true ↔ b ∈ closedSetBytes := by
  constructor
  · intro h
    obtain ⟨g, hg⟩ := Option.isSome_iff_exists.1 h
    have hmem := glyphCode_mem_closedSetBytes g
    rwa [← glyphOfByte_eq_some_iff.1 hg, BitVec.ofNat_toNat, BitVec.setWidth_eq] at hmem
  · have hall : ∀ b ∈ closedSetBytes, (glyphOfByte b).isSome = true := by decide
    exact hall b

/-- A pattern leaves bit 7 to the colon (R113). -/
theorem patternByte_lt (pattern : Glyph → BitVec 7) (g : Glyph) : (patternByte pattern g).toNat < 0x80 := by
  rw [patternByte, BitVec.toNat_setWidth_of_le (by decide)]
  exact (pattern g).isLt

/-- Settles O57: a byte encodes when it is a glyph's (`glyphOfByte_isSome_iff`), and then as a pattern
(`patternByte_lt`). -/
theorem closedSetOfTheEncoder : Obligations.ClosedSetOfTheEncoder := by
  refine fun pattern b => ⟨?_, fun p hp => ?_⟩
  · rw [byteToSegments, Option.isSome_map]
    exact glyphOfByte_isSome_iff b
  · obtain ⟨g, -, rfl⟩ := Option.map_eq_some_iff.1 hp
    exact patternByte_lt pattern g

/-- The colon is no member of the closed set (R111). -/
theorem charToSegments_colon (pattern : Glyph → BitVec 7) : charToSegments pattern ':' = none := rfl

/-! ## The scan -/

theorem exceptMap_eq_ok_iff {ε β γ : Type} {f : β → γ} {x : Except ε β} {c : γ} :
    x.map f = .ok c ↔ ∃ b, x = .ok b ∧ f b = c := by
  cases x <;> simp [Except.map]

theorem exceptMap_eq_error_iff {ε β γ : Type} {f : β → γ} {x : Except ε β} {e : ε} :
    x.map f = .error e ↔ x = .error e := by
  cases x <;> simp [Except.map]

section
variable {α : Type} {segmentsOf : α → Option Byte} {isColon : α → Bool}

theorem encodeElements_bad {e : α} (h : segmentsOf e = none) (rest : List α) :
    encodeElements segmentsOf isColon (e :: rest) = .error e := by
  cases rest <;> simp only [encodeElements, h]

/-- An element with a colon right after it: the two are one byte with bit 7 set. -/
theorem encodeElements_attached {e c : α} {p : Byte} (h : segmentsOf e = some p) (hc : isColon c = true)
    (rest : List α) : encodeElements segmentsOf isColon (e :: c :: rest) =
      (encodeElements segmentsOf isColon rest).map ((p ||| 0x80#8) :: ·) := by
  simp only [encodeElements, h, hc, if_true]
  cases encodeElements segmentsOf isColon rest <;> rfl

/-- An element with no colon right after it: one byte, its pattern. -/
theorem encodeElements_plain {e : α} {p : Byte} {rest : List α} (h : segmentsOf e = some p)
    (hc : ∀ c ∈ rest.head?, isColon c = false) : encodeElements segmentsOf isColon (e :: rest) =
      (encodeElements segmentsOf isColon rest).map (p :: ·) := by
  cases rest with
  | nil => simp only [encodeElements, h]; rfl
  | cons c rest =>
    simp only [encodeElements, h, hc c rfl, Bool.false_eq_true, if_false]
    cases encodeElements segmentsOf isColon (c :: rest) <;> rfl

/-- Induction along the scan: it ends with the list or at an element that does not encode, and goes on after an element
with its colon or after an element alone. -/
theorem scan_induction {motive : List α → Prop} (nil : motive [])
    (bad : ∀ e rest, segmentsOf e = none → motive (e :: rest))
    (attached : ∀ e c rest p, segmentsOf e = some p → isColon c = true → motive rest → motive (e :: c :: rest))
    (plain : ∀ e rest p, segmentsOf e = some p → (∀ c ∈ rest.head?, isColon c = false) → motive rest →
      motive (e :: rest)) (text : List α) : motive text := by
  induction text using List.twoStepInduction with
  | nil => exact nil
  | singleton e =>
    cases h : segmentsOf e with
    | none => exact bad e [] h
    | some p => exact plain e [] p h (by simp) nil
  | cons_cons e c rest ih ih' =>
    cases h : segmentsOf e with
    | none => exact bad e _ h
    | some p =>
      cases hc : isColon c with
      | true => exact attached e c rest p h hc ih
      | false => exact plain e _ p h (by simpa using hc) (ih' c)

/-- Where no colon encodes by itself, the encoded list has a byte for each element that is not a colon (R114). -/
theorem length_of_encodeElements (hcolon : ∀ e, isColon e = true → segmentsOf e = none) {text : List α}
    {out : List Byte} (h : encodeElements segmentsOf isColon text = .ok out) :
    out.length = text.countP (fun e => !isColon e) := by
  have notColon {e p} (he : segmentsOf e = some p) : isColon e = false :=
    Bool.eq_false_iff.2 fun hc => by simp [hcolon e hc] at he
  induction text using scan_induction (segmentsOf := segmentsOf) (isColon := isColon) generalizing out with
  | nil => cases h; rfl
  | bad e rest he => rw [encodeElements_bad he] at h; cases h
  | attached e c rest p he hc ih =>
    rw [encodeElements_attached he hc, exceptMap_eq_ok_iff] at h
    obtain ⟨out', hrest, rfl⟩ := h
    simp [ih hrest, notColon he, hc]
  | plain e rest p he hc ih =>
    rw [encodeElements_plain he hc, exceptMap_eq_ok_iff] at h
    obtain ⟨out', hrest, rfl⟩ := h
    simp [ih hrest, notColon he]

/-- What a failure reports is the first element in scan order that does not encode (R116). -/
theorem error_of_encodeElements {text : List α} {x : α}
    (h : encodeElements segmentsOf isColon text = .error x) :
    segmentsOf x = none ∧ ∃ before after, text = before ++ x :: after ∧
      (∃ out, encodeElements segmentsOf isColon before = .ok out) ∧
      encodeElements segmentsOf isColon (before ++ [x]) = .error x := by
  induction text using scan_induction (segmentsOf := segmentsOf) (isColon := isColon) with
  | nil => cases h
  | bad e rest he =>
    rw [encodeElements_bad he] at h
    cases h
    exact ⟨he, [], rest, rfl, ⟨[], rfl⟩, encodeElements_bad he []⟩
  | attached e c rest p he hc ih =>
    rw [encodeElements_attached he hc, exceptMap_eq_error_iff] at h
    obtain ⟨hx, before, after, rfl, ⟨out, hout⟩, herror⟩ := ih h
    refine ⟨hx, e :: c :: before, after, rfl, ⟨(p ||| 0x80#8) :: out, ?_⟩, ?_⟩
    · rw [encodeElements_attached he hc, hout]; rfl
    · exact (encodeElements_attached he hc _).trans (exceptMap_eq_error_iff.2 herror)
  | plain e rest p he hc ih =>
    rw [encodeElements_plain he hc, exceptMap_eq_error_iff] at h
    obtain ⟨hx, before, after, rfl, ⟨out, hout⟩, herror⟩ := ih h
    have hbefore : ∀ c ∈ before.head?, isColon c = false := by
      cases before with
      | nil => simp
      | cons b bs => exact hc
    have hwith : ∀ c ∈ (before ++ [x]).head?, isColon c = false := by
      cases before <;> exact hc
    refine ⟨hx, e :: before, after, rfl, ⟨p :: out, ?_⟩, ?_⟩
    · rw [encodeElements_plain he hbefore, hout]; rfl
    · exact (encodeElements_plain he hwith).trans (exceptMap_eq_error_iff.2 herror)

end

/-- Settles O59, from the two facts about the scan: no colon encodes by itself. -/
theorem encodingLengthAndError : Obligations.EncodingLengthAndError := by
  intro pattern text
  have hcolon (c : Char) (hc : (c == ':') = true) : charToSegments pattern c = none := by
    rw [eq_of_beq hc, charToSegments_colon]
  exact ⟨fun out h => length_of_encodeElements hcolon h, fun c h => error_of_encodeElements h⟩

/-- A character with a colon right after it. -/
theorem stringToSegments_attached {pattern : Glyph → BitVec 7} {c : Char} {p : Byte}
    (h : charToSegments pattern c = some p) (rest : List Char) :
    stringToSegments pattern (c :: ':' :: rest) = (stringToSegments pattern rest).map ((p ||| 0x80#8) :: ·) :=
  encodeElements_attached h rfl rest

/-- A colon that attaches to nothing ends the scan (R115). -/
theorem stringToSegments_colon (pattern : Glyph → BitVec 7) (rest : List Char) :
    stringToSegments pattern (':' :: rest) = .error ':' :=
  encodeElements_bad (charToSegments_colon pattern) rest

/-- A text of one supported character. -/
theorem stringToSegments_singleton {pattern : Glyph → BitVec 7} {c : Char} {p : Byte}
    (h : charToSegments pattern c = some p) : stringToSegments pattern [c] = .ok [p] :=
  encodeElements_plain h (by simp)

/-- Settles O58: after an element and its colon the scan goes on as from the start (`stringToSegments_attached`). -/
theorem colonCornerCases : Obligations.ColonCornerCases := by
  intro pattern rest c p hc
  refine ⟨stringToSegments_colon pattern rest, ?_, ?_, rfl, fun c' p' hc' => ?_⟩
  · rw [stringToSegments_attached hc, stringToSegments_colon]; rfl
  · rw [stringToSegments_attached hc]; rfl
  · rw [stringToSegments_attached hc, stringToSegments_singleton hc']; rfl

/-! ## The wrappers -/

/-- A list handed over at rest, with no reception to end, is that `SETSEG`. -/
theorem callSetSegments_rest (segs : List Byte) {s : State} (hs : s.seq = .rest) (hp : s.pending = none) :
    callSetSegments segs s = .next (setSegments segs s) := by
  rw [callSetSegments, accept_rest _ hs, taken, dropPartial_none hp, setSegments]

theorem setString_ok {text : List Char} {segs : List Byte} (h : stringToSegments Config.pattern text = .ok segs)
    {s : State} (hs : s.seq = .rest) (hp : s.pending = none) :
    setString text s = .ok (.next (setSegments segs s)) := by
  simp only [setString, h, callSetSegments_rest segs hs hp]

theorem setString_error {text : List Char} {c : Char} (h : stringToSegments Config.pattern text = .error c)
    (s : State) : setString text s = .error c := by
  simp only [setString, h]

theorem setBytestring_ok {bytes segs : List Byte} (h : bytestringToSegments Config.pattern bytes = .ok segs)
    {s : State} (hs : s.seq = .rest) (hp : s.pending = none) :
    setBytestring bytes s = .ok (.next (setSegments segs s)) := by
  simp only [setBytestring, h, callSetSegments_rest segs hs hp]

/-- A text that encodes is seen on the bus as the three frames of its list (R121). -/
theorem setString_seen {text : List Char} {segs : List Byte} (h : stringToSegments Config.pattern text = .ok segs)
    {s : State} (ha : s.Accepts) (hw : s.WritesOk (93 + 27 * segs.length)) :
    ∃ t evs, setString text s = .ok (.next t) ∧ t.trace = s.trace ++ evs ∧ t.results = s.results ++ [.ok] ∧
      (Observer.idle.after evs).closed = [[0x40], 0xC0 :: segs, [0x80 + s.brt.setWidth 8]] := by
  obtain ⟨htrace, hresults, -⟩ := setSegments_completes ha hw
  refine ⟨_, _, setString_ok h ha.rest ha.whole, htrace, hresults, ?_⟩
  rw [Observer.after_setsegEvents]

/-- The text of the source's end-to-end property: the colon goes with the `2`. -/
theorem stringToSegments_clock (pattern : Glyph → BitVec 7) :
    stringToSegments pattern ['1', '2', ':', '3', '4'] =
      .ok [patternByte pattern (.digit 1), patternByte pattern (.digit 2) ||| 0x80#8,
        patternByte pattern (.digit 3), patternByte pattern (.digit 4)] := rfl

/-- Settles O60: the text's four bytes are sent as one `SETSEG` (`setString_seen`). -/
theorem setStringEndToEnd : Obligations.SetStringEndToEnd :=
  ⟨fun _ ha _ hw => setString_seen (stringToSegments_clock Config.pattern) ha hw,
    fun s _ _ h => setString_error h s, fun _ _ _ h => setBytestring_ok h⟩

end Sys2Proof.Machine

end

section
/-! PROOFS. The bus primitives (R131 to R141): their whole next states when every write succeeds and the counts and the
waveform of what they drive. -/

namespace Sys2Proof.Machine

/-! ## Every write succeeds -/

theorem Framing.afterStart_eq (f : Framing) : f.afterStart = if f = .idle then .opened else .undef := by
  cases f <;> rfl

theorem Framing.afterStop_eq (f : Framing) : f.afterStop = .idle := by cases f <;> rfl

/-- Settles O14: the end of its two steps (`okRun_start`). -/
theorem startResult : Obligations.StartResult := by
  intro s ha hw
  rw [exec_start_ok ha hw, okRun_start, Framing.afterStart_eq, ← ha.rest]
  rfl

/-- Settles O15: the end of its six steps (`okRun_stop`), which write both lines. -/
theorem stopResult : Obligations.StopResult := by
  intro s ha hw
  rw [exec_stop_ok ha hw, okRun_stop, Framing.afterStop_eq, ← ha.rest]
  rfl

/-- Settles O16: `DELAY` has no write that could fail or stall, and its one event adds to the trace alone. -/
theorem delayResult : Obligations.DelayResult := by
  intro s ha
  rw [exec_delay_ok ha, ← ha.rest]
  rfl

/-- Settles O17: the byte is sent (`exec_wrbyte_ok`), bit 7 last. -/
theorem wrbyteResult : Obligations.WrbyteResult := by
  intro b s ha hw
  rw [exec_wrbyte_ok b ha hw, State.sent, Framing.afterByte_eq, ← ha.rest]
  rfl

/-! ## Counts -/

/-- Settles O40: the events of each primitive and of a frame (`Issued`), counted once each (`Counts`). -/
theorem primitiveEventCounts : Obligations.PrimitiveEventCounts := by
  intro s ha
  refine ⟨fun hw => ?_, fun hw => ?_, ?_, fun b hw => ?_, fun bytes hw => ?_⟩
  · obtain ⟨t, hx, hi, -⟩ := issued_start ha hw
    exact ⟨t, _, hx, hi.trace, counts_start.clk, counts_start.dio, counts_start.delays, counts_start.length,
      counts_start.alternates⟩
  · obtain ⟨t, hx, hi, -⟩ := issued_stop ha hw
    exact ⟨t, _, hx, hi.trace, counts_stop.clk, counts_stop.dio, counts_stop.delays, counts_stop.length,
      counts_stop.alternates⟩
  · exact ⟨_, [.d], delayResult s ha, rfl, rfl, rfl, rfl, rfl⟩
  · obtain ⟨t, hx, hi, -⟩ := issued_wrbyte b ha hw
    have hc := counts_byte b
    exact ⟨t, _, hx, hi.trace, hc.clk, hc.dio, hc.delays, hc.length, hc.alternates⟩
  · obtain ⟨t, hx, hi, -⟩ := execAll_frame bytes [] ha hw
    rw [List.append_nil] at hx
    have hc := counts_frame bytes
    exact ⟨t, _, hx, hi.trace, hc.clk, hc.dio, hc.delays, by rw [hc.length]; omega, hc.alternates⟩

/-! ## The bit cells -/

/-- The third event of bit cell `k` writes bit `k` of the byte to DIO (R136). -/
theorem byteEvents_sendsBit (b : Byte) {k : Nat} (hk : k < 8) :
    (byteEvents b)[6 * k + 2]? = some (.w .dio (b.getLsbD k)) := by
  rw [byteEvents_cells]
  interval_cases k <;> rfl

/-- Before that write CLK is low and DIO still at the bit of the cell before, or as it was at the start (R138). -/
theorem wave_before_bit (w : Wave) (b : Byte) {k : Nat} (hk : k < 8) :
    w.after ((byteEvents b).take (6 * k + 2)) =
      ⟨.low, if k = 0 then w.dio else .driven (b.getLsbD (k - 1))⟩ := by
  rw [byteEvents_cells]
  interval_cases k <;> rfl

/-- Under an arithmetic shift too, bit 0 after `k` shifts is bit `k` of the byte, while `k` is one of its bits (R136). -/
theorem getLsbD_sshifted (b : Byte) {k : Nat} (hk : k < 8) : (b.sshiftRight k).getLsbD 0 = b.getLsbD k := by
  rw [BitVec.getLsbD_sshiftRight, Nat.add_zero, if_pos hk]
  rfl

/-- Settles O39: the bit of each cell is `byteEvents_sendsBit`, and both shifts bring it to bit 0. -/
theorem bitCellsCarryTheByteLsbFirst : Obligations.BitCellsCarryTheByteLsbFirst := by
  refine ⟨fun b s ha hw => ?_, by decide⟩
  obtain ⟨t, hx, hi, -⟩ := issued_wrbyte b ha hw
  exact ⟨t, _, hx, hi.trace, (counts_byte b).dio,
    fun k hk => ⟨byteEvents_sendsBit b hk, getLsbD_shifted b k, getLsbD_sshifted b hk⟩⟩

/-- Settles O41: the edges are those of `edges_byte`, and each write of DIO comes under a low clock
(`wave_before_bit`). -/
theorem waveformOfWrbyte : Obligations.WaveformOfWrbyte := by
  intro b s ha hw
  refine ⟨_, byteEvents b, exec_wrbyte_ok b ha hw, rfl, fun hclk => ?_, fun hclk => ?_, rfl, (counts_byte b).dio,
    fun k hk => ?_⟩
  · rw [State.wave, hclk]
    exact edges_byte .high s.lvlDio b (.inr rfl)
  · rw [State.wave, hclk]
    exact edges_byte .low s.lvlDio b (.inl rfl)
  · rw [wave_before_bit s.wave b hk]
    exact ⟨byteEvents_sendsBit b hk, rfl, rfl⟩

end Sys2Proof.Machine

end

section
/-! PROOFS. Whatever the environment answers: the writes at which an operation can fail (`aborts_iff`), and what the bus
primitives and the wire bytes make of `FRAME` and leave unchanged, read off the transfers of their steps. -/

namespace Sys2Proof.Machine

/-! ## Where an operation can fail -/

theorem writes_setsegEvents (segs : List Byte) (brt : Nibble) :
    writes (setsegEvents segs brt) = 93 + 27 * segs.length := by
  have hev := okEvents_setseg segs { State.reset with brt := brt }
  rw [← stepWrites_setseg, ← writes_okEvents, hev]

theorem Plain.ne_hwerr {rs : List OpResult} (h : Plain rs) (c : Cause) : rs ≠ [.hwerr c] := by
  rintro rfl
  exact absurd h.noAbort Nat.one_ne_zero

/-- An operation whose writes all succeed returns no `HWERR`. -/
theorem Runs.okResults_plain {i : Instr} {s u : State} {p : List Micro} (h : Runs i s p u) :
    ∃ rs, (okRun p u).results = u.results ++ rs ∧ Plain rs := by
  refine ⟨_, h.okResults, ?_⟩
  split
  · exact Plain.nil
  · exact Plain.ok

/-- A run is aborted exactly when its sequence has a write with the number of the first one that fails. -/
theorem run_aborts_iff {p : List Micro} {u : State} {j : Nat} {rs : List OpResult} (hs : silentToEnd p = true)
    (hres : (okRun p u).results = u.results ++ rs) (hrs : Plain rs) (hj : u.FirstNotOk j .fail) :
    (∃ c, (run p u).results = u.results ++ [.hwerr c]) ↔ j < stepWrites p := by
  obtain ⟨hok, he⟩ | ⟨k, done, e, hsp, hk, h⟩ | ⟨k, done, e, -, hk, -⟩ := run_outcome hs u
  · refine iff_of_false ?_ fun hlt => hj.not_writesOk (by decide) hlt hok
    rintro ⟨c, hc⟩
    rw [he] at hc
    exact hrs.ne_hwerr c (List.append_cancel_left (hres.symm.trans hc))
  · obtain ⟨rfl, -⟩ := hj.unique hk (by decide) (by decide)
    obtain ⟨c, -, hc⟩ := h.result
    have hlt := splitAtWrite_bound hsp
    rw [writes_okEvents] at hlt
    exact iff_of_true ⟨c, hc⟩ hlt
  · obtain ⟨-, ho⟩ := hj.unique hk (by decide) (by decide)
    cases ho

theorem aborts_iff_final {i : Instr} {s : State} (hq : s.seq = .rest) :
    Aborts i s ↔ ∃ c, (course i s).final.results = s.results ++ [.hwerr c] := by
  rw [Aborts, exec_rest i hq]
  constructor
  · rintro ⟨t, c, ht, hc⟩
    cases ht
    exact ⟨c, hc⟩
  · rintro ⟨c, hc⟩
    exact ⟨_, c, rfl, hc⟩

/-- An operation that is taken is aborted exactly when its full trace has a write with the number of the first one that
fails. -/
theorem aborts_iff {i : Instr} {s : State} {j : Nat} (ht : Takes i s) (hj : s.FirstNotOk j .fail) :
    Aborts i s ↔ j < writes (fullEvents i s) := by
  rw [aborts_iff_final ht.rest]
  cases hc : course i s with
  | runs p u =>
    have hr := course_runs hc
    obtain ⟨-, -, -, -, -, -, -, hscript, hwrites, -⟩ := hr.from
    obtain ⟨rs, hok, hrs⟩ := hr.okResults_plain
    rw [← hr.events, writes_okEvents, ← (hr.received ht).1]
    exact run_aborts_iff hr.silentToEnd hok hrs (hj.congr hscript hwrites)
  | answers t =>
    refine iff_of_false ?_ fun hlt => ?_
    · rintro ⟨c, hres⟩
      obtain ⟨rs, hrs, hplain⟩ := (course_answers hc).results
      exact hplain.ne_hwerr c (List.append_cancel_left (hrs.symm.trans hres))
    · obtain ⟨r, hsp⟩ := Option.isSome_iff_exists.1 ((splitAtWrite_isSome _ _).2 hlt)
      obtain ⟨p, u, hc'⟩ := course_of_split ht hsp
      rw [hc] at hc'
      cases hc'

theorem setSegments_aborts_iff {segs : List Byte} {s : State} {j : Nat} (ha : s.Accepts)
    (hj : s.FirstNotOk j .fail) :
    (∃ c, (setSegments segs s).results = s.results ++ [.hwerr c]) ↔ j < 93 + 27 * segs.length := by
  have hres : (okRun (setsegSteps segs.length) { s with seg := segs }).results = s.results ++ [.ok] := by
    rw [okRun_setseg]
    rfl
  rw [setSegments_course segs ha.rest, setsegCourse, if_pos ha.ready, ← stepWrites_setseg]
  exact run_aborts_iff (silentToEnd_setsegSteps _) hres Plain.ok (hj.congr rfl rfl)

theorem State.Accepts.takes {s : State} (h : s.Accepts) (i : Instr) : Takes i s :=
  ⟨h.rest, fun _ _ => h.ready, fun _ _ => h.whole⟩

/-- Settles O27: where an operation is aborted is the number of writes in its full trace (`aborts_iff`). -/
theorem placesOfFailure : Obligations.PlacesOfFailure := by
  intro s j hs hj
  refine ⟨fun hp => ?_, fun ha => ?_, fun b p hr hp hneed => ?_, fun i hi => ?_⟩
  · exact aborts_iff ⟨hs, fun h => absurd rfl h, fun _ _ => hp⟩ hj
  · have here := fun i => aborts_iff (ha.takes i) hj
    refine ⟨here .start, here .stop, fun b => ?_, fun h => ?_, fun v h => ?_, ?_, fun segs => ?_⟩
    · rw [here, fullEvents, writes_byteEvents]
    · exact Nat.not_lt_zero j ((here .delay).1 h)
    · exact Nat.not_lt_zero j ((here (.setbrt v)).1 h)
    · rw [here, fullEvents, if_pos rfl, writes_setsegEvents]
      rfl
    · exact setSegments_aborts_iff ha hj
  · rw [aborts_iff ⟨hs, fun _ _ => hr, fun h _ => by cases h⟩ hj]
    have hlen : (p.got ++ [b]).length = p.need := by simp [hneed]
    simp only [fullEvents, hp, if_pos (Nat.le_of_eq hneed), writes_setsegEvents, hlen]
  · have ht : Takes i s := ⟨hs, fun _ h => absurd hi (by simp [h]), fun _ h => absurd hi (by simp [h])⟩
    rw [aborts_iff ht hj]
    cases i with
    | comm1 => rw [fullEvents, writes_byteEvents]
    | comm2 => rw [fullEvents, writes_byteEvents]
    | comm3 v => rw [fullEvents, writes_byteEvents]
    | segbyte colon segments => rw [fullEvents, writes_byteEvents]
    | _ => cases hi

/-! ## The framing state -/

/-- A primitive that is taken, and a wire byte, run their sequence. -/
theorem Takes.runs {i : Instr} {s : State} (h : Takes i s) (hi : i.isPrimitive = true ∨ i.isWire = true) :
    ∃ p, Runs i s p s ∧ exec i s = .next (run p s) := by
  suffices hc : ∃ p, course i s = .runs p s by
    obtain ⟨p, hc⟩ := hc
    exact ⟨p, course_runs hc, by rw [exec_rest i h.rest, hc]; rfl⟩
  have ready (hinit : i ≠ .init) (hdata : i.isData = false) (hwire : i.isWire = false) (p : List Micro) :
      readyCourse p (dropPartial s) = .runs p s := by
    rw [dropPartial_none (h.whole hdata hwire), readyCourse, if_pos (h.ready hinit hwire)]
  cases i with
  | start => exact ⟨_, ready nofun rfl rfl _⟩
  | stop => exact ⟨_, ready nofun rfl rfl _⟩
  | wrbyte b => exact ⟨_, ready nofun rfl rfl _⟩
  | delay => exact ⟨_, ready nofun rfl rfl _⟩
  | comm1 => exact ⟨_, rfl⟩
  | comm2 => exact ⟨_, rfl⟩
  | comm3 v => exact ⟨_, rfl⟩
  | segbyte colon segments => exact ⟨_, rfl⟩
  | _ => simp [Instr.isPrimitive, Instr.isWire] at hi

/-- `FRAME` after a primitive that completed (R140). -/
def Framing.after (f : Framing) : Instr → Framing
  | .start => f.afterStart
  | .stop => f.afterStop
  | .wrbyte _ => f.afterByte
  | _ => f

theorem Runs.okRun_frame {i : Instr} {s u : State} {p : List Micro} (h : Runs i s p u) (hi : i.isPrimitive = true) :
    (okRun p u).frame = s.frame.after i := by
  cases h with
  | start => rw [okRun_start]; exact congrArg Framing.afterStart (dropPartial_frame s)
  | stop => rw [okRun_stop]; exact congrArg Framing.afterStop (dropPartial_frame s)
  | wrbyte b => rw [okRun_byte _ _ _ b _ rfl]; exact congrArg Framing.afterByte (dropPartial_frame s)
  | delay => exact dropPartial_frame s
  | wire i slot b s he => cases i <;> simp [Instr.isPrimitive, encode] at hi he
  | _ => cases hi

/-- Settles O37: a primitive that returns `OK` has run to its end (`Runs.okRun_frame`), and one that returns `HWERR` has
been aborted. -/
theorem frameTransitions : Obligations.FrameTransitions := by
  intro i s t hi ht hx
  obtain ⟨p, hr, he⟩ := ht.runs (.inl hi)
  rw [he] at hx
  cases hx
  obtain ⟨-, hend⟩ | ⟨j, done, e, -, -, h⟩ | ⟨j, done, e, -, -, h⟩ := run_outcome hr.silentToEnd s
  · have hframe : (run p s).frame = s.frame.after i := by rw [hend]; exact hr.okRun_frame hi
    refine ⟨fun _ => ⟨?_, ?_, ?_, ?_⟩, fun c hc => ?_⟩
    · rintro rfl; exact hframe.trans (Framing.afterStart_eq _)
    · rintro b rfl; exact hframe.trans (Framing.afterByte_eq _)
    · rintro rfl; exact hframe.trans (Framing.afterStop_eq _)
    · rintro rfl; exact hframe
    · obtain ⟨rs, hok, hrs⟩ := hr.okResults_plain
      rw [hend] at hc
      exact absurd (List.append_cancel_left (hok.symm.trans hc)) (hrs.ne_hwerr c)
  · obtain ⟨c, -, hc⟩ := h.result
    refine ⟨fun hok => ?_, fun _ _ => h.frame⟩
    rw [hc] at hok
    cases List.append_cancel_left hok
  · have hstill (r : OpResult) : (run p s).results ≠ s.results ++ [r] := by simp [h.results]
    exact ⟨fun hok => absurd hok (hstill _), fun c hc => absurd hc (hstill _)⟩

/-! ## What a primitive leaves unchanged -/

/-- The instructions that transfer a byte: `WRBYTE`, and every wire byte. -/
def sendsByte : Instr → Bool
  | .wrbyte _ => true
  | i => i.isWire

/-- The transfers at the end of a primitive: its effect on `FRAME` (R140), and its result. -/
def endTransfers : List Transfer := [.startDone, .byteDone, .stopDone, .returnOk]

/-- The transfers of the primitives and the wire bytes are those at their end, and the load and the shifts of a byte. -/
theorem Runs.mem_transfer {i : Instr} {s u : State} {p : List Micro} (h : Runs i s p u)
    (hi : i.isPrimitive = true ∨ i.isWire = true) {m : Micro} (hm : m ∈ p) {t : Transfer}
    (ht : t ∈ m.before ++ m.after) :
    t ∈ endTransfers ∨ (sendsByte i = true ∧ (t = .shiftOut ∨ ∃ b, t = .loadByte b)) := by
  have start : ∀ m ∈ startSteps (.alone .start) [] [.returnOk], ∀ t ∈ m.before ++ m.after, t ∈ endTransfers := by
    decide
  have stop : ∀ m ∈ stopSteps (.alone .stop) [.returnOk], ∀ t ∈ m.before ++ m.after, t ∈ endTransfers := by
    decide
  have delay : ∀ m ∈ delaySteps (.alone .delay) [.returnOk], ∀ t ∈ m.before ++ m.after, t ∈ endTransfers := by
    decide
  have byte {pl : Place} {b : Byte} {after : List Transfer} (hafter : after ⊆ endTransfers)
      (hm : m ∈ byteSteps pl (.loadByte b) after) :
      t ∈ endTransfers ∨ t = .shiftOut ∨ ∃ b, t = .loadByte b := by
    obtain rfl | rfl | rfl | h := mem_byteSteps_transfer hm ht
    · exact .inr (.inr ⟨b, rfl⟩)
    · exact .inr (.inl rfl)
    · exact .inl (by decide)
    · exact .inl (hafter h)
  cases h with
  | start => exact .inl (start m hm t ht)
  | stop => exact .inl (stop m hm t ht)
  | delay => exact .inl (delay m hm t ht)
  | wrbyte b => exact (byte (by decide) hm).imp_right fun h => ⟨rfl, h⟩
  | wire i slot b s he =>
    have hsends : sendsByte i = true := by cases i <;> simp [encode] at he <;> rfl
    exact (byte (List.nil_subset _) hm).imp_right fun h => ⟨hsends, h⟩
  | _ => simp [Instr.isPrimitive, Instr.isWire] at hi

/-- A primitive or a wire byte leaves a reading alone that the ends of primitives do, and, if it transfers a byte, the
load and the shift. -/
theorem Runs.leaves {α : Type} {f : State → α} {i : Instr} {s u : State} {p : List Micro} (h : Runs i s p u)
    (hi : i.isPrimitive = true ∨ i.isWire = true) (hend : ∀ t ∈ endTransfers, ∀ v, f (transfer t v) = f v)
    (hbyte : sendsByte i = true → ∀ v : State, f v.shiftOut = f v ∧ ∀ b, f (v.load b) = f v) : Leaves f p := by
  intro m hm t ht v
  obtain hmem | ⟨hs, rfl | ⟨b, rfl⟩⟩ := h.mem_transfer hi hm ht
  · exact hend t hmem v
  · exact (hbyte hs v).1
  · exact (hbyte hs v).2 b

/-- A reading of fields that no event writes is untouched by a sequence whose transfers leave it alone. -/
theorem Untouched.of_fields {α : Type} {f : State → α} {p : List Micro}
    (lvl : ∀ s l v, f (State.setLvl s l v) = f s) (dir : ∀ s l d, f (State.setDir s l d) = f s)
    (rec : ∀ s e, f (State.record s e) = f s) (cnt : ∀ s, f (State.countWrite s) = f s) (h : Leaves f p) :
    Untouched f p where
  ok m _ s := by cases m.act <;> simp only [okEvent, lvl, dir, rec, cnt]
  fail m _ s := by cases m.act <;> simp only [failEvent, lvl, dir, rec, cnt]
  stall m _ s := by cases m.act <;> simp only [stallEvent, lvl, cnt]
  leaves := h

/-- The registers that only a `SETSEG` uses; `N` is the length of its list (R26, R28). -/
def State.setsegRegs (s : State) : List Byte × Nat × Txn := (s.seg, s.idx, s.txn)

/-- The registers of a byte transfer (R21, R22). -/
def State.shiftRegs (s : State) : Byte × Nibble := (s.sr, s.bitcnt)

theorem Runs.untouched_setsegRegs {i : Instr} {s u : State} {p : List Micro} (h : Runs i s p u)
    (hi : i.isPrimitive = true ∨ i.isWire = true) : Untouched State.setsegRegs p :=
  .of_fields (by simp [State.setsegRegs]) (by simp [State.setsegRegs]) (fun _ _ => rfl) (fun _ => rfl)
    (h.leaves hi (by simp [endTransfers, transfer, State.setsegRegs]) fun _ _ => ⟨rfl, fun _ => rfl⟩)

theorem Runs.untouched_shiftRegs {i : Instr} {s u : State} {p : List Micro} (h : Runs i s p u)
    (hi : i.isPrimitive = true ∨ i.isWire = true) (hsends : sendsByte i = false) : Untouched State.shiftRegs p :=
  .of_fields (by simp [State.shiftRegs]) (by simp [State.shiftRegs]) (fun _ _ => rfl) (fun _ => rfl)
    (h.leaves hi (by simp [endTransfers, transfer, State.shiftRegs]) fun hs => by rw [hsends] at hs; cases hs)

/-- `START` does not write CLK (R131). -/
theorem Runs.run_start_lvlClk {s u : State} {p : List Micro} (h : Runs .start s p u) :
    (run p u).lvlClk = s.lvlClk := by
  cases h with
  | start =>
    have huntouched : Untouched State.lvlClk (startSteps (.alone .start) [] [.returnOk]) := by
      constructor <;> simp [startSteps, Place.step, Leaves, failEvent, stallEvent, transfer]
    rw [run_untouched (fun _ _ => rfl) (fun _ _ => rfl) huntouched]
    exact congrArg Wave.clk (dropPartial_wave s)
  | wire _ _ _ _ he => cases he

/-- `DELAY` writes no line (R133). -/
theorem Runs.run_delay_wave {s u : State} {p : List Micro} (h : Runs .delay s p u) : (run p u).wave = s.wave := by
  cases h with
  | delay => exact dropPartial_wave s
  | wire _ _ _ _ he => cases he

/-- Settles O31: the registers that no event and no transfer of the sequence writes are untouched, the scratch registers
as long as no abort gives them up (`run_untouched_or_aborted`). -/
theorem frameOfPrimitivesAndWireBytes : Obligations.FrameOfPrimitivesAndWireBytes := by
  intro i s t hi ht hx
  obtain ⟨p, hr, he⟩ := ht.runs hi
  rw [he] at hx
  cases hx
  have hinit : i ≠ .init := by
    rintro rfl
    simp [Instr.isPrimitive, Instr.isWire] at hi
  obtain ⟨hbrt, htBit, hready, hdir⟩ := hr.run_keeps_control hinit
  obtain ⟨hport, hscript⟩ := hr.run_keeps_outside
  have hpending : (run p s).pending = s.pending := run_keeps steady_pending (leaves_pending p) s
  refine ⟨hbrt, htBit, hready, hdir .clk, hdir .dio, hpending, hport, hscript, fun hno => ?_, ?_, ?_⟩
  · have keeps {α : Type} {f : State → α} (hseq : ∀ q v, f { v with seq := q } = f v) (hf : Untouched f p) :
        f (run p s) = f s :=
      (run_untouched_or_aborted hseq hf hr.silentToEnd s).resolve_left (not_exists.2 hno)
    have hsetseg := keeps (fun _ _ => rfl) (hr.untouched_setsegRegs hi)
    simp only [State.setsegRegs, Prod.mk.injEq] at hsetseg
    obtain ⟨hseg, hidx, htxn⟩ := hsetseg
    refine ⟨hseg, hidx, htxn, fun hquiet => ?_⟩
    have hsends : sendsByte i = false := by obtain rfl | rfl | rfl := hquiet <;> rfl
    have hshift := keeps (fun _ _ => rfl) (hr.untouched_shiftRegs hi hsends)
    simpa only [State.shiftRegs, Prod.mk.injEq] using hshift
  · rintro rfl
    exact hr.run_start_lvlClk
  · rintro rfl
    have hwave := hr.run_delay_wave
    exact ⟨congrArg Wave.clk hwave, congrArg Wave.dio hwave⟩

end Sys2Proof.Machine

end

section
/-! PROOFS. The display controller (R161 to R172): what `INIT`, `SETBRT` and `SETSEG` do when their writes succeed, and
what the three frames of a `SETSEG` put on the two lines. -/

namespace Sys2Proof.Machine

/-! ## `INIT` and `SETBRT` -/

/-- `INIT` runs its two steps whatever `READY` is (R163). -/
theorem exec_init {s : State} (hs : s.seq = .rest) (hp : s.pending = none) :
    exec .init s = .next (run initSteps s) := by
  rw [exec_rest _ hs, course, dropPartial_none hp]
  rfl

/-- Settles O13: the end of its two steps (`okRun_init`), which write both lines and every control register. -/
theorem initResult : Obligations.InitResult := by
  intro s hs hp hw
  rw [exec_init hs hp, run_ok initSteps s hw, okRun_init, ← hs]

theorem brightnessOf_of_lt {v : Byte} (h : v.toNat < 16) : brightnessOf v = some (v.setWidth 4) := if_pos h

theorem brightnessOf_of_ge {v : Byte} (h : ¬ v.toNat < 16) : brightnessOf v = none := if_neg h

/-- Settles O18: the operand is looked at first (`brightnessOf`), then `READY`. -/
theorem setbrtResult : Obligations.SetbrtResult := by
  intro v s hs hp
  rw [exec_rest _ hs]
  refine ⟨fun hr hv => ?_, fun hv => ?_, fun hr hv => ?_⟩
  · simp only [course, brightnessOf_of_lt (Nat.lt_succ_of_le hv), dropPartial_none hp, whenReady, if_pos hr]
    rfl
  · simp only [course, brightnessOf_of_ge (Nat.not_lt.2 hv), dropPartial_none hp]
    rfl
  · rw [course_notReady (.setbrt v (Nat.lt_succ_of_le hv)) hp hr]
    rfl

/-! ## `SETSEG` with its writes succeeding -/

/-- Settles O19: the three frames have been shown (`State.shown`), and the list is released. -/
theorem setsegResult : Obligations.SetsegResult := by
  intro segs s ha hw
  rw [setSegments_ok ha hw, ← ha.rest]
  rfl

/-- The sum `0x80 + BRT` has no carry: `BRT` is 4 bits. -/
theorem comm3Byte_toNat (v : Nibble) : (comm3Byte v).toNat = 0x80 + v.toNat := by
  have hv := v.isLt
  rw [comm3Byte, BitVec.toNat_add, BitVec.toNat_setWidth]
  show (128 + v.toNat % 256) % 256 = 128 + v.toNat
  omega

/-- Settles O24: the byte is above 0x80 by the 4 bits of `BRT`, and the frame that carries it is the last one shown. -/
theorem brightnessByte : Obligations.BrightnessByte := by
  intro v
  have hv := v.isLt
  have hbyte := comm3Byte_toNat v
  refine ⟨comm3Byte_eq v, hbyte, by omega, by omega, fun segs s ha hbrt hw => ?_⟩
  rw [setSegments_trace_ok ha hw, setsegEvents_eq, hbrt, comm3Byte_eq]
  simp only [← List.append_assoc]
  exact List.suffix_append ..

/-! ## The counts of a `SETSEG` -/

theorem counts_setseg (segs : List Byte) (brt : Nibble) : Counts (setsegEvents segs brt) (60 + 19 * segs.length)
    (33 + 8 * segs.length) (93 + 27 * segs.length) := by
  rw [setsegEvents_eq]
  refine ((counts_frame _).append ((counts_frame _).append (counts_frame _))).of_eq ?_ ?_ ?_ <;>
    simp only [List.length_cons, List.length_nil] <;> omega

theorem risingEdges_cell (w : Wave) (v : Bool) : risingEdges .clk w (cellEvents v) = 1 := by
  obtain ⟨c, d⟩ := w
  cases c <;> rfl

/-- A byte raises CLK nine times, whatever the levels are when it starts: each of its cells first writes a 0. -/
theorem risingEdges_byte (w : Wave) (b : Byte) : risingEdges .clk w (byteEvents b) = 9 := by
  rw [byteEvents_cells]
  simp only [risingEdges_append, risingEdges_cell, wave_after_cell, (edges_trailer _).1]

theorem risingEdges_bytes (bytes : List Byte) (w : Wave) :
    risingEdges .clk w (bytes.flatMap byteEvents) = 9 * bytes.length := by
  induction bytes generalizing w with
  | nil => rfl
  | cons b bs ih => rw [List.flatMap_cons, risingEdges_append, risingEdges_byte, ih, List.length_cons]; omega

theorem wave_after_bytes_clk {bytes : List Byte} (h : bytes ≠ []) (w : Wave) :
    (w.after (bytes.flatMap byteEvents)).clk = .low := by
  induction bytes generalizing w with
  | nil => exact absurd rfl h
  | cons b bs ih =>
    rw [List.flatMap_cons, Wave.after_append, wave_after_byte]
    by_cases hbs : bs = []
    · subst hbs
      rfl
    · exact ih hbs _

theorem risingEdges_start (w : Wave) : risingEdges .clk w startEvents = 0 := by
  obtain ⟨c, d⟩ := w
  cases c <;> rfl

theorem risingEdges_stop {w : Wave} (h : w.clk = .low) : risingEdges .clk w stopEvents = 1 := by
  obtain ⟨c, d⟩ := w
  subst h
  rfl

/-- A frame with a byte in it raises CLK nine times for each byte and once in its stop, whatever the levels are when it
starts. -/
theorem risingEdges_frame {bytes : List Byte} (h : bytes ≠ []) (w : Wave) :
    risingEdges .clk w (frameEvents bytes) = 9 * bytes.length + 1 := by
  rw [frameEvents, risingEdges_append, risingEdges_append, risingEdges_start, risingEdges_bytes,
    Wave.after_append, risingEdges_stop (wave_after_bytes_clk h _), Nat.zero_add]

theorem risingEdges_setseg (segs : List Byte) (brt : Nibble) (w : Wave) :
    risingEdges .clk w (setsegEvents segs brt) = 30 + 9 * segs.length := by
  rw [setsegEvents_eq, risingEdges_append, risingEdges_append, risingEdges_frame (by simp),
    risingEdges_frame (by simp), risingEdges_frame (by simp)]
  simp only [List.length_cons, List.length_nil]
  omega

/-- Settles O42: the counts of the three frames added (`counts_setseg`, `risingEdges_setseg`), and what the listener
takes from them. -/
theorem setsegEventCounts : Obligations.SetsegEventCounts := by
  intro segs s ha hw
  have hc := counts_setseg segs s.brt
  have hseen := Observer.after_setsegEvents segs s.brt
  refine ⟨_, setSegments_trace_ok ha hw, ?_, ?_, hc.clk, hc.dio, hc.writes, hc.delays, ?_,
    risingEdges_setseg segs s.brt s.wave⟩
  · rw [hseen]
    rfl
  · rw [hseen]
    simp only [List.map_cons, List.map_nil, List.sum_cons, List.sum_nil, List.length_cons, List.length_nil]
    omega
  · rw [hc.length]
    omega

end Sys2Proof.Machine

end

section
/-! PROOFS. The display controller whatever the environment answers: where `INIT` fails (R162), and what `INIT` and
`SETSEG` leave unchanged (R161, R164, R168, R194). -/

namespace Sys2Proof.Machine

/-! ## `INIT` -/

/-- `INIT` aborted at its first write: DIO is not attempted (R162). -/
theorem run_init_fails_clk {s : State} (h : s.outcomeAt s.writes = .fail) :
    run initSteps s = abort ⟨.cfg, .clk, true⟩ { s with
      ready := false, lvlClk := .unknown, dirClk := .unknown, trace := s.trace ++ [.failCfg .clk],
      writes := s.writes + 1 } :=
  run_fail _ _ s rfl h

/-- `INIT` aborted at its second write: CLK has been configured (R162). -/
theorem run_init_fails_dio {s : State} (hclk : s.outcomeAt s.writes = .ok)
    (hdio : s.outcomeAt (s.writes + 1) = .fail) :
    run initSteps s = abort ⟨.cfg, .dio, true⟩ { s with
      ready := false, lvlClk := .high, dirClk := .out, lvlDio := .unknown, dirDio := .unknown,
      trace := s.trace ++ [.cfg .clk, .failCfg .dio], writes := s.writes + 2 } := by
  have hfirst := run_append_ok [(Place.alone .init).step .init 0 0 [.clearReady] (.config .clk) []]
    [(Place.alone .init).step .init 0 1 [] (.config .dio) [.initialise, .returnOk]] s fun i hi => by
      obtain rfl : i = 0 := Nat.lt_one_iff.1 hi
      exact hclk
  refine hfirst.trans ((run_fail _ _ _ rfl hdio).trans ?_)
  simp [okRun, okStep, Place.step, transfers, transfer, okEvent, failEvent, actCause, State.record,
    State.countWrite]

/-- Settles O28: the aborted states of the two writes, read field by field. -/
theorem initFails : Obligations.InitFails := by
  intro s hs hp
  refine ⟨fun h => ⟨_, exec_init hs hp, ?_⟩, fun hclk hdio => ⟨_, exec_init hs hp, ?_⟩⟩
  · rw [run_init_fails_clk h]
    exact ⟨rfl, rfl, rfl, rfl, rfl, rfl, rfl, rfl, rfl, rfl, rfl⟩
  · rw [run_init_fails_dio hclk hdio]
    exact ⟨rfl, rfl, rfl, rfl, rfl, rfl, rfl, rfl, rfl, rfl, rfl⟩

/-- A run of `INIT` returns `OK`, or it is cut at one of its writes: then it has cleared `READY` and written neither
`BRT` nor `T_BIT` (R162). -/
theorem Runs.run_init_ok_or_cut {s u : State} {p : List Micro} (h : Runs .init s p u) :
    (run p u).results = u.results ++ [.ok] ∨
    ((run p u).brt = s.brt ∧ (run p u).tBit = s.tBit ∧ (run p u).ready = false) := by
  obtain ⟨-, he⟩ | ⟨p₁, m, p₂, rfl, -, -, hcut⟩ := run_cases p u
  · left
    rw [he]
    exact h.okResults
  · right
    obtain ⟨hbrt, htBit, hready⟩ := h.control_at_cut
    have hkept {α : Type} {f : State → α} (hf : Steady f) :
        f (run (p₁ ++ m :: p₂) u) = f (transfers m.before (okRun p₁ u)) := by
      obtain ⟨-, he⟩ | ⟨-, he⟩ := hcut <;> rw [he]
      · exact (hf.abort ..).trans (hf.fail ..)
      · exact (hf.seq ..).trans (hf.stall ..)
    exact ⟨(hkept steady_brt).trans hbrt, (hkept steady_tBit).trans htBit, (hkept steady_ready).trans hready⟩

/-- The scratch registers and `TXN` (R194). -/
def State.scratchRegs (s : State) : (List Byte × Nat × Txn) × Byte × Nibble := (s.setsegRegs, s.shiftRegs)

theorem untouched_scratchRegs_init : Untouched State.scratchRegs initSteps := by
  refine .of_fields (fun s l v => by cases l <;> rfl) (fun s l d => by cases l <;> rfl) (fun _ _ => rfl)
    (fun _ => rfl) ?_
  simp [Leaves, initSteps, Place.step, transfer, State.scratchRegs, State.setsegRegs, State.shiftRegs]

/-- Settles O32: a run of `INIT` that does not return `OK` has been cut (`Runs.run_init_ok_or_cut`), and its steps use
no scratch register. -/
theorem frameOfInit : Obligations.FrameOfInit := by
  intro s t hs hp hx
  rw [exec_init hs hp] at hx
  cases hx
  have hr : Runs .init s initSteps s := by simpa only [dropPartial_none hp] using Runs.init s
  obtain ⟨hport, hscript⟩ := hr.run_keeps_outside
  refine ⟨(run_keeps steady_pending (leaves_pending _) s).trans hp, hport, hscript,
    hr.run_init_ok_or_cut.resolve_left, fun hno => ?_⟩
  have hscratch := (run_untouched_or_aborted (fun _ _ => rfl) untouched_scratchRegs_init hr.silentToEnd s).resolve_left
    (not_exists.2 hno)
  simpa only [State.scratchRegs, State.setsegRegs, State.shiftRegs, Prod.mk.injEq, and_assoc] using hscratch

/-! ## `SETSEG` -/

/-- A `SETSEG` that starts runs its steps with the list captured (R26, R164). -/
theorem setSegments_runs {segs : List Byte} {s : State} (ha : s.Accepts) :
    setSegments segs s = run (setsegSteps segs.length) { s with seg := segs } := by
  rw [setSegments_course segs ha.rest, setsegCourse, if_pos ha.ready]
  rfl

/-- Settles O33: the steps of `SETSEG` write no control register (`plain_setsegSteps`) and configure no line
(`configFree_setsegSteps`). -/
theorem frameOfSetseg : Obligations.FrameOfSetseg := by
  intro segs s ha
  have hplain := plain_setsegSteps segs.length
  have hdir := run_dir_of_configFree (configFree_setsegSteps segs.length) { s with seg := segs }
  refine ⟨?_, ?_, ?_, ?_, ?_, ?_, ?_, ?_, exec_setseg_zero ha.rest ha.whole⟩ <;> rw [setSegments_runs ha]
  · exact run_keeps steady_brt (leaves_brt hplain) _
  · exact run_keeps steady_tBit (leaves_tBit hplain) _
  · exact (run_keeps steady_ready (leaves_ready hplain) _).trans ha.ready
  · exact hdir .clk
  · exact hdir .dio
  · exact (run_keeps steady_pending (leaves_pending _) _).trans ha.whole
  · exact run_keeps steady_port (leaves_port _) _
  · exact run_keeps steady_script (fun _ _ t _ s => transfer_script t s) _

end Sys2Proof.Machine

end

section
/-! PROOFS. The record of failures over every step (R192, R194): each FAIL event goes with one `HWERR` result, and no
other event or result is either. -/

namespace Sys2Proof.Machine

/-! ## Result words -/

/-- Settles O30, by computing the ten words. -/
theorem resultWords : Obligations.ResultWords :=
  ⟨rfl, rfl, rfl, rfl, rfl, rfl, rfl, rfl, rfl, rfl⟩

/-- The cause of a write that fails has a result word: a direction write has the value 1 only (R192). -/
theorem word_mem_legalWords_of_cause {e : Event} {c : Cause} (h : e.cause = some c) :
    (OpResult.hwerr c).word ∈ legalWords := by
  cases e with
  | cfg l => cases h; cases l <;> decide
  | w l v => cases h; cases l <;> cases v <;> decide
  | d => cases h
  | failCfg l => cases h
  | failW l v => cases h

/-- A write that fails records one failure. -/
theorem failures_failed {e : Event} {c : Cause} (h : e.cause = some c) : failures [e.failed] = 1 := by
  simp [failures, failed_isFailure h]

/-! ## Results of transfers -/

theorem transfer_plain (t : Transfer) (s : State) :
    ∃ rs, (transfer t s).results = s.results ++ rs ∧ Plain rs := by
  cases ht : t.silent with
  | true => exact ⟨[], by rw [transfer_results_of_silent ht, List.append_nil], Plain.nil⟩
  | false =>
    obtain rfl : t = .returnOk := by simpa [Transfer.silent] using ht
    exact ⟨[.ok], rfl, Plain.ok⟩

/-- Transfers return nothing but `OK`. -/
theorem transfers_plain (ts : List Transfer) (s : State) :
    ∃ rs, (transfers ts s).results = s.results ++ rs ∧ Plain rs := by
  induction ts generalizing s with
  | nil => exact ⟨[], (List.append_nil _).symm, Plain.nil⟩
  | cons t ts ih =>
    obtain ⟨rs, hrs, hplain⟩ := transfer_plain t s
    obtain ⟨rs', hrs', hplain'⟩ := ih (transfer t s)
    exact ⟨rs ++ rs', by rw [transfers, hrs', hrs, List.append_assoc], hplain.append hplain'⟩

/-! ## What keeps the record -/

/-- With no failure and no abort more, the record stays right. -/
theorem RecordsAborts.plain {s t : State} (h : RecordsAborts s) (htrace : failures t.trace = failures s.trace)
    (hres : ∃ rs, t.results = s.results ++ rs ∧ Plain rs) : RecordsAborts t := by
  obtain ⟨rs, hrs, hplain⟩ := hres
  constructor
  · rw [htrace, hrs, List.countP_append, hplain.noAbort, h.counted, Nat.add_zero]
  · intro r hr
    rw [hrs] at hr
    exact (List.mem_append.1 hr).elim (h.legal r) (hplain.legal r)

theorem RecordsAborts.congr {s t : State} (h : RecordsAborts s) (htrace : t.trace = s.trace)
    (hres : t.results = s.results) : RecordsAborts t :=
  h.plain (by rw [htrace]) ⟨[], by rw [hres, List.append_nil], Plain.nil⟩

/-- With the failure of one write and its cause returned, the record stays right. -/
theorem RecordsAborts.aborted {s t : State} {e : Event} {c : Cause} (h : RecordsAborts s) (hc : e.cause = some c)
    (htrace : t.trace = s.trace ++ [e.failed]) (hres : t.results = s.results ++ [.hwerr c]) : RecordsAborts t := by
  constructor
  · rw [htrace, failures_append, failures_failed hc, h.counted, hres, List.countP_append]
    rfl
  · intro r hr
    rw [hres] at hr
    obtain hr | hr := List.mem_append.1 hr
    · exact h.legal r hr
    · obtain rfl := List.mem_singleton.1 hr
      exact word_mem_legalWords_of_cause hc

theorem RecordsAborts.transfers {s : State} (h : RecordsAborts s) (ts : List Transfer) :
    RecordsAborts (Machine.transfers ts s) :=
  h.plain (by rw [transfers_trace]) (transfers_plain ts s)

theorem RecordsAborts.okEvent {s : State} (h : RecordsAborts s) (a : Act) : RecordsAborts (Machine.okEvent a s) := by
  refine h.plain ?_ ⟨[], by rw [okEvent_results, List.append_nil], Plain.nil⟩
  have hnone : failures [actEvent a s] = 0 := by simp [failures, actEvent_isFailure]
  rw [okEvent_trace, failures_append, hnone, Nat.add_zero]

/-- The record is right through every sequence, and where it stops; a stalled write adds nothing to it (R198). -/
theorem recordsAborts_carries : Carries RecordsAborts RecordsAborts where
  ok m _ h := ((h.transfers m.before).okEvent m.act).transfers m.after
  fail _ ts _ hw h := (h.transfers ts).aborted (actEvent_cause _ hw)
    ((abort_trace ..).trans (failEvent_trace _ hw)) (by rw [abort_results, failEvent_results])
  stall a ts _ _ _ h := (h.transfers ts).congr (stallEvent_trace a _) (stallEvent_results a _)
  seq _ _ h := h.congr rfl rfl
  stop _ h := h

@[simp] theorem launch_results (p : List Micro) (s : State) : (launch p s).results = s.results := by
  cases p <;> rfl

/-- What a word does when it is taken returns no `HWERR`. -/
theorem issueWord_plain (w : CmdWord) (s : State) :
    ∃ rs, (issueWord w s).results = s.results ++ rs ∧ Plain rs := by
  obtain ⟨i, p, u, -, hr, he⟩ | ⟨i, ha⟩ := issueWord_cases w s
  · rw [he, launch_results]
    exact hr.startResults
  · exact ha.results

theorem RecordsAborts.begins {s v : State} (h : RecordsAborts s) (hv : Begins s v) : RecordsAborts v := by
  cases hv with
  | here => exact h
  | word w ws => exact h.plain (by rw [(issueWord_keeps w _).1]) (issueWord_plain w { s with port := ws })

/-- Settles O54: a word taken leaves the record right (`RecordsAborts.begins`), and so does every event
(`recordsAborts_carries`). -/
theorem stepKeepsRecordsAborts : Obligations.StepKeepsRecordsAborts := by
  have key (s : State) (h : RecordsAborts s) :
      (∀ t, eventStep s = .next t → RecordsAborts t) ∧ (∀ t, step s = .next t → RecordsAborts t) :=
    recordsAborts_carries.steps fun _ _ hv => h.begins hv
  exact ⟨fun s t h => (key s h).1 t, fun s t h => (key s h).2 t⟩

end Sys2Proof.Machine

end

section
/-! PROOFS. An operation cut at a write (R193 to R199): aborted at the first that fails, stuck at the first that stalls,
in terms of the state it was taken in; and the recovery from an abort (R210). -/

namespace Sys2Proof.Machine

/-! ## Aborted and stuck, from the state the operation was taken in -/

section
variable {i : Instr} {s u : State} {p : List Micro} {j : Nat} {done : List Event} {e : Event}

/-- An operation cut before it returned `OK` has written no control register, but that `INIT` has cleared `READY`. -/
theorem Runs.run_control_of_no_ok (h : Runs i s p u) (hno : (run p u).results ≠ u.results ++ [.ok]) :
    (run p u).brt = s.brt ∧ (run p u).tBit = s.tBit ∧
      (run p u).ready = (if i = .init then false else s.ready) := by
  by_cases hi : i = .init
  · subst hi
    exact h.run_init_ok_or_cut.resolve_left hno
  · obtain ⟨hbrt, htBit, hready, -⟩ := h.run_keeps_control hi
    exact ⟨hbrt, htBit, by rw [if_neg hi, hready]⟩

/-- An aborted run, seen from the state its operation was taken in. -/
theorem Runs.abortedAt (h : Runs i s p u) (ht : Takes i s) (ha : EndsAborted u (run p u) j done e) :
    AbortedAt s (run p u) done e ∧ (run p u).ready = (if i = .init then false else s.ready) ∧
      (run p u).pending = (if i.isData then none else s.pending) := by
  obtain ⟨hres, hpending⟩ := h.received ht
  obtain ⟨-, -, -, hwave, hdir, htrace, -⟩ := h.from
  obtain ⟨hport, hscript⟩ := h.run_keeps_outside
  obtain ⟨hbrt, htBit, hready⟩ := h.run_control_of_no_ok (by obtain ⟨c, -, hc⟩ := ha.result; simp [hc])
  exact ⟨{ trace := htrace ▸ ha.trace, result := hres ▸ ha.result, levels := hwave ▸ ha.wave,
           dirs := fun l => hdir l ▸ ha.dir l, frame := ha.frame, txn := ha.txn, seq := ha.seq,
           brt := hbrt, tBit := htBit, port := hport, script := hscript },
    hready, (run_keeps steady_pending (leaves_pending p) u).trans hpending⟩

/-- A stuck run, seen from the state its operation was taken in. -/
theorem Runs.stuckAt (h : Runs i s p u) (ht : Takes i s) (hst : EndsStuck u (run p u) j done e) :
    StuckAt s (run p u) done e := by
  obtain ⟨hres, -⟩ := h.received ht
  obtain ⟨-, -, -, hwave, -, htrace, -⟩ := h.from
  obtain ⟨hport, hscript⟩ := h.run_keeps_outside
  obtain ⟨hbrt, htBit, -⟩ := h.run_control_of_no_ok (by simp [hst.results])
  exact { trace := htrace ▸ hst.trace, results := hst.results.trans hres, levels := hwave ▸ hst.wave,
          seq := hst.seq, brt := hbrt, tBit := htBit, port := hport, script := hscript }

/-- An instruction that is taken and has a write runs its sequence, in the same environment and with that write in it. -/
theorem Takes.runs_to_split (ht : Takes i s) (hsp : splitAtWrite j (fullEvents i s) = some (done, e))
    {o : WriteOutcome} (hj : s.FirstNotOk j o) : ∃ p u, Runs i s p u ∧ exec i s = .next (run p u) ∧
      splitAtWrite j (okEvents p u) = some (done, e) ∧ u.FirstNotOk j o := by
  obtain ⟨p, u, hc⟩ := course_of_split ht hsp
  have hr := course_runs hc
  obtain ⟨-, -, -, -, -, -, -, hscript, hwrites, -⟩ := hr.from
  exact ⟨p, u, hr, by rw [exec_rest i ht.rest, hc]; rfl, hr.events ▸ hsp, hj.congr hscript hwrites⟩

end

/-- Settles O25: the instruction's run is aborted at that write (`run_endsAborted`). -/
theorem firstFailingWriteAborts : Obligations.FirstFailingWriteAborts := by
  intro i s j done e ht hsp hj
  obtain ⟨p, u, hr, hx, hsp', hj'⟩ := ht.runs_to_split hsp hj
  exact ⟨_, hx, hr.abortedAt ht (run_endsAborted hr.silentToEnd hsp' hj')⟩

theorem step_stalled {s : State} {todo : List Micro} (h : s.seq = .stalled todo) : step s = .fault .stalled := by
  simp only [step, h]

/-- Settles O26: the instruction's run is stuck at that write (`run_endsStuck`), and a stuck engine takes nothing. -/
theorem firstStalledWriteBlocksForEver : Obligations.FirstStalledWriteBlocksForEver := by
  intro i s j done e ht hsp hj
  obtain ⟨p, u, hr, hx, hsp', hj'⟩ := ht.runs_to_split hsp hj
  have hstuck := run_endsStuck hr.silentToEnd hsp' hj'
  obtain ⟨todo, hq⟩ := hstuck.seq
  exact ⟨_, hx, hr.stuckAt ht hstuck, step_stalled hq, tick_stalled hq, fun i' => exec_stalled i' hq⟩

/-! ## Recovery -/

section
variable {i : Instr} {s t : State} {c : Cause}

/-- A run that returned `HWERR` was aborted at one of its writes: one that ends returns no abort, and one that is stuck
returns nothing. -/
theorem Runs.endsAborted_of_hwerr {u : State} {p : List Micro} (h : Runs i s p u)
    (hc : (run p u).results = u.results ++ [.hwerr c]) :
    ∃ j done e, splitAtWrite j (okEvents p u) = some (done, e) ∧ EndsAborted u (run p u) j done e := by
  obtain ⟨-, he⟩ | ⟨j, done, e, hsp, -, ha⟩ | ⟨j, done, e, -, -, hs⟩ := run_outcome h.silentToEnd u
  · obtain ⟨rs, hok, hrs⟩ := h.okResults_plain
    rw [he] at hc
    exact absurd (List.append_cancel_left (hok.symm.trans hc)) (hrs.ne_hwerr c)
  · exact ⟨j, done, e, hsp, ha⟩
  · simp [hs.results] at hc

/-- An operation that returned `HWERR` was aborted, with one failure in its events; `INIT` has left `READY` at 0. -/
theorem Takes.abortedAt_of_hwerr (ht : Takes i s) (hx : exec i s = .next t)
    (hc : t.results = s.results ++ [.hwerr c]) : ∃ done e, AbortedAt s t done e ∧
      failures t.trace = failures s.trace + 1 ∧ t.ready = (if i = .init then false else s.ready) ∧
      t.pending = (if i.isData then none else s.pending) := by
  obtain ⟨p, u, hr, rfl⟩ | ⟨-, ha⟩ := exec_next hx
  · rw [← (hr.received ht).1] at hc
    obtain ⟨j, done, e, hsp, ha⟩ := hr.endsAborted_of_hwerr hc
    obtain ⟨hat, hready, hpending⟩ := hr.abortedAt ht ha
    obtain ⟨c', hcause, -⟩ := hat.result
    refine ⟨done, e, hat, ?_, hready, hpending⟩
    rw [hat.trace, failures_append, failures_append, failures_done hsp, failures_failed hcause]
  · obtain ⟨rs, hrs, hplain⟩ := ha.results
    exact absurd (List.append_cancel_left (hrs.symm.trans hc)) (hplain.ne_hwerr c)

end

/-- A `STOP` whose writes succeed restores the idle bus and adds no failure. -/
theorem exec_stop_restores {t : State} (ha : t.Accepts) (hw : t.WritesOk 3) :
    ∃ u, exec .stop t = .next u ∧ u.wave = ⟨.high, .high⟩ ∧ u.frame = .idle ∧
      failures u.trace = failures t.trace := by
  obtain ⟨u, hu, hissued, hframe, hwave⟩ := issued_stop ha hw
  exact ⟨u, hu, hwave, hframe, by rw [hissued.trace, failures_append]; rfl⟩

/-- An `INIT` whose writes succeed restores the idle bus and adds no failure. -/
theorem exec_init_restores {t : State} (hs : t.seq = .rest) (hp : t.pending = none) (hw : t.WritesOk 2) :
    ∃ u, exec .init t = .next u ∧ u.wave = ⟨.high, .high⟩ ∧ u.frame = .idle ∧
      failures u.trace = failures t.trace :=
  ⟨_, initResult t hs hp hw, rfl, rfl, failures_append ..⟩

/-- Settles O29: an abort leaves the engine at rest, with one failure recorded and nothing half received, and as ready as
it was unless it was an `INIT` (`Takes.abortedAt_of_hwerr`). -/
theorem recoveryAfterAbort : Obligations.RecoveryAfterAbort := by
  intro i s t c hi ht hx hc
  obtain ⟨done, e, hat, hfail, hready, hpending⟩ := ht.abortedAt_of_hwerr hx hc
  have hwhole : t.pending = none := by
    rw [hpending]
    cases hd : i.isData with
    | true => rfl
    | false => exact ht.whole hd hi
  rw [← hfail]
  refine ⟨fun hinit => ?_, fun hinit => ?_, exec_init_restores hat.seq hwhole⟩
  · rw [if_neg hinit] at hready
    exact exec_stop_restores ⟨hat.seq, hready.trans (ht.ready hinit hi), hwhole⟩
  · rw [if_pos hinit] at hready
    rw [exec_rest _ hat.seq, course_notReady .stop hwhole hready]
    rfl

end Sys2Proof.Machine

end

section
/-! PROOFS. Reset and hazards: what holds at power-on (R230), and the least time of the operations whose writes succeed
(R247). -/

namespace Sys2Proof.Machine

/-! ## Power-on -/

/-- Both lines are at `X` at power-on (R31, R230). -/
theorem lvl_reset (l : Line) : State.reset.lvl l = .unknown := by cases l <;> rfl

/-- Neither line has a direction at power-on (R32, R230). -/
theorem dir_reset (l : Line) : State.reset.dir l = .unknown := by cases l <;> rfl

/-- Settles O1: the registers are read off the reset state, and both lines are `lvl_reset` and `dir_reset`. -/
theorem powerOnState : Obligations.PowerOnState :=
  ⟨rfl, rfl, rfl, rfl, rfl, lvl_reset, dir_reset⟩

/-- `Equipped` asks nothing of an engine that is not initialised. -/
theorem Equipped.of_not_ready {s : State} (h : s.ready = false) : Equipped s where
  dir hr := by rw [h] at hr; cases hr
  delay hr := by rw [h] at hr; cases hr

/-- Settles O52: at power-on `FRAME` is undefined, the engine is not initialised, and nothing is being received. -/
theorem powerOnConsistency : Obligations.PowerOnConsistency :=
  .of_parts (fun _ h => by cases h) (fun _ => .of_undef rfl rfl) (.of_not_ready rfl) (fun _ h => by cases h)

/-- At power-on no line has been driven. -/
theorem driven_reset : Driven State.reset := ⟨rfl, dir_reset⟩

/-- At power-on nothing has failed and nothing has been returned. -/
theorem recordsAborts_reset : RecordsAborts State.reset where
  counted := rfl
  legal _ h := absurd h List.not_mem_nil

/-- Settles O55: the lines are those of the empty trace, and no result stands beside it. -/
theorem powerOnFollowsTraceAndRecordsAborts : Obligations.PowerOnFollowsTraceAndRecordsAborts :=
  ⟨driven_reset.followsTrace, recordsAborts_reset⟩

/-! ## The least time of an operation -/

/-- The least time of a trace is that of its delays (R247). -/
theorem timeFloor_of_delays {evs : List Event} {n : Nat} (s : State) (h : delays evs = n) :
    s.timeFloor evs = s.tBit * n := by rw [State.timeFloor, h]

/-- One delay takes `T_BIT` at least (R133). -/
theorem timeFloor_of_one_delay {evs : List Event} (s : State) (h : delays evs = 1) : s.timeFloor evs = s.tBit := by
  rw [timeFloor_of_delays s h, Nat.mul_one]

/-- Settles O43: the delays of each operation are counted (`primitiveEventCounts`, `counts_setseg`); `INIT` and `SETBRT`
add none (`initResult`, `setbrtResult`). -/
theorem delayFloors : Obligations.DelayFloors := by
  intro s ha
  obtain ⟨hstart, hstop, hdelay, hbyte, -⟩ := primitiveEventCounts s ha
  refine ⟨fun hw => ?_, fun v hv => ?_, ?_, fun hw => ?_, fun hw => ?_, fun b hw => ?_, fun segs hw => ?_⟩
  · exact ⟨_, [.cfg .clk, .cfg .dio], initResult s ha.rest ha.whole hw, rfl, timeFloor_of_delays s rfl⟩
  · obtain ⟨hx, -⟩ := setbrtResult v s ha.rest ha.whole
    exact ⟨_, [], hx ha.ready (Nat.le_of_lt_succ hv), (List.append_nil _).symm, timeFloor_of_delays s rfl⟩
  · obtain ⟨t, evs, hx, ht, -, -, hd, -⟩ := hdelay
    exact ⟨t, evs, hx, ht, timeFloor_of_one_delay s hd⟩
  · obtain ⟨t, evs, hx, ht, -, -, hd, -⟩ := hstart hw
    exact ⟨t, evs, hx, ht, timeFloor_of_one_delay s hd⟩
  · obtain ⟨t, evs, hx, ht, -, -, hd, -⟩ := hstop hw
    exact ⟨t, evs, hx, ht, timeFloor_of_delays s hd⟩
  · obtain ⟨t, evs, hx, ht, -, -, hd, -⟩ := hbyte b hw
    exact ⟨t, evs, hx, ht, timeFloor_of_delays s hd⟩
  · exact ⟨_, setSegments_trace_ok ha hw, timeFloor_of_delays s (counts_setseg segs s.brt).delays⟩

end Sys2Proof.Machine

end
